-- ==== Sys2Proof/Word.lean ====
section
/-! DEFINITION. The word and byte types of RRF (20_memory.md R65: every command and CSR access is one 32-bit
word; R60: the internal memories are byte memories). -/

namespace Sys2Proof

/-- A 32-bit word of the command stream or the CSR space (00_scope.md R6). -/
abbrev Word := BitVec 32

/-- A byte of an internal memory or of a payload. -/
abbrev Byte := BitVec 8

end Sys2Proof
end

