-- ==== Sys2Proof/Config.lean ====
section
/-! DEFINITION. The configuration record of 00_scope.md R3, fixed for one RRF instance, with its legality (R4),
the derived quantities, the fixed constants, and the free values: bytes and values the spec leaves open, each an
opaque constant of which nothing can be proved. -/

namespace Sys2Proof

/-- The nine parameters of 00_scope.md R3, as plain numbers. -/
structure Params where
  /-- `W`, the accumulator width in bits. -/
  w : Nat
  /-- `MTU`, the largest emitted packet in bytes, header included (92_eei_decisions.md D6). -/
  mtu : Nat
  /-- `HDR_BYTES`, the bytes the host writes in front of each payload. -/
  hdrBytes : Nat
  /-- `GAP`, the H.261 sequence gap threshold. -/
  gap : Nat
  /-- `RING_SIZE`, the H.261 ring slots. -/
  ringSize : Nat
  /-- `JPEG_MAX`, the largest JPEG frame in bytes. -/
  jpegMax : Nat
  /-- `JPEG_INIT_CAP`, the capacity of each JPEG buffer after reset. -/
  jpegInitCap : Nat
  /-- `DECIMATE`, keep one new JPEG frame in this many; 0 means keep all. -/
  decimate : Nat
  /-- `MAX_PKT_BYTES`, the largest payload of a JPEG.FRAG or H261.PKT command. -/
  maxPktBytes : Nat
deriving DecidableEq, Repr

/-- The legal ranges of 00_scope.md R3. -/
abbrev Params.Legal (p : Params) : Prop :=
  (p.w = 32 ∨ p.w = 64) ∧
  (p.hdrBytes + 4 ≤ p.mtu ∧ p.mtu ≤ 65535) ∧
  p.gap ≤ 65535 ∧
  (1 ≤ p.ringSize ∧ p.ringSize ≤ 65536) ∧
  (p.jpegInitCap ≤ p.jpegMax ∧ p.jpegMax ≤ 2 ^ 24 - 1) ∧
  1 ≤ p.jpegInitCap ∧
  p.decimate ≤ 2 ^ 31 - 1 ∧
  (4 ≤ p.maxPktBytes ∧ p.maxPktBytes ≤ 16384) ∧
  p.ringSize * (p.maxPktBytes - 4) ≤ 2 ^ 24 - 1

/-- A configuration of an RRF instance: legal parameters, and no others can be built (00_scope.md R4). -/
structure Config where
  /-- The parameters. -/
  params : Params
  /-- They are in the ranges of R3. -/
  legal : params.Legal
deriving DecidableEq, Repr

/-- The instance for a parameter record, refused (`none`) where a parameter is out of range (00_scope.md R4; log entry
19). -/
def Config.ofParams? (p : Params) : Option Config :=
  if h : p.Legal then some ⟨p, h⟩ else none

/-- The default configuration: the values of the table of 00_scope.md R3. -/
def Config.default : Config where
  params :=
    { w := 32, mtu := 1024, hdrBytes := 16, gap := 5, ringSize := 1024, jpegMax := 256000,
      jpegInitCap := 1024, decimate := 0, maxPktBytes := 2048 }
  legal := by decide

/-- `W` (R3). -/
abbrev Config.w (c : Config) : Nat := c.params.w

/-- `PKT_CAP = MTU - HDR_BYTES`, the bytes of the packet buffer (R3). -/
def Config.pktCap (c : Config) : Nat := c.params.mtu - c.params.hdrBytes

/-- `L = (MTU - HDR_BYTES) * 8`, the payload limit of one packet in bits (R3). -/
def Config.limitBits (c : Config) : Nat := c.pktCap * 8

/-- `DEC_CAP = RING_SIZE * (MAX_PKT_BYTES - 4)` (R3): no H.261 frame is longer. -/
def Config.decCap (c : Config) : Nat := c.params.ringSize * (c.params.maxPktBytes - 4)

/-- `GOB_MAX`, the largest plausible GOB number (R3). -/
def gobMax : Nat := 12

/-- `WRAP_BASE`, the constant of the negative-index wrap (R3). -/
def wrapBase : Nat := 0xFFFF

/-- `GOB_HDR_BITS`, the bits of a GOB header (R3). -/
def gobHdrBits : Nat := 26

/-- FREE VALUE (log entry 6). The byte that address `addr` of the packet buffer holds after the `epoch`-th reset
while nothing has written it (10_state.md R24; 93_implementation_defined.md U6). -/
opaque Config.unwrittenPb : (epoch addr : Nat) → Byte

/-- FREE VALUE (log entry 5). The byte that address `addr` of JPEG buffer `b` (0 or 1) holds after the `epoch`-th
reset while no fragment has written it (10_state.md R27; 93_implementation_defined.md U3). -/
opaque Config.unwrittenRb : (epoch b addr : Nat) → Byte

/-- FREE VALUE (log entry 7). The byte a frame carries at offset `addr` at or beyond the buffer's capacity; `draw`
counts the frames reported ready. -/
opaque Config.beyondCapacity : (draw addr : Nat) → Byte

/-- FREE VALUE (log entry 8). The value field of a FRAME_READY result whose frame length needs more than 24 bits;
`draw` counts the frames reported ready. -/
opaque Config.wideLength : (draw length : Nat) → BitVec 24

end Sys2Proof
end

