-- ==== Sys2Proof/Syntax.lean ====
section
/-! DEFINITION. The commands of RRF as data: one constructor for each row of spec/opcode_table.json
(30_encoding.md R81), with the fields of its header and argument words and its data words (R82, R83). -/

namespace Sys2Proof

/-- A command of RRF. Data words are kept whole, padding included: what the padding holds is part of the words
the host wrote, and no meaning reads it (30_encoding.md R84, R85; log entry 14). -/
inductive Instr where
  /-- `nop` (44_control.md R220). -/
  | nop
  /-- `srst` (44_control.md R221). -/
  | srst
  /-- `bp.put N, VALUE` (40_bitpacker.md R112). -/
  | bpPut (n : BitVec 6) (value : Word)
  /-- `bp.flush M` (40_bitpacker.md R116). -/
  | bpFlush (m : Bool)
  /-- `enc.begin` (41_framer.md R131). -/
  | encBegin
  /-- `enc.gob GN, GQ` (41_framer.md R133). -/
  | encGob (gn : BitVec 4) (gq : BitVec 5)
  /-- `enc.mb NBITS, D0, D1, ...` (41_framer.md R137). -/
  | encMb (nbits : BitVec 16) (data : List Word)
  /-- `jpeg.frag SEQ, M, TS, OFF, LEN, ...` (42_jpeg_reassembler.md R161). -/
  | jpegFrag (m : Bool) (seq : BitVec 16) (ts off : Word) (len : BitVec 16) (data : List Word)
  /-- `h261.pkt SEQ, M, LEN, ...` (43_h261_reassembler.md R190). -/
  | h261Pkt (m : Bool) (seq len : BitVec 16) (data : List Word)
deriving DecidableEq, Repr

/-- The nine opcodes (30_encoding.md R81). -/
inductive Opcode where
  | nop | srst | bpPut | bpFlush | encBegin | encGob | encMb | jpegFrag | h261Pkt
deriving DecidableEq, Repr

/-- The header word formats (30_encoding.md R82). -/
inductive Format where
  | f0 | fp | ff | fg | fm | fs
deriving DecidableEq, Repr

/-- The fault codes RRF raises (60_exceptions.md R240). -/
inductive FaultCode where
  /-- The opcode is outside the map. -/
  | illegalOpcode
  /-- A reserved bit of a header or LENW word is 1. -/
  | reservedNonzero
  /-- BP.PUT with `N > 32`. -/
  | badNbits
  /-- `LEN > MAX_PKT_BYTES`. -/
  | badLength
  /-- A BP.PUT that would not fit the packet. -/
  | bpOverflow
deriving DecidableEq, Repr

end Sys2Proof
end

