-- ==== Sys2Proof/WellFormed.lean ====
section
/-! DEFINITION. Which terms of `Instr` are commands: the legal operand ranges of 30_encoding.md R91 and the number
of data words of R84, R85 and R87. -/

namespace Sys2Proof

/-- The words that hold `n` units at `per` units a word, `ceil(n / per)` (30_encoding.md R84, R85). -/
def wordsFor (per n : Nat) : Nat := (n + per - 1) / per

/-- A command the encoding can carry, for an instance whose `MAX_PKT_BYTES` is `maxPkt`: `N` at most 32, `LEN` at
most `maxPkt`, and as many data words as `NBITS` or `LEN` asks for (30_encoding.md R87, R91). -/
def Instr.wellFormed (maxPkt : Nat) : Instr → Bool
  | .nop | .srst | .bpFlush _ | .encBegin | .encGob _ _ => true
  | .bpPut n _ => decide (n.toNat ≤ 32)
  | .encMb nbits data => decide (data.length = wordsFor 32 nbits.toNat)
  | .jpegFrag _ _ _ _ len data =>
    decide (len.toNat ≤ maxPkt) && decide (data.length = wordsFor 4 len.toNat)
  | .h261Pkt _ _ len data =>
    decide (len.toNat ≤ maxPkt) && decide (data.length = wordsFor 4 len.toNat)

end Sys2Proof
end

