-- ==== Sys2Proof/Decode.lean ====
section
/-! DEFINITION. The decoder of 30_encoding.md (R80 to R91): total on any words, refusing by fault code; and the
encoder, written from the same tables. `decodeTableWord` and `layoutWords` lay an opcode-table word out as the command
port delivers it. -/

namespace Sys2Proof

/-- The opcode value of each command (30_encoding.md R81). -/
def Opcode.code : Opcode → BitVec 8
  | .nop => 0x00
  | .srst => 0x01
  | .bpPut => 0x10
  | .bpFlush => 0x11
  | .encBegin => 0x12
  | .encGob => 0x13
  | .encMb => 0x14
  | .jpegFrag => 0x20
  | .h261Pkt => 0x30

/-- The header format of each command (30_encoding.md R81). -/
def Opcode.format : Opcode → Format
  | .nop | .srst | .encBegin => .f0
  | .bpPut => .fp
  | .bpFlush => .ff
  | .encGob => .fg
  | .encMb => .fm
  | .jpegFrag | .h261Pkt => .fs

/-- The opcode map in the order of 30_encoding.md R81. -/
def opcodeMap : List Opcode :=
  [.nop, .srst, .bpPut, .bpFlush, .encBegin, .encGob, .encMb, .jpegFrag, .h261Pkt]

/-- The reserved bits of a format: the ones R82 shows as 0 (30_encoding.md R82, R89). -/
def Format.reserved : Format → Word
  | .f0 => 0x00FFFFFF
  | .fp => 0x00FFFFC0
  | .ff => 0x007FFFFF
  | .fg => 0x00FFFE00
  | .fm => 0x00FF0000
  | .fs => 0x007F0000

/-- The command of header bits `[31:24]`, if the map has it (30_encoding.md R81, R90). -/
def opcodeOf (h : Word) : Option Opcode :=
  opcodeMap.find? fun op => op.code == h.extractLsb' 24 8

/-- `N = h[5:0]` (format FP, 30_encoding.md R82). -/
def fieldN (h : Word) : BitVec 6 := h.extractLsb' 0 6

/-- `M = h[23]` (formats FF and FS). -/
def fieldM (h : Word) : Bool := h.getLsbD 23

/-- `GN = h[3:0]` (format FG). -/
def fieldGn (h : Word) : BitVec 4 := h.extractLsb' 0 4

/-- `GQ = h[8:4]` (format FG). -/
def fieldGq (h : Word) : BitVec 5 := h.extractLsb' 4 5

/-- `h[15:0]`: `NBITS` of format FM, `SEQ` of format FS, `LEN` of a LENW word (30_encoding.md R82, R83). -/
def fieldLow16 (h : Word) : BitVec 16 := h.extractLsb' 0 16

/-- What the words consumed so far amount to. -/
inductive Decoded where
  /-- A command not yet complete: more words are needed (30_encoding.md R88). -/
  | more
  /-- The last word read is refused, with the fault code it raises (R88 to R91). -/
  | bad (c : FaultCode)
  /-- A complete command, and the words after it. -/
  | cmd (i : Instr) (rest : List Word)
deriving DecidableEq, Repr

/-- The checks of a LENW word in the order of 30_encoding.md R88: reserved bits `[31:16]`, then the length. -/
def lenwFault (maxPkt : Nat) (lw : Word) : Option FaultCode :=
  if lw.extractLsb' 16 16 ≠ 0 then some .reservedNonzero
  else if maxPkt < (fieldLow16 lw).toNat then some .badLength
  else none

/-- Takes `k` data words, or waits for them (30_encoding.md R84, R85, R87). -/
def takeData (k : Nat) (ws : List Word) (make : List Word → Instr) : Decoded :=
  if ws.length < k then .more else .cmd (make (ws.take k)) (ws.drop k)

/-- The words after a checked header word (30_encoding.md R83, R87, R88). -/
def decodeArgs (maxPkt : Nat) (op : Opcode) (h : Word) (ws : List Word) : Decoded :=
  match op with
  | .nop => .cmd .nop ws
  | .srst => .cmd .srst ws
  | .bpPut =>
    match ws with
    | [] => .more
    | v :: rest => .cmd (.bpPut (fieldN h) v) rest
  | .bpFlush => .cmd (.bpFlush (fieldM h)) ws
  | .encBegin => .cmd .encBegin ws
  | .encGob => .cmd (.encGob (fieldGn h) (fieldGq h)) ws
  | .encMb => takeData (wordsFor 32 (fieldLow16 h).toNat) ws (.encMb (fieldLow16 h))
  | .jpegFrag =>
    match ws with
    | ts :: off :: lw :: ds =>
      match lenwFault maxPkt lw with
      | some c => .bad c
      | none =>
        takeData (wordsFor 4 (fieldLow16 lw).toNat) ds
          (.jpegFrag (fieldM h) (fieldLow16 h) ts off (fieldLow16 lw))
    | _ => .more
  | .h261Pkt =>
    match ws with
    | lw :: ds =>
      match lenwFault maxPkt lw with
      | some c => .bad c
      | none =>
        takeData (wordsFor 4 (fieldLow16 lw).toNat) ds
          (.h261Pkt (fieldM h) (fieldLow16 h) (fieldLow16 lw))
    | [] => .more

/-- The checks of a header word in the order of 30_encoding.md R88 and 60_exceptions.md R243: the opcode, the
reserved bits, `N` of BP.PUT. -/
def headerFault (h : Word) : Option FaultCode :=
  match opcodeOf h with
  | none => some .illegalOpcode
  | some op =>
    if h &&& op.format.reserved ≠ 0 then some .reservedNonzero
    else if op = .bpPut ∧ 32 < (fieldN h).toNat then some .badNbits
    else none

/-- The decoder: the command at the front of a list of words (30_encoding.md R88), for an instance whose
`MAX_PKT_BYTES` is `maxPkt`. -/
def decode (maxPkt : Nat) : List Word → Decoded
  | [] => .more
  | h :: ws =>
    match headerFault h with
    | some c => .bad c
    | none =>
      match opcodeOf h with
      | none => .bad .illegalOpcode
      | some op => decodeArgs maxPkt op h ws

/-- A header word: the opcode in `[31:24]` over the 24 field bits (30_encoding.md R82). -/
def headerWord (op : Opcode) (fields : BitVec 24) : Word := op.code ++ fields

/-- The field bits of formats FM and FS: `M` in bit 23, seven reserved bits, sixteen bits (30_encoding.md R82). -/
def fieldsM16 (m : Bool) (low : BitVec 16) : BitVec 24 := BitVec.ofBool m ++ (0#7 ++ low)

/-- A LENW word (30_encoding.md R83). -/
def lenWord (len : BitVec 16) : Word := 0#16 ++ len

/-- The header word of a command (30_encoding.md R82). -/
def Instr.header : Instr → Word
  | .nop => headerWord .nop 0
  | .srst => headerWord .srst 0
  | .bpPut n _ => headerWord .bpPut (0#18 ++ n)
  | .bpFlush m => headerWord .bpFlush (BitVec.ofBool m ++ 0#23)
  | .encBegin => headerWord .encBegin 0
  | .encGob gn gq => headerWord .encGob (0#15 ++ (gq ++ gn))
  | .encMb nbits _ => headerWord .encMb (fieldsM16 false nbits)
  | .jpegFrag m seq _ _ _ _ => headerWord .jpegFrag (fieldsM16 m seq)
  | .h261Pkt m seq _ _ => headerWord .h261Pkt (fieldsM16 m seq)

/-- The argument and data words of a command (30_encoding.md R80, R83). -/
def Instr.args : Instr → List Word
  | .nop | .srst | .bpFlush _ | .encBegin | .encGob _ _ => []
  | .bpPut _ value => [value]
  | .encMb _ data => data
  | .jpegFrag _ _ ts off len data => ts :: off :: lenWord len :: data
  | .h261Pkt _ _ len data => lenWord len :: data

/-- The encoder: the words of a command, in the order the command port carries them (30_encoding.md R80). -/
def encode (i : Instr) : List Word := i.header :: i.args

/-- The length in words of the command whose first words these are (30_encoding.md R87); a LENW word not there
counts as 0, and a word outside the opcode map as a command of one word. -/
def commandLength : List Word → Nat
  | [] => 0
  | h :: ws =>
    match opcodeOf h with
    | none => 1
    | some .bpPut => 2
    | some .encMb => 1 + wordsFor 32 (fieldLow16 h).toNat
    | some .jpegFrag => 4 + wordsFor 4 (fieldLow16 (ws.getD 2 0)).toNat
    | some .h261Pkt => 2 + wordsFor 4 (fieldLow16 (ws.getD 0 0)).toNat
    | some _ => 1

/-- The words of an opcode-table word `w` of `nbits` bits, bit 0 the least significant bit of the first word: its
own words, then words of zeros up to the length its header and LENW give (30_encoding.md R87). -/
def layoutWords (nbits w : Nat) : List Word :=
  let own := (List.range (wordsFor 32 nbits)).map fun k =>
    BitVec.ofNat 32 ((w % 2 ^ nbits) >>> (32 * k))
  own ++ List.replicate (commandLength own - own.length) 0

/-- The instruction the decoder reads from an opcode-table word, in the default configuration. -/
def decodeTableWord (nbits w : Nat) : Option Instr :=
  match decode Config.default.params.maxPktBytes (layoutWords nbits w) with
  | .cmd i _ => some i
  | _ => none

/-- The pseudo-instruction `enc.end` (30_encoding.md R97). -/
def pseudoEncEnd : List Instr := [.bpFlush true]

/-- The pseudo-instruction `enc.cut` (30_encoding.md R97). -/
def pseudoEncCut : List Instr := [.bpFlush false]

/-- The pseudo-instruction `bp.zeros N` (30_encoding.md R97). -/
def pseudoBpZeros (n : BitVec 6) : List Instr := [.bpPut n 0]

/-- The pseudo-instruction `bp.put64 N, V`, for `33 <= N <= 64` (30_encoding.md R97). -/
def pseudoBpPut64 (n : Nat) (v : BitVec 64) : List Instr :=
  [.bpPut (BitVec.ofNat 6 (n - 32)) (v.extractLsb' 32 32), .bpPut 32 (v.extractLsb' 0 32)]

end Sys2Proof
end

