-- ==== Sys2Proof/Machine/State.lean ====
section
/-! DEFINITION. The state of RRF (10_state.md), as plain data; the events of the output trace; the host's pending
actions; the reasons a step stops; the state right after reset (70_reset_and_hazards.md R270). -/

namespace Sys2Proof.Machine

/-- A byte memory: (address, byte) pairs in rising address order, listing exactly the bytes that have been written
(log entry 13). -/
abbrev Memory := List Host.Cell

/-- The fault registers (10_state.md R23). -/
structure FaultRegs where
  /-- `fault`, sticky. -/
  fault : Bool
  /-- `fault_code`. -/
  code : BitVec 8
  /-- `fault_cmd`, the header word of the faulting command. -/
  cmd : Word
  /-- `fault_cp`, the value `cp` had when that header word was consumed. -/
  cp : Word
deriving DecidableEq, Repr

/-- The bit packer (10_state.md R24). -/
structure Packer where
  /-- `acc`, the accumulator, in the low `W` bits; the valid bits are the top `fill` of those (log entry 12). -/
  acc : BitVec 64
  /-- `fill`, the number of valid bits in `acc`. -/
  fill : Nat
  /-- `cursor`, the number of bytes stored into `PB`. -/
  cursor : Nat
  /-- `PB`, the packet buffer. -/
  pb : Memory
deriving DecidableEq, Repr

/-- The framer (10_state.md R25). -/
structure Framer where
  /-- `gob_valid`: a GOB is open and its header can be emitted again. -/
  gobValid : Bool
  /-- `gob_gn`, the GOB number of the most recent ENC.GOB. -/
  gobGn : BitVec 4
  /-- `gob_gq`, its quantizer. -/
  gobGq : BitVec 5
  /-- `enc_pkt_cnt`, packets emitted. -/
  pktCnt : Word
  /-- `last_bytes`, payload bytes of the last emitted packet. -/
  lastBytes : BitVec 16
  /-- `last_ebit`, its stuffing bits. -/
  lastEbit : BitVec 3
  /-- `last_m`, its marker bit. -/
  lastM : Bool
deriving DecidableEq, Repr

/-- An entry of the JPEG slot ring (10_state.md R26). -/
structure Slot where
  /-- `valid`. -/
  valid : Bool
  /-- `seq`, the sequence number of the fragment. -/
  seq : BitVec 16
  /-- `off`, its offset. -/
  off : Word
  /-- `ts`, its timestamp. -/
  ts : Word
  /-- `eof`, the length of the end-of-frame fragment; 0 means "not the end of frame". -/
  eof : BitVec 16
deriving DecidableEq, Repr

/-- A JPEG reassembly buffer (10_state.md R27). -/
structure JpegBuf where
  /-- `valid`. -/
  valid : Bool
  /-- `ts`, the timestamp of the frame it accumulates. -/
  ts : Word
  /-- `drop`: the frame is being discarded by decimation. -/
  drop : Bool
  /-- `data`. -/
  data : Memory
deriving DecidableEq, Repr

/-- The two JPEG reassembly buffers, `RB[0]` and `RB[1]`. -/
inductive BufIx where
  | rb0 | rb1
deriving DecidableEq, Repr

/-- The JPEG reassembler (10_state.md R26 to R28). -/
structure Jpeg where
  /-- `SLOT[0..63]`. -/
  slots : Vector Slot 64
  /-- `RB[0]`. -/
  rb0 : JpegBuf
  /-- `RB[1]`. -/
  rb1 : JpegBuf
  /-- `jcap`, the capacity both buffers share. -/
  jcap : Word
  /-- `badoff_cnt`. -/
  badoffCnt : Word
  /-- `huge_cnt`. -/
  hugeCnt : Word
  /-- `jframe_cnt`. -/
  jframeCnt : Word
  /-- `dec_cnt`, signed. -/
  decCnt : Word
deriving DecidableEq, Repr

/-- The fields of an RTP/H.261 payload header (43_h261_reassembler.md R191, R192). -/
structure H261Fields where
  /-- SBIT, start bits to ignore. -/
  sbit : BitVec 3
  /-- EBIT, end bits to ignore. -/
  ebit : BitVec 3
  /-- I, intra-coded data. -/
  i : Bool
  /-- V, motion vectors used. -/
  v : Bool
  /-- GOB number. -/
  gob : BitVec 4
  /-- Macroblock address predictor. -/
  mba : BitVec 5
  /-- Quantizer. -/
  quant : BitVec 5
  /-- Horizontal motion vector data. -/
  hmvd : BitVec 5
  /-- Vertical motion vector data. -/
  vmvd : BitVec 5
deriving DecidableEq, Repr

/-- A packet stored in the H.261 ring (10_state.md R29). -/
structure RingPkt where
  /-- Its sequence number. -/
  seq : BitVec 16
  /-- Its payload header word. -/
  hdr : Word
  /-- The fields parsed from `hdr` when it arrived. -/
  f : H261Fields
  /-- Its bytes after the header. -/
  payload : List Byte
deriving DecidableEq, Repr

/-- The H.261 reassembler (10_state.md R29, R30). -/
structure H261 where
  /-- `RING`: (index, packet) pairs in rising index order; an index not listed is `empty` (log entry 21). -/
  ring : List (Nat × RingPkt)
  /-- `first`, signed: the sequence number at ring index 0, or -1 when no frame is open. -/
  first : Word
  /-- `last_seq`. -/
  lastSeq : BitVec 16
  /-- `last_valid`. -/
  lastValid : Bool
  /-- `rtp_bug`, the GOB/MBA interpretation toggle. -/
  rtpBug : Bool
  /-- `hframe_cnt`. -/
  hframeCnt : Word
  /-- `ovf_cnt`. -/
  ovfCnt : Word
  /-- `void_cnt`. -/
  voidCnt : Word
  /-- `runt_cnt`. -/
  runtCnt : Word
deriving DecidableEq, Repr

/-- The content of a `FrameOut.H261` event (10_state.md R33). -/
structure H261Frame where
  /-- The sequence number of ring index 0. -/
  first : Word
  /-- The number of packets. -/
  npkt : Nat
  /-- The payloads in index order. -/
  bytes : List Byte
  /-- SBIT of the packet at index 0. -/
  sbit : BitVec 3
  /-- EBIT of the marker packet. -/
  ebit : BitVec 3
  /-- I of the packet at index 0. -/
  i : Bool
  /-- V of the packet at index 0. -/
  v : Bool
  /-- GOB of the packet at index 0. -/
  gob : BitVec 4
  /-- MBA of the packet at index 0. -/
  mba : BitVec 5
  /-- QUANT of the packet at index 0. -/
  quant : BitVec 5
  /-- HMVD of the packet at index 0. -/
  hmvd : BitVec 5
  /-- VMVD of the packet at index 0. -/
  vmvd : BitVec 5
  /-- The raw header words in index order. -/
  hdrs : List Word
deriving DecidableEq, Repr

/-- An event of the output trace (10_state.md R31 to R33). -/
inductive Event where
  /-- A result word. -/
  | result (w : Word)
  /-- A packet for the transport: marker bit, stuffing bits, payload. -/
  | pktOut (m : Bool) (ebit : BitVec 3) (bytes : List Byte)
  /-- A complete JPEG frame. -/
  | frameJpeg (ts : Word) (bytes : List Byte)
  /-- A complete H.261 frame. -/
  | frameH261 (f : H261Frame)
deriving DecidableEq, Repr

/-- An action of the host on RRF's ports (44_control.md R224). -/
inductive HostAction where
  /-- A word delivered to the command port. -/
  | word (w : Word)
  /-- A CSR write. -/
  | csrWrite (addr : BitVec 8) (v : Word)
  /-- A CSR read. -/
  | csrRead (addr : BitVec 8)
deriving DecidableEq, Repr

/-- The answer of the CSR port to one read (44_control.md R222). -/
structure CsrAnswer where
  /-- The address read. -/
  addr : BitVec 8
  /-- The value answered. -/
  value : Word
deriving DecidableEq, Repr

end Sys2Proof.Machine

namespace Sys2Proof.Machine

/-- The whole machine: RRF's architectural state (10_state.md), its configuration, and the model's own record of
its ports. -/
structure State where
  /-- The configuration; no step changes it (00_scope.md R3; log entry 1). -/
  cfg : Config
  /-- `cp`, the command pointer (10_state.md R21). -/
  cp : Word
  /-- `pend`, the words of a command not yet complete, oldest first (R22; its bound: log entry 10). -/
  pend : List Word
  /-- The fault registers (R23). -/
  flt : FaultRegs
  /-- The bit packer (R24). -/
  bp : Packer
  /-- The framer (R25). -/
  enc : Framer
  /-- The JPEG reassembler (R26 to R28). -/
  jpeg : Jpeg
  /-- The H.261 reassembler (R29, R30). -/
  h261 : H261
  /-- MODEL's own: the host's actions RRF has not yet taken, oldest first (log entry 2). -/
  input : List HostAction
  /-- The output trace so far, oldest first (R31 to R35). -/
  trace : List Event
  /-- MODEL's own: the CSR port's answers so far, oldest first (log entry 2). -/
  csrOut : List CsrAnswer
  /-- MODEL's own: the resets so far; it picks the free values of unwritten bytes (log entries 5, 6). -/
  epoch : Nat
  /-- MODEL's own: the frames reported ready so far; it picks the free values of log entries 7 and 8. -/
  draws : Nat
deriving DecidableEq, Repr

/-- Why a step stops the model. No reachable state does (Safety.lean, `State.Inv`; log entry 11). -/
inductive Fault where
  /-- A store or read outside the `PKT_CAP` bytes of `PB` (20_memory.md R60), raised by the packer's memory
  accesses; 40_bitpacker.md R111 and R113 rule it out. SAFE: the model stops where the spec names no address. -/
  | outsidePacketBuffer
  /-- A store outside the `jcap` bytes of a JPEG buffer (R60), raised by the fragment copy;
  42_jpeg_reassembler.md R168 rules it out. SAFE: the model stops where the spec names no address. -/
  | outsideReassemblyBuffer
deriving DecidableEq, Repr

/-- Why a step has no meaning. -/
inductive Refusal where
  /-- An instruction the model gives no meaning, by its mnemonic. Raised by no arm: every command has its meaning.
  SAFE: nothing is claimed of a refused instruction. -/
  | notModelled (mnemonic : String)
deriving DecidableEq, Repr

/-- The fault registers after reset (10_state.md R23). -/
def FaultRegs.reset : FaultRegs := ⟨false, 0, 0, 0⟩

/-- The bit packer after reset (10_state.md R24): nothing of `PB` has been written. -/
def Packer.reset : Packer := ⟨0, 0, 0, []⟩

/-- The framer after reset (10_state.md R25). -/
def Framer.reset : Framer := ⟨false, 0, 0, 0, 0, 0, false⟩

/-- A JPEG slot after reset (10_state.md R26). -/
def Slot.reset : Slot := ⟨false, 0, 0, 0, 0⟩

/-- A JPEG buffer after reset (10_state.md R27): nothing of `data` has been written. -/
def JpegBuf.reset : JpegBuf := ⟨false, 0, false, []⟩

/-- The JPEG reassembler after reset (10_state.md R26 to R28). -/
def Jpeg.reset (cfg : Config) : Jpeg where
  slots := Vector.replicate 64 Slot.reset
  rb0 := JpegBuf.reset
  rb1 := JpegBuf.reset
  jcap := BitVec.ofNat 32 cfg.params.jpegInitCap
  badoffCnt := 0
  hugeCnt := 0
  jframeCnt := 0
  decCnt := 0

/-- The H.261 reassembler after reset (10_state.md R29, R30): `first` is -1. -/
def H261.reset : H261 := ⟨[], 0xFFFFFFFF, 0, false, false, 0, 0, 0, 0⟩

/-- RRF after power-on in configuration `cfg` (70_reset_and_hazards.md R270), its ports still unused. -/
def State.powerOn (cfg : Config) : State where
  cfg := cfg
  cp := 0
  pend := []
  flt := FaultRegs.reset
  bp := Packer.reset
  enc := Framer.reset
  jpeg := Jpeg.reset cfg
  h261 := H261.reset
  input := []
  trace := []
  csrOut := []
  epoch := 0
  draws := 0

/-- The machine right after reset, in the default configuration of 00_scope.md R3. -/
def State.reset : State := State.powerOn Config.default

end Sys2Proof.Machine
end

