-- ==== Sys2Proof/Machine/Flags.lean ====
section
/-! DEFINITION. RRF has no arithmetic flags (10_state.md R20). What a command reports stands here: the result codes
and the result word (10_state.md R31, R34), the fault codes (60_exceptions.md R240), and the conditions the commands
test. -/

namespace Sys2Proof.Machine

/-- The result codes (10_state.md R34). -/
inductive ResultCode where
  | ok | notReady | frameReady | dropBadOffset | dropHuge | dropDecimated | frameVoid | ringOverflow
  | dropRunt | pktSent | mbOk | mbRetry | mbTooLarge | gobOk | gobSplit | fault
deriving DecidableEq, Repr

/-- The numbers of the result codes (10_state.md R34). -/
def ResultCode.code : ResultCode → BitVec 8
  | .ok => 0x00
  | .notReady => 0x01
  | .frameReady => 0x02
  | .dropBadOffset => 0x03
  | .dropHuge => 0x04
  | .dropDecimated => 0x05
  | .frameVoid => 0x06
  | .ringOverflow => 0x07
  | .dropRunt => 0x08
  | .pktSent => 0x09
  | .mbOk => 0x0A
  | .mbRetry => 0x0B
  | .mbTooLarge => 0x0C
  | .gobOk => 0x0D
  | .gobSplit => 0x0E
  | .fault => 0xFF

/-- A result word: `[31:24]` the code, `[23:0]` the value (10_state.md R31). -/
def resultWord (c : ResultCode) (value : BitVec 24) : Word := c.code ++ value

end Sys2Proof.Machine

namespace Sys2Proof

/-- The numbers of the fault codes (60_exceptions.md R240). -/
def FaultCode.code : FaultCode → BitVec 8
  | .illegalOpcode => 0x01
  | .reservedNonzero => 0x02
  | .badNbits => 0x03
  | .badLength => 0x04
  | .bpOverflow => 0x05

end Sys2Proof

namespace Sys2Proof.Machine

/-- `cursor * 8 + fill`, the bits of the current packet (10_state.md R24, R42). -/
def Packer.bitCount (p : Packer) : Nat := p.cursor * 8 + p.fill

/-- `n` more bits would pass the payload limit `L` (40_bitpacker.md R112, 41_framer.md R135: strictly greater). -/
def exceedsLimit (cfg : Config) (count n : Nat) : Bool := decide (cfg.limitBits < count + n)

/-- `a` is circularly older than `b` (00_scope.md glossary, 42_jpeg_reassembler.md R165): `sint32((a - b) mod 2^32)`
is negative. At exactly 2^31 apart the difference is -2^31, so each is circularly older than the other: the model
follows the pseudocode of R165 and not its prose (log entry 24). -/
def circularlyOlder (a b : Word) : Bool := decide ((a - b).toInt < 0)

/-- `|last_seq - SEQ| > GAP` as a difference of integers, with no wrap (43_h261_reassembler.md R195). -/
def isGap (gap : Nat) (lastSeq seq : BitVec 16) : Bool :=
  decide (gap < ((lastSeq.toNat : Int) - (seq.toNat : Int)).natAbs)

/-- `first` as the integer it stands for is -1: no frame is open (10_state.md R30). -/
def noFrameOpen (h : H261) : Bool := h.first == 0xFFFFFFFF

end Sys2Proof.Machine
end

