-- ==== Sys2Proof/Machine/Ops.lean ====
section
/-! DEFINITION. The named operations every meaning uses: reading and writing sparse memories, appending events,
entering the fault state (60_exceptions.md R241), and leaving it, which is the reset (R245;
70_reset_and_hazards.md R270). -/

namespace Sys2Proof.Machine

/-- What a sparse table holds at a key, if it lists it. -/
def tableGet {α : Type} (m : List (Nat × α)) (k : Nat) : Option α :=
  match m with
  | [] => none
  | (a, v) :: rest => if a = k then some v else if k < a then none else tableGet rest k

/-- The table with `v` at key `k`, its keys still rising (log entry 13). -/
def tableSet {α : Type} (m : List (Nat × α)) (k : Nat) (v : α) : List (Nat × α) :=
  match m with
  | [] => [(k, v)]
  | (a, u) :: rest =>
    if k < a then (k, v) :: (a, u) :: rest
    else if k = a then (k, v) :: rest
    else (a, u) :: tableSet rest k v

/-- The canonical form of a sparse table: keys strictly rising, so that equal tables are equal lists. No entry can
equal what an unlisted key reads as, which is no value. -/
abbrev Rising {α : Type} (m : List (Nat × α)) : Prop := m.Pairwise fun x y => x.1 < y.1

/-- The canonical form of a memory. -/
abbrev Memory.wf (m : Memory) : Prop := Rising m

/-- The byte at an address, if it has been written. -/
def Memory.read (m : Memory) (a : Nat) : Option Byte := tableGet m a

/-- One byte written. -/
def Memory.write (m : Memory) (a : Nat) (b : Byte) : Memory := tableSet m a b

/-- Bytes written at rising addresses from `a` (`MemWrite`, 00_scope.md R8). -/
def Memory.writeBytes (m : Memory) (a : Nat) : List Byte → Memory
  | [] => m
  | b :: bs => Memory.writeBytes (Memory.write m a b) (a + 1) bs

/-- The `n` bytes from address 0 (`MemRead`, 00_scope.md R8), a byte nothing has written being `unwritten` of its
address. -/
def Memory.readFront (unwritten : Nat → Byte) (m : Memory) (n : Nat) : List Byte :=
  (List.range n).map fun a => (Memory.read m a).getD (unwritten a)

/-- Appends one event to the output trace (00_scope.md R8 `emit`; 10_state.md R35). -/
def emit (e : Event) (s : State) : State := { s with trace := s.trace ++ [e] }

/-- Appends the result word of a command (10_state.md R31). -/
def emitResult (c : ResultCode) (value : BitVec 24) (s : State) : State :=
  emit (.result (resultWord c value)) s

/-- Appends a result word whose value field is a count. -/
def emitCount (c : ResultCode) (n : Nat) (s : State) : State := emitResult c (BitVec.ofNat 24 n) s

/-- Fault entry (60_exceptions.md R241): the fault registers are written, `pend` is emptied, and the one result word
is appended. `hdr` is the faulting command's header word and `p0` the value `cp` had when it was consumed. -/
def raiseFault (c : FaultCode) (hdr p0 : Word) (s : State) : State :=
  emitResult .fault (c.code.setWidth 24)
    { s with flt := ⟨true, c.code, hdr, p0⟩, pend := [] }

/-- The reset action (70_reset_and_hazards.md R270), the only exit from the fault state (60_exceptions.md R245):
every element of RRF's state takes its reset value. The configuration, the trace and the host's pending actions are no
state of RRF and stay (log entry 16); unwritten bytes are drawn anew. -/
def performReset (s : State) : State :=
  { s with
    cp := 0
    pend := []
    flt := FaultRegs.reset
    bp := Packer.reset
    enc := Framer.reset
    jpeg := Jpeg.reset s.cfg
    h261 := H261.reset
    epoch := s.epoch + 1 }

end Sys2Proof.Machine
end

