-- ==== Sys2Proof/Machine/Csr.lean ====
section
/-! DEFINITION. The control and status registers (10_state.md R36 to R59) and the CSR port's read and write
(44_control.md R222, R223). Every register is a view of the state; none has storage. -/

namespace Sys2Proof.Machine

/-- A flag as a word: bit `k` set or clear. -/
def flagBit (b : Bool) (k : Nat) : Word := if b then BitVec.twoPow 32 k else 0

/-- `STATUS` (10_state.md R37): `CMD_PARTIAL` is 1 while words of a command are pending (R22; log entry 23). -/
def statusWord (s : State) : Word :=
  flagBit s.flt.fault 0 ||| s.flt.code.setWidth 32 <<< 8 ||| flagBit s.h261.rtpBug 16 |||
    flagBit (!noFrameOpen s.h261) 17 ||| flagBit s.h261.lastValid 18 ||| flagBit s.enc.gobValid 19 |||
    flagBit (!s.pend.isEmpty) 20

/-- `ENC_GOB` (10_state.md R43): GN in `[3:0]`, GQUANT in `[8:4]`. -/
def encGobWord (e : Framer) : Word := e.gobGn.setWidth 32 ||| e.gobGq.setWidth 32 <<< 4

/-- `ENC_LAST` (10_state.md R44): BYTES in `[15:0]`, EBIT in `[18:16]`, M in `[19]`. -/
def encLastWord (e : Framer) : Word :=
  e.lastBytes.setWidth 32 ||| e.lastEbit.setWidth 32 <<< 16 ||| flagBit e.lastM 19

/-- `JPEG_RB_FLAGS` (10_state.md R58). -/
def rbFlagsWord (j : Jpeg) : Word :=
  flagBit j.rb0.valid 0 ||| flagBit j.rb0.drop 1 ||| flagBit j.rb1.valid 2 ||| flagBit j.rb1.drop 3

/-- What a CSR read of an address returns (10_state.md R37 to R59, 44_control.md R222): 0 for `CTRL` (address 4) and
for an unmapped address. Only `CMD_PTR` and `CMD_PARTIAL` see a partly received command, and only `CMD_PTR` the words
discarded in the fault state; such words change nothing else (10_state.md R21, R22; 30_encoding.md R95; log entry 23). -/
def csrValue (s : State) (addr : BitVec 8) : Word :=
  match addr.toNat with
  | 0x00 => statusWord s
  | 0x01 => s.flt.cmd
  | 0x02 => s.flt.cp
  | 0x03 => s.cp
  | 0x08 => BitVec.ofNat 32 s.bp.bitCount
  | 0x09 => encGobWord s.enc
  | 0x0A => encLastWord s.enc
  | 0x0B => s.enc.pktCnt
  | 0x10 => s.h261.first
  | 0x11 => s.h261.lastSeq.setWidth 32
  | 0x12 => s.h261.hframeCnt
  | 0x13 => s.h261.ovfCnt
  | 0x14 => s.h261.voidCnt
  | 0x15 => s.h261.runtCnt
  | 0x20 => s.jpeg.badoffCnt
  | 0x21 => s.jpeg.hugeCnt
  | 0x22 => s.jpeg.jframeCnt
  | 0x23 => s.jpeg.jcap
  | 0x24 => s.jpeg.decCnt
  | 0x25 => s.jpeg.rb0.ts
  | 0x26 => s.jpeg.rb1.ts
  | 0x27 => rbFlagsWord s.jpeg
  | 0x30 => BitVec.ofNat 32 s.cfg.params.w
  | 0x31 => BitVec.ofNat 32 s.cfg.params.mtu
  | 0x32 => BitVec.ofNat 32 s.cfg.params.hdrBytes
  | 0x33 => BitVec.ofNat 32 s.cfg.params.gap
  | 0x34 => BitVec.ofNat 32 s.cfg.params.ringSize
  | 0x35 => BitVec.ofNat 32 s.cfg.params.jpegMax
  | 0x36 => BitVec.ofNat 32 s.cfg.params.jpegInitCap
  | 0x37 => BitVec.ofNat 32 s.cfg.params.decimate
  | 0x38 => BitVec.ofNat 32 s.cfg.params.maxPktBytes
  | _ => 0

/-- The address of `CTRL` (10_state.md R41). -/
def ctrlAddr : BitVec 8 := 0x04

/-- A CSR read (44_control.md R222; log entry 23): the value goes back to the host, and RRF does not change. -/
def csrRead (addr : BitVec 8) (s : State) : State :=
  { s with csrOut := s.csrOut ++ [⟨addr, csrValue s addr⟩] }

/-- A CSR write (44_control.md R223): `CTRL` with bit 0 set performs the reset; every other write is ignored. -/
def csrWrite (addr : BitVec 8) (v : Word) (s : State) : State :=
  if addr = ctrlAddr ∧ v.getLsbD 0 = true then performReset s else s

end Sys2Proof.Machine
end

