-- ==== Sys2Proof/Machine/Operands.lean ====
section
/-! DEFINITION. How a command's words give its operands: payload bytes (30_encoding.md R84), the macroblock bit
string (R85), the signed offset (R86), slot numbers (42_jpeg_reassembler.md R164), and the RTP/H.261 payload header
(43_h261_reassembler.md R191 to R193; 20_memory.md R64). -/

namespace Sys2Proof.Machine

/-- The four bytes of a data word, most significant first (20_memory.md R62). -/
def wordBytes (w : Word) : List Byte :=
  [w.extractLsb' 24 8, w.extractLsb' 16 8, w.extractLsb' 8 8, w.extractLsb' 0 8]

/-- The payload `P[0..LEN-1]`: the first `LEN` bytes of the data words; the padding bytes after them are ignored
(30_encoding.md R84). -/
def payloadBytes (len : BitVec 16) (data : List Word) : List Byte :=
  (data.flatMap wordBytes).take len.toNat

/-- The offset of a JPEG fragment as a signed integer, `sint32(word 2)` (30_encoding.md R86). -/
def offsetOf (off : Word) : Int := off.toInt

/-- A number `& 63`: its place in the ring of 64 slots (42_jpeg_reassembler.md R164, R169). -/
def slotIx (n : Nat) : Fin 64 := ⟨n % 64, Nat.mod_lt _ (by decide)⟩

/-- `SEQ & 63`, the slot of a sequence number (42_jpeg_reassembler.md R164). -/
def slotOf (seq : BitVec 16) : Fin 64 := slotIx seq.toNat

/-- The slot at a place of the ring. -/
def slotAt (slots : Vector Slot 64) (k : Fin 64) : Slot := slots[k]

/-- The ring with the slot at one place replaced. -/
def putSlot (slots : Vector Slot 64) (k : Fin 64) (t : Slot) : Vector Slot 64 := slots.set k t

/-- The payload header word of an H.261 packet and the bytes after it: the first four payload bytes read big-endian
(20_memory.md R64), `none` where there are fewer than four. -/
def splitHeader (p : List Byte) : Option (Word × List Byte) :=
  match p with
  | p0 :: p1 :: p2 :: p3 :: rest => some (p0 ++ (p1 ++ (p2 ++ p3)), rest)
  | _ => none

/-- The payload header layout `std` (43_h261_reassembler.md R192): GOB in `[23:20]`, MBA in `[19:15]`. -/
def stdFields (hdr : Word) : H261Fields where
  sbit := hdr.extractLsb' 29 3
  ebit := hdr.extractLsb' 26 3
  i := hdr.getLsbD 25
  v := hdr.getLsbD 24
  gob := hdr.extractLsb' 20 4
  mba := hdr.extractLsb' 15 5
  quant := hdr.extractLsb' 10 5
  hmvd := hdr.extractLsb' 5 5
  vmvd := hdr.extractLsb' 0 5

/-- The swapped layout `swp` (43_h261_reassembler.md R193): MBA in `[23:19]`, GOB in `[18:15]`. -/
def swpFields (hdr : Word) : H261Fields :=
  { stdFields hdr with
    mba := hdr.extractLsb' 19 5
    gob := hdr.extractLsb' 15 4 }

/-- The header is read by the layout `rtpBug` names, and if its GOB number is above `GOB_MAX` by the other one, the
toggle flipped (43_h261_reassembler.md R191). Answers the fields and the toggle after. -/
def parseHeader (rtpBug : Bool) (hdr : Word) : H261Fields × Bool :=
  if rtpBug then
    if gobMax < (swpFields hdr).gob.toNat then (stdFields hdr, false) else (swpFields hdr, true)
  else
    if gobMax < (stdFields hdr).gob.toNat then (swpFields hdr, true) else (stdFields hdr, false)

end Sys2Proof.Machine
end

