-- ==== Sys2Proof/Machine/BitPacker.lean ====
section
/-! DEFINITION. The bit packer (40_bitpacker.md): its primitives `put`, `flush` and `send`, which the framer also
uses, and the commands BP.PUT and BP.FLUSH. -/

namespace Sys2Proof.Machine

/-- A value kept in the low `w` bits of the 64-bit accumulator. -/
def keepBits (w : Nat) (x : BitVec 64) : BitVec 64 := (x.setWidth w).setWidth 64

/-- Byte `i` of a `w`-bit word, most significant first (20_memory.md R63). -/
def accByte (w : Nat) (acc : BitVec 64) (i : Nat) : Byte := (acc >>> (w - 8 * (i + 1))).setWidth 8

/-- The first `k` bytes of a `w`-bit word, most significant first. -/
def accBytes (w : Nat) (acc : BitVec 64) (k : Nat) : List Byte := (List.range k).map (accByte w acc)

/-- Bytes stored into `PB` at `cursor` (`MemWrite(PB, cursor, ...)`), inside its `PKT_CAP` bytes. -/
def storePb (cfg : Config) (bytes : List Byte) (p : Packer) : Except Fault Packer :=
  if p.cursor + bytes.length ≤ cfg.pktCap then
    .ok { p with pb := p.pb.writeBytes p.cursor bytes }
  else .error .outsidePacketBuffer

/-- The first `n` bytes of `PB` (`MemRead(PB, 0, n)`), inside its `PKT_CAP` bytes. -/
def readPb (cfg : Config) (epoch n : Nat) (p : Packer) : Except Fault (List Byte) :=
  if n ≤ cfg.pktCap then .ok (p.pb.readFront (Config.unwrittenPb epoch) n)
  else .error .outsidePacketBuffer

/-- `put(v, n)`: appends the low `n` bits of `v`, most significant first (40_bitpacker.md R110). A word that is
exactly full is stored by a later `put` or by `flush`. -/
def put (cfg : Config) (v : Word) (n : Nat) (p : Packer) : Except Fault Packer :=
  if n = 0 then .ok p
  else
    let c := keepBits n (v.setWidth 64)
    if p.fill + n ≤ cfg.w then
      .ok { p with acc := p.acc ||| c <<< (cfg.w - p.fill - n), fill := p.fill + n }
    else
      let extra := p.fill + n - cfg.w
      match storePb cfg (accBytes cfg.w (p.acc ||| c >>> extra) (cfg.w / 8)) p with
      | .error f => .error f
      | .ok p =>
        .ok { p with
          cursor := p.cursor + cfg.w / 8
          acc := keepBits cfg.w (c <<< (cfg.w - extra))
          fill := extra }

/-- The payload bytes of the packet if it ended now: `cursor + ceil(fill / 8)` (40_bitpacker.md R114). -/
def Packer.byteCount (p : Packer) : Nat := p.cursor + (p.fill + 7) / 8

/-- The stuffing bits of the packet if it ended now: `nbytes * 8 - (cursor * 8 + fill)` (40_bitpacker.md R114). -/
def Packer.stuffing (p : Packer) : Nat := p.byteCount * 8 - p.bitCount

/-- `flush()`: stores the bytes of the accumulator that hold bits (40_bitpacker.md R114). -/
def flush (cfg : Config) (p : Packer) : Except Fault Packer :=
  storePb cfg (accBytes cfg.w p.acc ((p.fill + 7) / 8)) p

/-- The packer with an empty packet; what `PB` holds stays (40_bitpacker.md R115). -/
def Packer.fresh (p : Packer) : Packer := { p with acc := 0, fill := 0, cursor := 0 }

/-- `send(m)`: ends the packet, emits it, records it, and starts an empty one (40_bitpacker.md R115). Answers the
payload bytes and the state after. -/
def send (m : Bool) (s : State) : Except Fault (Nat × State) :=
  let nbytes := s.bp.byteCount
  let ebit := BitVec.ofNat 3 s.bp.stuffing
  match flush s.cfg s.bp with
  | .error f => .error f
  | .ok bp =>
    match readPb s.cfg s.epoch nbytes bp with
    | .error f => .error f
    | .ok bytes =>
      .ok (nbytes,
        { emit (.pktOut m ebit bytes) s with
          bp := bp.fresh
          enc := { s.enc with
            pktCnt := s.enc.pktCnt + 1
            lastBytes := BitVec.ofNat 16 nbytes
            lastEbit := ebit
            lastM := m } })

/-- BP.PUT (40_bitpacker.md R112): appends a code, or raises BP_OVERFLOW where it would not fit the packet. The
command's header word was consumed two words before `cp` (60_exceptions.md R241; log entry 18). -/
def execBpPut (n : BitVec 6) (value : Word) (s : State) : Host.Outcome State Fault Refusal :=
  if exceedsLimit s.cfg s.bp.bitCount n.toNat then
    .next (raiseFault .bpOverflow (Instr.bpPut n value).header (s.cp - 2) s)
  else
    match put s.cfg value n.toNat s.bp with
    | .error f => .fault f
    | .ok bp => .next (emitCount .ok bp.bitCount { s with bp := bp })

/-- BP.FLUSH (40_bitpacker.md R116): ends the packet with marker bit `M`; with `M = 1` the frame is over and no GOB
header is emitted again. -/
def execBpFlush (m : Bool) (s : State) : Host.Outcome State Fault Refusal :=
  match send m s with
  | .error f => .fault f
  | .ok (nb, s) =>
    .next (emitCount .pktSent nb
      { s with enc := { s.enc with gobValid := if m then false else s.enc.gobValid } })

end Sys2Proof.Machine
end

