-- ==== Sys2Proof/Machine/Control.lean ====
section
/-! DEFINITION. The control commands NOP and SRST (44_control.md R220, R221). -/

namespace Sys2Proof.Machine

/-- NOP (44_control.md R220): a result word and nothing else. -/
def execNop (s : State) : Host.Outcome State Fault Refusal := .next (emitResult .ok 0 s)

/-- SRST (44_control.md R221): the reset, `cp` counting the SRST word itself, and the result OK. -/
def execSrst (s : State) : Host.Outcome State Fault Refusal :=
  .next (emitResult .ok 0 { performReset s with cp := 1 })

end Sys2Proof.Machine
end

