-- ==== Sys2Proof/Machine/Framer.lean ====
section
/-! DEFINITION. The framer and macroblock packet fragmenter (41_framer.md): the GOB header, and the commands
ENC.BEGIN, ENC.GOB and ENC.MB. -/

namespace Sys2Proof.Machine

/-- The codes of a GOB header, each with its length in bits: GBSC, GN, GQUANT, GEI (41_framer.md R130). -/
def gobHdrCodes (gn : BitVec 4) (gq : BitVec 5) : List (Word × Nat) :=
  [(0x0001, 16), (gn.setWidth 32, 4), (gq.setWidth 32, 5), (0, 1)]

/-- The codes of a list appended in order by `put`. -/
def putCodes (cfg : Config) : List (Word × Nat) → Packer → Except Fault Packer
  | [], p => .ok p
  | (v, n) :: rest, p =>
    match put cfg v n p with
    | .error f => .error f
    | .ok p => putCodes cfg rest p

/-- `gob_hdr()`: appends the 26-bit GOB header of `gob_gn` and `gob_gq` (41_framer.md R130). -/
def gobHdr (s : State) : Except Fault State :=
  match putCodes s.cfg (gobHdrCodes s.enc.gobGn s.enc.gobGq) s.bp with
  | .error f => .error f
  | .ok bp => .ok { s with bp := bp }

/-- The codes of a macroblock's bit string of `n` bits: its data words, each shifted down to the bits it carries, the
padding of the last one left out (41_framer.md R137; 30_encoding.md R85). -/
def mbCodes : Nat → List Word → List (Word × Nat)
  | _, [] => []
  | n, d :: ds => (d >>> (32 - min 32 n), min 32 n) :: mbCodes (n - 32) ds

/-- `g`: the bits a fresh packet holds after an overflow, the re-emitted GOB header or nothing (41_framer.md R132). -/
def reemitBits (e : Framer) : Nat := if e.gobValid then gobHdrBits else 0

/-- ENC.BEGIN (41_framer.md R131): the bits not yet sent are dropped and no GOB is open. -/
def execEncBegin (s : State) : Host.Outcome State Fault Refusal :=
  .next (emitResult .ok 0
    { s with
      bp := s.bp.fresh
      enc := { s.enc with gobValid := false, gobGn := 0, gobGq := 0 } })

/-- Opens a GOB: its number and quantizer are kept, its header is appended (41_framer.md R133). -/
def openGob (gn : BitVec 4) (gq : BitVec 5) (s : State) : Except Fault State :=
  gobHdr { s with enc := { s.enc with gobGn := gn, gobGq := gq, gobValid := true } }

/-- ENC.GOB (41_framer.md R133): the header in this packet, or in a fresh one where it would not fit. -/
def execEncGob (gn : BitVec 4) (gq : BitVec 5) (s : State) : Host.Outcome State Fault Refusal :=
  if exceedsLimit s.cfg s.bp.bitCount gobHdrBits then
    match send false s with
    | .error f => .fault f
    | .ok (nb, s) =>
      match openGob gn gq s with
      | .error f => .fault f
      | .ok s => .next (emitCount .gobSplit nb s)
  else
    match openGob gn gq s with
    | .error f => .fault f
    | .ok s => .next (emitCount .gobOk s.bp.bitCount s)

/-- ENC.MB (41_framer.md R137): the macroblock is appended where it fits; it is reported too large where no packet
holds it; else the packet is sent, the GOB header emitted again, and the host asked to retry. -/
def execEncMb (nbits : BitVec 16) (data : List Word) (s : State) : Host.Outcome State Fault Refusal :=
  if exceedsLimit s.cfg s.bp.bitCount nbits.toNat then
    if exceedsLimit s.cfg (reemitBits s.enc) nbits.toNat then
      .next (emitCount .mbTooLarge nbits.toNat s)
    else
      match send false s with
      | .error f => .fault f
      | .ok (nb, s) =>
        match (if s.enc.gobValid then gobHdr s else .ok s) with
        | .error f => .fault f
        | .ok s => .next (emitCount .mbRetry nb s)
  else
    match putCodes s.cfg (mbCodes nbits.toNat data) s.bp with
    | .error f => .fault f
    | .ok bp => .next (emitCount .mbOk bp.bitCount { s with bp := bp })

end Sys2Proof.Machine
end

