-- ==== Sys2Proof/Machine/Jpeg.lean ====
section
/-! DEFINITION. The JPEG frame reassembler (42_jpeg_reassembler.md): the nine steps of JPEG.FRAG (R161), each an
operation of its own, and the command. -/

namespace Sys2Proof.Machine

/-- The buffer `RB[b]`. -/
def Jpeg.rb (j : Jpeg) : BufIx → JpegBuf
  | .rb0 => j.rb0
  | .rb1 => j.rb1

/-- The reassembler with buffer `RB[b]` replaced. -/
def Jpeg.setRb (j : Jpeg) (b : BufIx) (x : JpegBuf) : Jpeg :=
  match b with
  | .rb0 => { j with rb0 := x }
  | .rb1 => { j with rb1 := x }

/-- The number of a buffer. -/
def BufIx.num : BufIx → Nat
  | .rb0 => 0
  | .rb1 => 1

/-- `jcap * 2^k` for the least `k >= 1` with `jcap * 2^k >= end`, looking at `tries` values of `k` (42_jpeg_reassembler.md
R163). -/
def doubled (cap finish : Nat) : (tries : Nat) → Nat
  | 0 => cap
  | tries + 1 => if finish ≤ 2 * cap then 2 * cap else doubled (2 * cap) finish tries

/-- `grow(end)` (42_jpeg_reassembler.md R163): the shared capacity doubles until `end` fits; the bytes stay. Since
`1 <= jcap` and `end <= JPEG_MAX < 2^24`, twenty-four doublings are enough (log entry 22). -/
def grow (finish : Nat) (j : Jpeg) : Jpeg :=
  { j with jcap := BitVec.ofNat 32 (doubled j.jcap.toNat finish 24) }

/-- Step 3 (42_jpeg_reassembler.md R164): the fragment is recorded in slot `SEQ & 63`; the slot's `eof` stays. -/
def recordSlot (seq : BitVec 16) (off ts : Word) (j : Jpeg) : Jpeg :=
  let k := slotOf seq
  { j with slots := putSlot j.slots k { slotAt j.slots k with valid := true, seq := seq, off := off, ts := ts } }

/-- `decimate(b)` (42_jpeg_reassembler.md R166; log entry 17): of every `DECIMATE` new frames one is kept. -/
def decimate (n : Nat) (b : BufIx) (j : Jpeg) : Jpeg :=
  if n = 0 then j
  else if j.decCnt.toInt - 1 ≤ 0 then { j with decCnt := BitVec.ofNat 32 n }
  else { j with decCnt := j.decCnt - 1 }.setRb b { j.rb b with drop := true }

/-- The buffer a new timestamp takes: an invalid one, else the circularly older (42_jpeg_reassembler.md R165); with
both valid and exactly 2^31 apart, `RB[0]` (log entry 24). -/
def evictee (j : Jpeg) : BufIx :=
  if !j.rb0.valid then .rb0
  else if !j.rb1.valid then .rb1
  else if circularlyOlder j.rb0.ts j.rb1.ts then .rb0
  else .rb1

/-- Buffer `b` taken for a new timestamp: its bytes are not cleared (42_jpeg_reassembler.md R165). -/
def claim (b : BufIx) (ts : Word) (j : Jpeg) : Jpeg :=
  j.setRb b { j.rb b with valid := true, ts := ts, drop := false }

/-- Step 4, `select(TS)` (42_jpeg_reassembler.md R165): the buffer of this timestamp, or one taken for it. -/
def select (decimation : Nat) (ts : Word) (j : Jpeg) : BufIx × Jpeg :=
  if j.rb0.valid && j.rb0.ts == ts then (.rb0, j)
  else if j.rb1.valid && j.rb1.ts == ts then (.rb1, j)
  else (evictee j, decimate decimation (evictee j) (claim (evictee j) ts j))

/-- Step 6 (42_jpeg_reassembler.md R168): the payload is copied to `RB[b].data` at `OFF`, inside the capacity. -/
def copyFragment (b : BufIx) (off : Nat) (bytes : List Byte) (j : Jpeg) : Except Fault Jpeg :=
  if off + bytes.length ≤ j.jcap.toNat then
    .ok (j.setRb b { j.rb b with data := (j.rb b).data.writeBytes off bytes })
  else .error .outsideReassemblyBuffer

/-- The forward scan of step 7 (42_jpeg_reassembler.md R169) over `tries` slots from slot `k`: the total length the
first end-of-frame slot gives; it stops at an invalid slot and at another timestamp. -/
def scanForward (slots : Vector Slot 64) (ts : Word) (k : Nat) : (tries : Nat) → Option Nat
  | 0 => none
  | tries + 1 =>
    let t := slotAt slots (slotIx k)
    if !t.valid || t.ts != ts then none
    else if t.eof != 0 then some (t.off.toNat + t.eof.toNat)
    else scanForward slots ts (k + 1) tries

/-- The slot's end-of-frame length written (42_jpeg_reassembler.md R169). -/
def setEof (k : Fin 64) (eof : BitVec 16) (j : Jpeg) : Jpeg :=
  { j with slots := putSlot j.slots k { slotAt j.slots k with eof := eof } }

/-- Step 7, `target` (42_jpeg_reassembler.md R169): the frame's total length, if it is known. -/
def target (k : Fin 64) (m : Bool) (off : Nat) (len : BitVec 16) (ts : Word) (j : Jpeg) : Option Nat × Jpeg :=
  if m then (some (off + len.toNat), setEof k len j)
  else (scanForward (setEof k 0 j).slots ts (k + 1) 63, setEof k 0 j)

/-- The backward scan of step 8 (42_jpeg_reassembler.md R170) over `tries` slots from sequence number `x`: every slot
holds this timestamp and the next lower sequence number, down to offset 0. -/
def scanBackward (slots : Vector Slot 64) (ts : Word) (x : BitVec 16) : (tries : Nat) → Bool
  | 0 => false
  | tries + 1 =>
    let t := slotAt slots (slotOf x)
    if !t.valid || t.ts != ts || t.seq != x then false
    else if t.off == 0 then true
    else scanBackward slots ts (x - 1) tries

/-- Step 8, `complete(SEQ, TS)` (42_jpeg_reassembler.md R170). -/
def complete (seq : BitVec 16) (ts : Word) (j : Jpeg) : Bool := scanBackward j.slots ts seq 64

/-- The first `total` bytes of `RB[b].data` (42_jpeg_reassembler.md R171, R172): bytes nothing has written, and bytes
beyond the capacity, are free values (log entries 5, 7). -/
def frameBytes (epoch draw : Nat) (b : BufIx) (total : Nat) (j : Jpeg) : List Byte :=
  (j.rb b).data.readFront
    (fun a => if a < j.jcap.toNat then Config.unwrittenRb epoch b.num a else Config.beyondCapacity draw a)
    total

/-- The value field of a FRAME_READY result: the frame's length, a free value where it needs more than 24 bits (log
entry 8). -/
def lengthField (draw n : Nat) : BitVec 24 :=
  if n < 2 ^ 24 then BitVec.ofNat 24 n else Config.wideLength draw n

/-- A frame handed out: its event, then the result word FRAME_READY with its length (10_state.md R35). -/
def emitFrame (e : Event) (n : Nat) (s : State) : State :=
  { emitResult .frameReady (lengthField s.draws n) (emit e s) with draws := s.draws + 1 }

/-- Steps 7 to 9 (42_jpeg_reassembler.md R169 to R171), after the fragment was copied into buffer `b`. -/
def assembleFrame (b : BufIx) (m : Bool) (seq : BitVec 16) (ts : Word) (off : Nat) (len : BitVec 16) (s : State) :
    State :=
  match target (slotOf seq) m off len ts s.jpeg with
  | (none, j) => emitResult .notReady 0 { s with jpeg := j }
  | (some total, j) =>
    if complete seq ts j then
      emitFrame (.frameJpeg ts (frameBytes s.epoch s.draws b total j)) total
        { s with jpeg := { j with jframeCnt := j.jframeCnt + 1 } }
    else emitResult .notReady 0 { s with jpeg := j }

/-- Step 2 where the fragment is not dropped (42_jpeg_reassembler.md R163): grow if its end passes the capacity. -/
def growFor (finish : Nat) (j : Jpeg) : Jpeg :=
  if j.jcap.toNat < finish then grow finish j else j

/-- Steps 3 to 9 (42_jpeg_reassembler.md R164 to R171), for a fragment at offset `off` that steps 1 and 2 let
through. -/
def acceptFragment (m : Bool) (seq : BitVec 16) (ts off : Word) (len : BitVec 16) (bytes : List Byte) (s : State) :
    Host.Outcome State Fault Refusal :=
  match select s.cfg.params.decimate ts (recordSlot seq off ts s.jpeg) with
  | (b, j) =>
    if (j.rb b).drop then .next (emitResult .dropDecimated 0 { s with jpeg := j })
    else
      match copyFragment b off.toNat bytes j with
      | .error f => .fault f
      | .ok j => .next (assembleFrame b m seq ts off.toNat len { s with jpeg := j })

/-- JPEG.FRAG (42_jpeg_reassembler.md R161 to R163): a negative offset is dropped; a fragment that would need growth
past `JPEG_MAX` is dropped; every other one goes on to step 3. -/
def execJpegFrag (m : Bool) (seq : BitVec 16) (ts off : Word) (len : BitVec 16) (data : List Word) (s : State) :
    Host.Outcome State Fault Refusal :=
  if offsetOf off < 0 then
    .next (emitResult .dropBadOffset 0 { s with jpeg := { s.jpeg with badoffCnt := s.jpeg.badoffCnt + 1 } })
  else if s.jpeg.jcap.toNat < off.toNat + len.toNat ∧ s.cfg.params.jpegMax < off.toNat + len.toNat then
    .next (emitResult .dropHuge 0 { s with jpeg := { s.jpeg with hugeCnt := s.jpeg.hugeCnt + 1 } })
  else
    acceptFragment m seq ts off len (payloadBytes len data)
      { s with jpeg := growFor (off.toNat + len.toNat) s.jpeg }

end Sys2Proof.Machine
end

