-- ==== Sys2Proof/Machine/H261.lean ====
section
/-! DEFINITION. The H.261 packet reassembler (43_h261_reassembler.md): the steps of H261.PKT (R190) and the
command. -/

namespace Sys2Proof.Machine

/-- `first` as a word: a sequence number, 0..65535 (10_state.md R30). -/
def firstOf (seq : BitVec 16) : Word := seq.setWidth 32

/-- The H.261 reassembler with no frame open and an empty ring (43_h261_reassembler.md R197, R198). -/
def closeFrame (h : H261) : H261 := { h with ring := [], first := 0xFFFFFFFF }

/-- Frame start (43_h261_reassembler.md R195): a first packet or a gap clears the ring and opens a frame here; with
no frame open one opens here; the packet becomes the latest. -/
def frameStart (gap : Nat) (seq : BitVec 16) (h : H261) : H261 :=
  let h :=
    if !h.lastValid || isGap gap h.lastSeq seq then { h with ring := [], first := firstOf seq }
    else if noFrameOpen h then { h with first := firstOf seq }
    else h
  { h with lastSeq := seq, lastValid := true }

/-- The ring index of a packet (43_h261_reassembler.md R196), with the wrap by `0xFFFF` of 90_conflicts.md C1. -/
def ringIndex (seq : BitVec 16) (first : Word) : Nat :=
  if first.toInt ≤ seq.toNat then ((seq.toNat : Int) - first.toInt).toNat
  else ((wrapBase : Int) - first.toInt + seq.toNat).toNat

/-- The packets at indices `0..n-1`, if every one of them is there (43_h261_reassembler.md R197). -/
def collect (ring : List (Nat × RingPkt)) : (n : Nat) → Option (List RingPkt)
  | 0 => some []
  | n + 1 =>
    match collect ring n, tableGet ring n with
    | some ps, some p => some (ps ++ [p])
    | _, _ => none

/-- The frame of the packets of a complete ring: the fields of the packet at index 0, the EBIT of the marker packet
(43_h261_reassembler.md R197; 10_state.md R33). -/
def frameOf (first : Word) (p0 last : RingPkt) (ps : List RingPkt) : H261Frame where
  first := first
  npkt := ps.length
  bytes := ps.flatMap (·.payload)
  sbit := p0.f.sbit
  ebit := last.f.ebit
  i := p0.f.i
  v := p0.f.v
  gob := p0.f.gob
  mba := p0.f.mba
  quant := p0.f.quant
  hmvd := p0.f.hmvd
  vmvd := p0.f.vmvd
  hdrs := ps.map (·.hdr)

/-- Completion of the frame whose marker packet `last` stands at index `idx` (43_h261_reassembler.md R197, R200). -/
def completeFrame (idx : Nat) (last : RingPkt) (s : State) : State :=
  match collect s.h261.ring (idx + 1) with
  | some (p0 :: ps) =>
    emitFrame (.frameH261 (frameOf s.h261.first p0 last (p0 :: ps))) ((p0 :: ps).flatMap (·.payload)).length
      { s with h261 := { closeFrame s.h261 with hframeCnt := s.h261.hframeCnt + 1 } }
  | _ =>
    emitResult .frameVoid 0 { s with h261 := { closeFrame s.h261 with voidCnt := s.h261.voidCnt + 1 } }

/-- A packet past the ring's end (43_h261_reassembler.md R198): counted, not stored; with the marker bit the frame is
abandoned. -/
def overflowRing (m : Bool) (s : State) : State :=
  let h := { s.h261 with ovfCnt := s.h261.ovfCnt + 1 }
  if m then emitResult .ringOverflow 1 { s with h261 := closeFrame h }
  else emitResult .ringOverflow 0 { s with h261 := h }

/-- A packet stored at its index (43_h261_reassembler.md R199); a marker packet completes the frame. -/
def storePacket (m : Bool) (idx : Nat) (p : RingPkt) (s : State) : State :=
  let s := { s with h261 := { s.h261 with ring := tableSet s.h261.ring idx p } }
  if m then completeFrame idx p s else emitResult .notReady 0 s

/-- A packet with a whole payload header: frame start, index, header parse, bounds test, store
(43_h261_reassembler.md R190). -/
def acceptPacket (m : Bool) (seq : BitVec 16) (hdr : Word) (payload : List Byte) (s : State) : State :=
  let h := frameStart s.cfg.params.gap seq s.h261
  let idx := ringIndex seq h.first
  let (f, bug) := parseHeader h.rtpBug hdr
  let s := { s with h261 := { h with rtpBug := bug } }
  if s.cfg.params.ringSize ≤ idx then overflowRing m s
  else storePacket m idx ⟨seq, hdr, f, payload⟩ s

/-- H261.PKT (43_h261_reassembler.md R190, R194): a packet shorter than its payload header is a runt. -/
def execH261Pkt (m : Bool) (seq len : BitVec 16) (data : List Word) (s : State) :
    Host.Outcome State Fault Refusal :=
  match splitHeader (payloadBytes len data) with
  | none => .next (emitResult .dropRunt 0 { s with h261 := { s.h261 with runtCnt := s.h261.runtCnt + 1 } })
  | some (hdr, payload) => .next (acceptPacket m seq hdr payload s)

end Sys2Proof.Machine
end

