-- ==== Sys2Proof/Machine/Dispatch.lean ====
section
/-! DEFINITION. The meaning of every command: one arm per constructor of Instr (30_encoding.md R81). -/

namespace Sys2Proof.Machine

def exec (i : Instr) (s : State) : Host.Outcome State Fault Refusal :=
  match i with
  | .nop => Sys2Proof.Machine.execNop s
  | .srst => Sys2Proof.Machine.execSrst s
  | .bpPut n value => Sys2Proof.Machine.execBpPut n value s
  | .bpFlush m => Sys2Proof.Machine.execBpFlush m s
  | .encBegin => Sys2Proof.Machine.execEncBegin s
  | .encGob gn gq => Sys2Proof.Machine.execEncGob gn gq s
  | .encMb nbits data => Sys2Proof.Machine.execEncMb nbits data s
  | .jpegFrag m seq ts off len data => Sys2Proof.Machine.execJpegFrag m seq ts off len data s
  | .h261Pkt m seq len data => Sys2Proof.Machine.execH261Pkt m seq len data s

end Sys2Proof.Machine
end

