-- ==== Sys2Proof/Machine/Ports.lean ====
section
/-! DEFINITION. The ports (44_control.md R224): how a word of the command port is consumed (30_encoding.md R88, R95),
how the host's actions are taken one at a time, and how a command's words are placed for the next step. -/

namespace Sys2Proof.Machine

/-- `w` consumed outside the fault state (30_encoding.md R88; 10_state.md R21): `cp` advances; the words so far are
decoded; an incomplete command stays pending, a refused word raises its fault at the command's header, and a complete
command executes. The pending words are decoded afresh with each word (log entry 15). -/
def decodeNext (w : Word) (s : State) : Host.Outcome State Fault Refusal :=
  match decode s.cfg.params.maxPktBytes (s.pend ++ [w]) with
  | .more => .next { s with cp := s.cp + 1, pend := s.pend ++ [w] }
  | .bad c =>
    .next (raiseFault c (s.pend.headD w) (s.cp - BitVec.ofNat 32 s.pend.length) { s with cp := s.cp + 1 })
  | .cmd i _ => exec i { s with cp := s.cp + 1, pend := [] }

/-- `w` consumed in the fault state (30_encoding.md R95): discarded, unless it is the SRST header. -/
def discardNext (w : Word) (s : State) : Host.Outcome State Fault Refusal :=
  if w = Instr.srst.header then exec .srst { s with cp := s.cp + 1 }
  else .next { s with cp := s.cp + 1 }

/-- One word of the command port consumed. -/
def consumeWord (w : Word) (s : State) : Host.Outcome State Fault Refusal :=
  if s.flt.fault then discardNext w s else decodeNext w s

/-- RRF takes the oldest of the host's actions; with none it idles (20_memory.md R67; 60_exceptions.md R248, R252; log
entries 2, 4). -/
def takeAction (s : State) : Host.Outcome State Fault Refusal :=
  match s.input with
  | [] => .next s
  | .word w :: rest => consumeWord w { s with input := rest }
  | .csrWrite addr v :: rest => .next (csrWrite addr v { s with input := rest })
  | .csrRead addr :: rest => .next (csrRead addr { s with input := rest })

/-- A command's words placed for the next step: all but the last already consumed, the last one next at the command
port. Words that are no command are placed at the command port as they are (log entry 3). -/
def placeWords (ws : List Word) (s : State) : State :=
  match decode s.cfg.params.maxPktBytes ws, ws.getLast? with
  | .cmd _ _, some w =>
    { s with
      cp := s.cp + BitVec.ofNat 32 (ws.length - 1)
      pend := ws.dropLast
      input := .word w :: s.input }
  | _, _ => { s with pend := [], input := ws.map .word ++ s.input }

end Sys2Proof.Machine
end

