-- ==== Sys2Proof/Machine/Step.lean ====
section
/-! DEFINITION. The step of the machine: one action of the host taken, so one step per consumed word
(70_reset_and_hazards.md R276; 44_control.md R225). -/

namespace Sys2Proof.Machine

/-- One step. -/
def step (s : State) : Host.Outcome State Fault Refusal := takeAction s

/-- `s` with an opcode-table word of `nbits` bits placed so that the very next step runs that instruction (log
entry 3). -/
def State.withFetchWord (s : State) (nbits w : Nat) : State := placeWords (layoutWords nbits w) s

end Sys2Proof.Machine
end

