-- ==== Sys2Proof/Machine/HostWalk.lean ====
section
/-! DEFINITION. Whole commands delivered one after another, and the host's frame walk (41_framer.md R150): the host
is outside RRF, and this is its command sequence over `exec` (log entry 20). -/

namespace Sys2Proof.Machine

/-- A whole command delivered between commands: its words are consumed, then it executes (20_memory.md R66;
10_state.md R21). -/
def deliver (i : Instr) (s : State) : Host.Outcome State Fault Refusal :=
  exec i { s with cp := s.cp + BitVec.ofNat 32 (encode i).length }

/-- Goes on with the state a command left, if it left one. -/
def andThen (o : Host.Outcome State Fault Refusal) (k : State → Host.Outcome State Fault Refusal) :
    Host.Outcome State Fault Refusal :=
  match o with
  | .next s => k s
  | .fault f => .fault f
  | .refused r => .refused r

/-- Commands delivered in order. -/
def deliverAll : List Instr → State → Host.Outcome State Fault Refusal
  | [], s => .next s
  | i :: is, s => andThen (deliver i s) (deliverAll is)

/-- A finished macroblock bit string of the host's MacroblockEncoder (41_framer.md R139). -/
structure MbString where
  /-- Its length in bits. -/
  nbits : BitVec 16
  /-- Its data words. -/
  data : List Word
deriving DecidableEq, Repr

/-- A macroblock marked "send": its bit string, and the one the host makes again after MB_RETRY (41_framer.md R151). -/
structure MbToSend where
  /-- The bit string of the first attempt. -/
  once : MbString
  /-- The bit string of the retry. -/
  again : MbString
deriving DecidableEq, Repr

/-- One GOB of the walk: its number, its quantizer, and its macroblocks, `none` for one not sent. -/
structure GobToSend where
  /-- GN(gob). -/
  gn : BitVec 4
  /-- GQ(gob). -/
  gq : BitVec 5
  /-- The macroblocks 1..33 of the GOB. -/
  mbs : List (Option MbToSend)
deriving DecidableEq, Repr

/-- The last event of the trace is a result word with this code. -/
def lastResultIs (c : ResultCode) (s : State) : Bool :=
  match s.trace.getLast? with
  | some (.result w) => w.extractLsb' 24 8 == c.code
  | _ => false

/-- The repeat loop of 41_framer.md R150 for one macroblock: one retry is enough (R138). -/
def walkMb (m : MbToSend) (s : State) : Host.Outcome State Fault Refusal :=
  andThen (deliver (.encMb m.once.nbits m.once.data) s) fun s =>
    if lastResultIs .mbRetry s then deliver (.encMb m.again.nbits m.again.data) s else .next s

/-- The macroblocks of one GOB in order; one not marked "send" is skipped (41_framer.md R150). -/
def walkMbs : List (Option MbToSend) → State → Host.Outcome State Fault Refusal
  | [], s => .next s
  | none :: ms, s => walkMbs ms s
  | some m :: ms, s => andThen (walkMb m s) (walkMbs ms)

/-- The GOBs of a frame in order (41_framer.md R150). -/
def walkGobs : List GobToSend → State → Host.Outcome State Fault Refusal
  | [], s => .next s
  | g :: gs, s => andThen (deliver (.encGob g.gn g.gq) s) fun s => andThen (walkMbs g.mbs s) (walkGobs gs)

/-- The GOBs of a frame of `nblocks` macroblocks: `ceil(nblocks / 33)` of them, 33 macroblocks each but the last
(41_framer.md R150). -/
def gobsOf (gn : Nat → BitVec 4) (gq : Nat → BitVec 5) (mbs : List (Option MbToSend)) : List GobToSend :=
  (List.range (wordsFor 33 mbs.length)).map fun g => ⟨gn g, gq g, (mbs.drop (33 * g)).take 33⟩

/-- The walk of one frame: `enc.begin`, the GOBs, `enc.end` (41_framer.md R150). -/
def walkFrame (gobs : List GobToSend) (s : State) : Host.Outcome State Fault Refusal :=
  andThen (deliver .encBegin s) fun s => andThen (walkGobs gobs s) (deliver (.bpFlush true))

end Sys2Proof.Machine
end

