-- ==== Sys2Proof/Safety.lean ====
section
/-! DEFINITION. What counts as a sound state of RRF (`State.Inv`), what the bit packer's state stands for as a bit
string (40_bitpacker.md R117), and the words the statements are written in. -/

namespace Sys2Proof.Machine

/-- The bits of a byte, most significant first. -/
def byteBits (b : Byte) : List Bool := (List.range 8).map b.getMsbD

/-- The low `n` bits of a value, most significant first: the code `put(v, n)` appends (40_bitpacker.md R117). -/
def codeBits (v : Word) (n : Nat) : List Bool := (List.range n).map fun k => v.getLsbD (n - 1 - k)

/-- The bit string `S` of ENC.MB: bit `k` is `D[k div 32][31 - (k mod 32)]` (30_encoding.md R85). -/
def mbBits (nbits : Nat) (data : List Word) : List Bool :=
  (List.range nbits).map fun k => (data.getD (k / 32) 0).getLsbD (31 - k % 32)

/-- The 26 bits of a GOB header (41_framer.md R130): the start code, GN, GQUANT, GEI. -/
def gobHdrBitString (gn : BitVec 4) (gq : BitVec 5) : List Bool :=
  List.replicate 15 false ++ [true] ++ (List.range 4).map gn.getMsbD ++ (List.range 5).map gq.getMsbD ++ [false]

/-- The bit string `B` of the current packet (40_bitpacker.md R117): the bits stored in `PB`, then the filled bits of
the accumulator. -/
def Packer.bits (cfg : Config) (epoch : Nat) (p : Packer) : List Bool :=
  (p.pb.readFront (Config.unwrittenPb epoch) p.cursor).flatMap byteBits ++
    (List.range p.fill).map fun k => p.acc.getLsbD (cfg.w - 1 - k)

/-- The bytes of `PB` that appending `n` bits stores, `W/8` for each accumulator word it spills (40_bitpacker.md
R110: a word is stored when the bits exceed it strictly). -/
def spilledBytes (cfg : Config) (fill n : Nat) : Nat := (fill + n - 1) / cfg.w * (cfg.w / 8)

/-- The bit packer is sound: 10_state.md R24 (the ranges of `fill` and `cursor`, the bit count at most `L`),
40_bitpacker.md R111 (the accumulator is zero below its filled part), 20_memory.md R65 (whole words are stored), and
`PB` holds the stored bytes, inside its `PKT_CAP` bytes. -/
abbrev Packer.Inv (cfg : Config) (p : Packer) : Prop :=
  p.fill ≤ cfg.w ∧
  p.bitCount ≤ cfg.limitBits ∧
  p.acc.toNat < 2 ^ cfg.w ∧
  p.acc.toNat % 2 ^ (cfg.w - p.fill) = 0 ∧
  cfg.w / 8 ∣ p.cursor ∧
  (p.fill = 0 → p.cursor = 0) ∧
  Memory.wf p.pb ∧
  (∀ c ∈ p.pb, c.1 < cfg.pktCap) ∧
  (∀ a < p.cursor, (Memory.read p.pb a).isSome)

/-- A JPEG buffer is sound for a capacity: it lists only bytes inside it, and an invalid buffer is as after reset. -/
abbrev JpegBuf.Inv (cap : Nat) (b : JpegBuf) : Prop :=
  Memory.wf b.data ∧ (∀ c ∈ b.data, c.1 < cap) ∧ (b.valid = false → b = JpegBuf.reset)

/-- A JPEG slot is sound at its index: a valid one holds a sequence number of its own and an offset that is not
negative (10_state.md R26); an invalid one is as after reset. -/
abbrev Slot.Inv (k : Fin 64) (t : Slot) : Prop :=
  (t.valid = true → slotOf t.seq = k ∧ t.off.toNat < 2 ^ 31) ∧ (t.valid = false → t = Slot.reset)

/-- The JPEG reassembler is sound: the capacity is the initial one or less than twice `JPEG_MAX`
(42_jpeg_reassembler.md R163), the two buffers hold different frames (R165), `dec_cnt` is 0..DECIMATE (R166). -/
abbrev Jpeg.Inv (cfg : Config) (j : Jpeg) : Prop :=
  cfg.params.jpegInitCap ≤ j.jcap.toNat ∧
  (j.jcap.toNat = cfg.params.jpegInitCap ∨ j.jcap.toNat < 2 * cfg.params.jpegMax) ∧
  JpegBuf.Inv j.jcap.toNat j.rb0 ∧
  JpegBuf.Inv j.jcap.toNat j.rb1 ∧
  (j.rb0.valid = true → j.rb1.valid = true → j.rb0.ts ≠ j.rb1.ts) ∧
  (∀ k : Fin 64, Slot.Inv k (slotAt j.slots k)) ∧
  0 ≤ j.decCnt.toInt ∧
  j.decCnt.toInt ≤ cfg.params.decimate

/-- A packet of the H.261 ring is sound at its index: in the ring's range, at the index of its sequence number, its
fields one of the two readings of its header, its payload within the packet bound (10_state.md R29;
43_h261_reassembler.md R191, R196). -/
abbrev RingPkt.Inv (cfg : Config) (first : Word) (k : Nat) (p : RingPkt) : Prop :=
  k < cfg.params.ringSize ∧
  ringIndex p.seq first = k ∧
  (p.f = stdFields p.hdr ∨ p.f = swpFields p.hdr) ∧
  p.payload.length ≤ cfg.params.maxPktBytes - 4

/-- The H.261 reassembler is sound: with no frame open the ring is empty (43_h261_reassembler.md R195); an open frame
has a 16-bit first sequence number and its first packet. -/
abbrev H261.Inv (cfg : Config) (h : H261) : Prop :=
  Rising h.ring ∧
  (∀ e ∈ h.ring, RingPkt.Inv cfg h.first e.1 e.2) ∧
  (h.first = 0xFFFFFFFF → h.ring = []) ∧
  (h.first ≠ 0xFFFFFFFF →
    h.first.toNat < 65536 ∧ h.lastValid = true ∧ (tableGet h.ring 0).isSome = true)

/-- The fault registers are sound: in the fault state nothing is pending and the code is one of R240; outside it all
are zero (10_state.md R23; 60_exceptions.md R240, R241). -/
abbrev FaultRegs.Inv (pend : List Word) (f : FaultRegs) : Prop :=
  (f.fault = true → pend = [] ∧ 1 ≤ f.code.toNat ∧ f.code.toNat ≤ 5) ∧ (f.fault = false → f = FaultRegs.reset)

/-- A sound state: every part is sound, the pending words are the front of a command the decoder has not refused
(30_encoding.md R88), and the last packet was inside `PKT_CAP` (10_state.md R32). -/
abbrev State.Inv (s : State) : Prop :=
  Packer.Inv s.cfg s.bp ∧
  Jpeg.Inv s.cfg s.jpeg ∧
  H261.Inv s.cfg s.h261 ∧
  FaultRegs.Inv s.pend s.flt ∧
  decode s.cfg.params.maxPktBytes s.pend = .more ∧
  s.enc.lastBytes.toNat ≤ s.cfg.pktCap

/-- The result codes 10_state.md R34 lists. -/
abbrev legalResultCode (c : BitVec 8) : Prop := c.toNat ≤ 0x0E ∨ c = 0xFF

/-- An event of the output trace is as 10_state.md R31 to R34 allow: a result word has a listed code; a packet is at
most `PKT_CAP` bytes; an H.261 frame has a header word for each packet and at most `DEC_CAP` bytes. -/
def Event.Legal (cfg : Config) : Event → Prop
  | .result w => legalResultCode (w.extractLsb' 24 8)
  | .pktOut _ _ bytes => bytes.length ≤ cfg.pktCap
  | .frameJpeg _ _ => True
  | .frameH261 f => f.hdrs.length = f.npkt ∧ f.bytes.length ≤ cfg.decCap

/-- The event is a result word. -/
def Event.isResult : Event → Bool
  | .result _ => true
  | _ => false

/-- The event is a packet. -/
def Event.isPacket : Event → Bool
  | .pktOut _ _ _ => true
  | _ => false

/-- The event is a packet with the marker bit. -/
def Event.isMarkerPacket : Event → Bool
  | .pktOut m _ _ => m
  | _ => false

/-- The event is a frame. -/
def Event.isFrame : Event → Bool
  | .frameJpeg _ _ => true
  | .frameH261 _ => true
  | _ => false

/-- The slots hold a chain of fragments of one frame from sequence number `seq` down to one at offset 0, with no gap,
over at most 64 slots (42_jpeg_reassembler.md R170). -/
def FragmentChain (slots : Vector Slot 64) (seq : BitVec 16) (ts : Word) : Prop :=
  ∃ k < 64,
    (∀ j ≤ k,
      (slotAt slots (slotOf (seq - BitVec.ofNat 16 j))).valid = true ∧
      (slotAt slots (slotOf (seq - BitVec.ofNat 16 j))).ts = ts ∧
      (slotAt slots (slotOf (seq - BitVec.ofNat 16 j))).seq = seq - BitVec.ofNat 16 j) ∧
    (slotAt slots (slotOf (seq - BitVec.ofNat 16 k))).off = 0

/-- The slot `n` places after slot `k` in the ring of 64. -/
def slotAfter (slots : Vector Slot 64) (k : Fin 64) (n : Nat) : Slot :=
  slotAt slots (slotIx (k.1 + n))

/-- Going forward from slot `k` over slots of one timestamp, the first end-of-frame slot gives this total length
(42_jpeg_reassembler.md R169). -/
def EofAhead (slots : Vector Slot 64) (k : Fin 64) (ts : Word) (total : Nat) : Prop :=
  ∃ n, 1 ≤ n ∧ n ≤ 63 ∧
    (∀ j, 1 ≤ j → j ≤ n → (slotAfter slots k j).valid = true ∧ (slotAfter slots k j).ts = ts) ∧
    (∀ j, 1 ≤ j → j < n → (slotAfter slots k j).eof = 0) ∧
    (slotAfter slots k n).eof ≠ 0 ∧
    total = (slotAfter slots k n).off.toNat + (slotAfter slots k n).eof.toNat

/-- The total length of a fragment's frame, as far as the slots tell (42_jpeg_reassembler.md R169): its own end for an
end-of-frame fragment, else what an end-of-frame slot ahead gives. -/
def FrameTotal (slots : Vector Slot 64) (m : Bool) (seq : BitVec 16) (ts off : Word) (len : BitVec 16) (total : Nat) :
    Prop :=
  if m then total = off.toNat + len.toNat else EofAhead slots (slotOf seq) ts total

/-- Steps 1 and 2 let the fragment through: its offset is not negative, and it ends inside the capacity or inside
`JPEG_MAX` (42_jpeg_reassembler.md R162, R163). -/
abbrev FragmentTaken (s : State) (off : Word) (len : BitVec 16) : Prop :=
  0 ≤ off.toInt ∧ 1 ≤ s.jpeg.jcap.toNat ∧
    (off.toNat + len.toNat ≤ s.jpeg.jcap.toNat ∨ off.toNat + len.toNat ≤ s.cfg.params.jpegMax)

/-- Buffer `b` accumulates the frame of timestamp `ts` (42_jpeg_reassembler.md R165). -/
abbrev holdsFrame (x : JpegBuf) (ts : Word) : Prop := x.valid = true ∧ x.ts = ts

/-- Two configurations that differ at most in `W`. -/
def sameParamsButWidth (c d : Config) : Prop := { c.params with w := d.params.w } = d.params

/-- Two states that differ at most in the accumulator width, in how the packer holds the bits of its packet, the bit
strings being the same, and in the CSR port's answers of `CFG_W` (00_scope.md R5; 40_bitpacker.md R117). -/
def sameButWidth (s t : State) : Prop :=
  sameParamsButWidth s.cfg t.cfg ∧
  Packer.Inv s.cfg s.bp ∧ Packer.Inv t.cfg t.bp ∧
  s.bp.bits s.cfg s.epoch = t.bp.bits t.cfg t.epoch ∧
  s.csrOut.filter (fun r => r.addr ≠ 0x30) = t.csrOut.filter (fun r => r.addr ≠ 0x30) ∧
  { s with cfg := t.cfg, bp := t.bp, csrOut := t.csrOut } = t

/-- The event is the result word GOB_OK or GOB_SPLIT of an ENC.GOB (10_state.md R34). -/
def Event.isGobResult : Event → Bool
  | .result w => w.extractLsb' 24 8 == 0x0D || w.extractLsb' 24 8 == 0x0E
  | _ => false

/-- The code of a result word; 0 for the other events (10_state.md R31). -/
def Event.resultCode : Event → BitVec 8
  | .result w => w.extractLsb' 24 8
  | _ => 0

/-- Neither buffer holds the frame of `ts`, so step 4 takes one for it (42_jpeg_reassembler.md R165). -/
abbrev takesBuffer (j : Jpeg) (ts : Word) : Prop := ¬ holdsFrame j.rb0 ts ∧ ¬ holdsFrame j.rb1 ts

/-- The buffer step 4 selects, as the pseudocode of 42_jpeg_reassembler.md R165 orders the choices; at timestamps
exactly 2^31 apart that is the model's choice, log entry 24. -/
def selectedBuffer (j : Jpeg) (ts : Word) : BufIx :=
  if holdsFrame j.rb0 ts then .rb0
  else if holdsFrame j.rb1 ts then .rb1
  else if j.rb0.valid = false then .rb0
  else if j.rb1.valid = false then .rb1
  else if (j.rb0.ts - j.rb1.ts).toInt < 0 then .rb0
  else .rb1

/-- The other buffer. -/
def BufIx.other : BufIx → BufIx
  | .rb0 => .rb1
  | .rb1 => .rb0

/-- Decimation keeps a new frame (42_jpeg_reassembler.md R166). -/
abbrev keptByDecimation (s : State) : Prop := s.cfg.params.decimate = 0 ∨ s.jpeg.decCnt.toInt ≤ 1

/-- Step 5 discards a fragment of timestamp `ts` (42_jpeg_reassembler.md R166, R167): its buffer is marked, or is taken
now and gets marked. -/
def fragmentDiscarded (s : State) (ts : Word) : Prop :=
  if takesBuffer s.jpeg ts then ¬ keptByDecimation s else (s.jpeg.rb (selectedBuffer s.jpeg ts)).drop = true

/-- A fragment of a JPEG frame, as the host carries it. -/
structure JpegPart where
  /-- Its payload length. -/
  len : BitVec 16
  /-- Its data words. -/
  data : List Word
deriving DecidableEq, Repr

/-- The offset of fragment `k` of a frame cut into contiguous fragments (42_jpeg_reassembler.md R175). -/
def partOffset (parts : List JpegPart) (k : Nat) : Nat := ((parts.take k).map (·.len.toNat)).sum

/-- The JPEG.FRAG command of fragment `k`: consecutive sequence numbers from `seq`, the last one with the marker bit
(42_jpeg_reassembler.md R175). -/
def partCommand (parts : List JpegPart) (seq : BitVec 16) (ts : Word) (k : Nat) : Instr :=
  .jpegFrag (decide (k + 1 = parts.length)) (seq + BitVec.ofNat 16 k) ts (BitVec.ofNat 32 (partOffset parts k))
    (parts.getD k ⟨0, []⟩).len (parts.getD k ⟨0, []⟩).data

/-- A packet opens a frame with an empty ring: it is the first since reset or a gap (43_h261_reassembler.md R195). -/
abbrev frameRestarts (s : State) (seq : BitVec 16) : Prop :=
  s.h261.lastValid = false ∨ s.cfg.params.gap < ((s.h261.lastSeq.toNat : Int) - (seq.toNat : Int)).natAbs

/-- `first` once a packet has been through frame start (43_h261_reassembler.md R195). -/
def firstAfter (s : State) (seq : BitVec 16) : Word :=
  if frameRestarts s seq ∨ s.h261.first = 0xFFFFFFFF then seq.setWidth 32 else s.h261.first

/-- The ring once a packet has been through frame start (43_h261_reassembler.md R195). -/
def ringAfter (s : State) (seq : BitVec 16) : List (Nat × RingPkt) :=
  if frameRestarts s seq then [] else s.h261.ring

/-- `rtp_bug` once a header has been parsed: it toggles where the layout it names gives a GOB number above `GOB_MAX`
(43_h261_reassembler.md R191). -/
def toggleAfter (bug : Bool) (hdr : Word) : Bool :=
  if gobMax < (if bug then hdr.extractLsb' 15 4 else hdr.extractLsb' 20 4).toNat then !bug else bug

/-- A packet of the H.261 stream, as the host carries it. -/
structure H261Part where
  /-- Its payload length, header included. -/
  len : BitVec 16
  /-- Its data words. -/
  data : List Word
deriving DecidableEq, Repr

/-- The payload header word of a packet (20_memory.md R64); 0 where there is none. -/
def H261Part.hdr (p : H261Part) : Word := ((splitHeader (payloadBytes p.len p.data)).map (·.1)).getD 0

/-- The bytes after the payload header. -/
def H261Part.bytes (p : H261Part) : List Byte := (payloadBytes p.len p.data).drop 4

/-- The packet is whole: at least its header, at most `MAX_PKT_BYTES`, all its data words there. -/
abbrev H261Part.Whole (maxPkt : Nat) (p : H261Part) : Prop :=
  4 ≤ p.len.toNat ∧ p.len.toNat ≤ maxPkt ∧ p.data.length = wordsFor 4 p.len.toNat

/-- The H261.PKT command of packet `k` of a frame of consecutive sequence numbers from `seq`; `marked` says whether the
last one carries the marker bit. -/
def packetCommand (parts : List H261Part) (marked : Bool) (seq : BitVec 16) (k : Nat) : Instr :=
  .h261Pkt (marked && decide (k + 1 = parts.length)) (seq + BitVec.ofNat 16 k)
    (parts.getD k ⟨0, []⟩).len (parts.getD k ⟨0, []⟩).data

/-- Two packets that arrive one after the other are within the gap threshold (43_h261_reassembler.md R195, R202). -/
abbrev withinGap (gap : Nat) (a b : Nat) : Prop := ((a : Int) - (b : Int)).natAbs ≤ gap

end Sys2Proof.Machine
end

