-- ==== Sys2Proof/Certificates/Slice0/Obligations.lean ====
section
/-! DEFINITION. The statements about RRF, each a proposition; OBLIGATIONS.json lists them with the rules they come
from. Each one holds for every legal configuration: the configuration is a field of the state (log entry 1). The fields
`input`, `csrOut`, `epoch` and `draws` are the model's own (log entries 2, 9): what a statement says of them is the
model's choice and no rule of the spec. -/

open Sys2Proof Sys2Proof.Machine

/-! ## Encoding (30_encoding.md) -/

/-- Decoding a command's words gives the command back, with every operand at every value the encoding admits (R80 to
R88). -/
def Obligations.DecodeOfEncode : Prop :=
  ∀ (maxPkt : Nat) (i : Instr) (rest : List Word), i.wellFormed maxPkt = true →
    decode maxPkt (encode i ++ rest) = .cmd i rest

/-- Words that decode to a command are that command's words, and the command is well-formed: no bit of a command word
is ignored, padding and the unused bits of VALUE being kept in the command (R80 to R91). -/
def Obligations.EncodeOfDecode : Prop :=
  ∀ (maxPkt : Nat) (ws : List Word) (i : Instr) (rest : List Word), decode maxPkt ws = .cmd i rest →
    ws = encode i ++ rest ∧ i.wellFormed maxPkt = true

/-- A command has the length of R87, and the decoder waits on every proper front of it (R88). -/
def Obligations.CommandLengthAndWaiting : Prop :=
  ∀ (maxPkt : Nat) (i : Instr), i.wellFormed maxPkt = true →
    (encode i).length = (match i with
      | .nop | .srst | .bpFlush _ | .encBegin | .encGob _ _ => 1
      | .bpPut _ _ => 2
      | .encMb nbits _ => 1 + (nbits.toNat + 31) / 32
      | .jpegFrag _ _ _ _ len _ => 4 + (len.toNat + 3) / 4
      | .h261Pkt _ _ len _ => 2 + (len.toNat + 3) / 4) ∧
    ∀ k < (encode i).length, decode maxPkt ((encode i).take k) = .more

/-- Sample words, written out from R81 to R85, decode to the commands they stand for. -/
def Obligations.SampleWordsDecode : Prop :=
  decode 2048 [0x00000000] = .cmd .nop [] ∧
  decode 2048 [0x01000000] = .cmd .srst [] ∧
  decode 2048 [0x10000003, 0x00000005] = .cmd (.bpPut 3 5) [] ∧
  decode 2048 [0x11800000] = .cmd (.bpFlush true) [] ∧
  decode 2048 [0x130001F3] = .cmd (.encGob 3 31) [] ∧
  decode 2048 [0x14000014, 0xFFFFF000] = .cmd (.encMb 20 [0xFFFFF000]) [] ∧
  decode 2048 [0x2080000B, 0x000003E8, 0x00000004, 0x00000004, 0x55667788] =
    .cmd (.jpegFrag true 11 1000 4 4 [0x55667788]) [] ∧
  decode 2048 [0x30800064, 0x00000006, 0x00102000, 0xAABB0000] =
    .cmd (.h261Pkt true 100 6 [0x00102000, 0xAABB0000]) []

/-- Which header words are refused, and with which fault code: the opcode first, then the reserved bits of its format,
then `N` of BP.PUT (R82, R89 to R91; 60_exceptions.md R243). -/
def Obligations.HeaderWordsRefused : Prop :=
  ∀ (maxPkt : Nat) (h : Word),
    (decode maxPkt [h] = .bad .illegalOpcode ↔
      h.extractLsb' 24 8 ∉ [0x00, 0x01, 0x10, 0x11, 0x12, 0x13, 0x14, 0x20, 0x30]) ∧
    (decode maxPkt [h] = .bad .reservedNonzero ↔
      (h.extractLsb' 24 8 ∈ [0x00, 0x01, 0x12] ∧ h.extractLsb' 0 24 ≠ 0) ∨
      (h.extractLsb' 24 8 = 0x10 ∧ h.extractLsb' 6 18 ≠ 0) ∨
      (h.extractLsb' 24 8 = 0x11 ∧ h.extractLsb' 0 23 ≠ 0) ∨
      (h.extractLsb' 24 8 = 0x13 ∧ h.extractLsb' 9 15 ≠ 0) ∨
      (h.extractLsb' 24 8 = 0x14 ∧ h.extractLsb' 16 8 ≠ 0) ∨
      (h.extractLsb' 24 8 ∈ [0x20, 0x30] ∧ h.extractLsb' 16 7 ≠ 0)) ∧
    (decode maxPkt [h] = .bad .badNbits ↔
      h.extractLsb' 24 8 = 0x10 ∧ h.extractLsb' 6 18 = 0 ∧ 32 < (h.extractLsb' 0 6).toNat) ∧
    ∀ (c : FaultCode) (ws : List Word), decode maxPkt [h] = .bad c → decode maxPkt (h :: ws) = .bad c

/-- The checks of a LENW word, after an accepted header of JPEG.FRAG (word 3) or H261.PKT (word 1): its reserved bits
first, then the length; no other argument or data word is checked (R83, R88, R91; 60_exceptions.md R243). -/
def Obligations.LenwWordsRefused : Prop :=
  ∀ (maxPkt : Nat) (h ts off lw : Word) (front : List Word), decode maxPkt [h] = .more →
    (h.extractLsb' 24 8 = 0x20 ∧ front = [h, ts, off] ∨ h.extractLsb' 24 8 = 0x30 ∧ front = [h]) →
    decode maxPkt front = .more ∧
    (decode maxPkt (front ++ [lw]) = .bad .reservedNonzero ↔ lw.extractLsb' 16 16 ≠ 0) ∧
    (decode maxPkt (front ++ [lw]) = .bad .badLength ↔
      lw.extractLsb' 16 16 = 0 ∧ maxPkt < (lw.extractLsb' 0 16).toNat) ∧
    ∀ ws : List Word, lw.extractLsb' 16 16 = 0 → (lw.extractLsb' 0 16).toNat ≤ maxPkt →
      (ws.length < ((lw.extractLsb' 0 16).toNat + 3) / 4 → decode maxPkt (front ++ lw :: ws) = .more) ∧
      (((lw.extractLsb' 0 16).toNat + 3) / 4 ≤ ws.length →
        ∃ i, decode maxPkt (front ++ lw :: ws) = .cmd i (ws.drop (((lw.extractLsb' 0 16).toNat + 3) / 4)))

/-- Padding bytes, padding bits and the bits of VALUE above `N` have no effect: commands that agree on the payload
bytes (R84), on the bits of the string (R85), on the low `N` bits (40_bitpacker.md R110) do the same. -/
def Obligations.PaddingHasNoEffect : Prop :=
  ∀ (s : State),
    (∀ (n : BitVec 6) (v v' : Word), (∀ k < n.toNat, v.getLsbD k = v'.getLsbD k) →
      exec (.bpPut n v) s = exec (.bpPut n v') s) ∧
    (∀ (n : BitVec 16) (d d' : List Word), d.length = (n.toNat + 31) / 32 → d'.length = (n.toNat + 31) / 32 →
      (∀ k < n.toNat, (d.getD (k / 32) 0).getLsbD (31 - k % 32) = (d'.getD (k / 32) 0).getLsbD (31 - k % 32)) →
      exec (.encMb n d) s = exec (.encMb n d') s) ∧
    (∀ (m : Bool) (seq len : BitVec 16) (ts off : Word) (d d' : List Word),
      d.length = (len.toNat + 3) / 4 → d'.length = (len.toNat + 3) / 4 →
      (∀ k < len.toNat, (d.getD (k / 4) 0).extractLsb' (24 - 8 * (k % 4)) 8 =
        (d'.getD (k / 4) 0).extractLsb' (24 - 8 * (k % 4)) 8) →
      exec (.jpegFrag m seq ts off len d) s = exec (.jpegFrag m seq ts off len d') s ∧
      exec (.h261Pkt m seq len d) s = exec (.h261Pkt m seq len d') s)

/-- The pseudo-instruction `bp.put64 N, V` appends the low `N` bits of the 64-bit `V`, most significant first, for
`33 <= N <= 64`, where they fit the packet (R97). -/
def Obligations.Put64AppendsItsBits : Prop :=
  ∀ (n : Nat) (v : BitVec 64) (s : State), 33 ≤ n → n ≤ 64 → Packer.Inv s.cfg s.bp →
    s.bp.bitCount + n ≤ s.cfg.limitBits →
    ∃ t, deliverAll (pseudoBpPut64 n v) s = .next t ∧
      t.bp.bits t.cfg t.epoch = s.bp.bits s.cfg s.epoch ++ (List.range n).map (fun k => v.getLsbD (n - 1 - k)) ∧
      t.bp.bitCount = s.bp.bitCount + n ∧
      t = { s with cp := s.cp + 4, bp := t.bp, trace := t.trace }

/-! ## The machine: ports, faults, reset, registers -/

/-- A step runs the decoded instruction: outside the fault state, where the pending words and the next word decode to a
command, the step is `exec` of that command with the word consumed, `cp` one further and nothing pending (30_encoding.md
R88; 10_state.md R21). -/
def Obligations.StepRunsDecodedCommand : Prop :=
  ∀ (s : State) (w : Word) (rest : List HostAction) (i : Instr) (after : List Word),
    s.flt.fault = false → s.input = .word w :: rest →
    decode s.cfg.params.maxPktBytes (s.pend ++ [w]) = .cmd i after →
    step s = exec i { s with input := rest, cp := s.cp + 1, pend := [] }

/-- A well-formed command delivered word by word does nothing until its last word and is then executed once: as many
steps as it has words are `exec` of it, with `cp` past its words (20_memory.md R66; 10_state.md R21; 30_encoding.md
R87, R88). -/
def Obligations.CommandWordsExecuteOnce : Prop :=
  ∀ (i : Instr) (s : State) (rest : List HostAction), i.wellFormed s.cfg.params.maxPktBytes = true →
    s.flt.fault = false → s.pend = [] → s.input = (encode i).map .word ++ rest →
    Host.Core.run Sys2Proof.core (encode i).length s =
      exec i { s with input := rest, cp := s.cp + BitVec.ofNat 32 (encode i).length }

/-- Fault entry at decode: the fault registers take the code, the command's header word and the command pointer of that
header, nothing is pending, the refused word counts as consumed, and the one result word is appended; nothing else
changes (60_exceptions.md R241; 30_encoding.md R88). -/
def Obligations.DecodeFaultEntry : Prop :=
  ∀ (s : State) (w : Word) (rest : List HostAction) (c : FaultCode),
    s.flt.fault = false → s.input = .word w :: rest →
    decode s.cfg.params.maxPktBytes (s.pend ++ [w]) = .bad c →
    step s = .next { s with
      input := rest
      cp := s.cp + 1
      pend := []
      flt := ⟨true, c.code, (s.pend ++ [w]).headD 0, s.cp - BitVec.ofNat 32 s.pend.length⟩
      trace := s.trace ++ [.result (0xFF000000 ||| c.code.setWidth 32)] }

/-- In the fault state every word is discarded, `cp` counting it, but for the SRST header, which resets (30_encoding.md
R95). -/
def Obligations.FaultStateDiscardsWords : Prop :=
  ∀ (s : State) (w : Word) (rest : List HostAction), s.flt.fault = true → s.input = .word w :: rest →
    (w ≠ 0x01000000 → step s = .next { s with input := rest, cp := s.cp + 1 }) ∧
    (w = 0x01000000 → step s = exec .srst { s with input := rest, cp := s.cp + 1 })

/-- The fault state is left only by the SRST word and by a write of `CTRL` with bit 0 set; any other step keeps the
fault registers and leaves encoder, reassemblers, trace and pending words alone (60_exceptions.md R244, R245). -/
def Obligations.FaultLeftOnlyByReset : Prop :=
  ∀ (s t : State), s.flt.fault = true → step s = .next t →
    (t.flt = s.flt ∧ t.pend = s.pend ∧ t.bp = s.bp ∧ t.enc = s.enc ∧ t.jpeg = s.jpeg ∧ t.h261 = s.h261 ∧
      t.trace = s.trace) ∨
    (t.flt = ⟨false, 0, 0, 0⟩ ∧
      ((∃ rest, s.input = .word 0x01000000 :: rest) ∨
        ∃ v rest, s.input = .csrWrite 0x04 v :: rest ∧ v.getLsbD 0 = true))

/-- The fault state is entered only by a word the decoder refuses, with the code it reports, and by a BP.PUT that does
not fit the packet, with code 5; no other command raises a fault (60_exceptions.md R240, R242). -/
def Obligations.FaultEnteredOnlySo : Prop :=
  ∀ (s t : State), s.flt.fault = false → step s = .next t → t.flt.fault = true →
    ∃ w rest, s.input = .word w :: rest ∧
      ((∃ c, decode s.cfg.params.maxPktBytes (s.pend ++ [w]) = .bad c ∧ t.flt.code = c.code) ∨
        ∃ n v after, decode s.cfg.params.maxPktBytes (s.pend ++ [w]) = .cmd (.bpPut n v) after ∧
          s.cfg.limitBits < s.bp.bitCount + n.toNat ∧ t.flt.code = 5)

/-- The command pointer: one further for every word consumed, 1 after an SRST, 0 after a reset by `CTRL`, and otherwise
unmoved; there are no jumps (10_state.md R21; 30_encoding.md R94; 44_control.md R221, R223). -/
def Obligations.CommandPointerMoves : Prop :=
  ∀ (s t : State), State.Inv s → step s = .next t →
    t.cp = (match s.input with
      | .word w :: _ => if w = 0x01000000 ∧ s.pend = [] then 1 else s.cp + 1
      | .csrWrite a v :: _ => if a = 0x04 ∧ v.getLsbD 0 = true then 0 else s.cp
      | _ => s.cp)

/-- A CSR read answers the register's value in the state as it is and changes nothing of RRF; a CSR write resets RRF
where it sets bit 0 of `CTRL`, keeping the trace, and is ignored everywhere else (10_state.md R41; 20_memory.md R65;
44_control.md R223). THE MODEL'S CHOICES: that a read between the words of a partly received command also sees the state
as it is then, with `CMD_PARTIAL = 1` and the advanced `CMD_PTR`, and that `CMD_PTR` counts the words discarded in the
fault state, is log entry 23, against the letter of 44_control.md R222; that the step changes nothing with no action of
the host is log entry 4; that a reset keeps `input` and `csrOut` is log entry 16. -/
def Obligations.CsrPortAccesses : Prop :=
  ∀ (s : State),
    (∀ a rest, s.input = .csrRead a :: rest →
      step s = .next { s with input := rest, csrOut := s.csrOut ++ [⟨a, csrValue s a⟩] }) ∧
    (∀ a v rest, s.input = .csrWrite a v :: rest → ¬ (a = 0x04 ∧ v.getLsbD 0 = true) →
      step s = .next { s with input := rest }) ∧
    (∀ v rest, s.input = .csrWrite 0x04 v :: rest → v.getLsbD 0 = true →
      step s = .next { State.powerOn s.cfg with
        input := rest, trace := s.trace, csrOut := s.csrOut, epoch := s.epoch + 1, draws := s.draws }) ∧
    (s.input = [] → step s = .next s)

/-- The bits of the four registers with fields, `STATUS`, `ENC_GOB`, `ENC_LAST` and `JPEG_RB_FLAGS`: where each field
stands, every other bit 0, all zero after reset, no write changing anything (10_state.md R37, R43, R44, R58, which the
spec derives from R22, R23, R25, R27, R30). -/
def Obligations.CsrFieldLayouts : Prop :=
  ∀ (s : State) (k : Nat),
    (csrValue s 0x00).getLsbD k =
      (if k = 0 then s.flt.fault
       else if 8 ≤ k ∧ k ≤ 15 then s.flt.code.getLsbD (k - 8)
       else if k = 16 then s.h261.rtpBug
       else if k = 17 then decide (s.h261.first ≠ 0xFFFFFFFF)
       else if k = 18 then s.h261.lastValid
       else if k = 19 then s.enc.gobValid
       else if k = 20 then decide (s.pend ≠ [])
       else false) ∧
    (csrValue s 0x09).getLsbD k =
      (if k ≤ 3 then s.enc.gobGn.getLsbD k else if k ≤ 8 then s.enc.gobGq.getLsbD (k - 4) else false) ∧
    (csrValue s 0x0A).getLsbD k =
      (if k ≤ 15 then s.enc.lastBytes.getLsbD k
       else if k ≤ 18 then s.enc.lastEbit.getLsbD (k - 16)
       else if k = 19 then s.enc.lastM
       else false) ∧
    (csrValue s 0x27).getLsbD k =
      (if k = 0 then s.jpeg.rb0.valid
       else if k = 1 then s.jpeg.rb0.drop
       else if k = 2 then s.jpeg.rb1.valid
       else if k = 3 then s.jpeg.rb1.drop
       else false) ∧
    ∀ a ∈ [(0x00 : BitVec 8), 0x09, 0x0A, 0x27],
      (∀ v, csrWrite a v s = s) ∧ ∀ cfg, csrValue (State.powerOn cfg) a = 0

/-- The registers that are one value each: the machine's own word or count, the parameter zero-extended, 0 at `CTRL` and
at every unmapped address; their values after reset; and that no write but one of `CTRL` changes anything (10_state.md R36,
R38 to R42, R45 to R57, R59). -/
def Obligations.CsrPlainRegisters : Prop :=
  ∀ (s : State),
    [0x01, 0x02, 0x03, 0x0B, 0x10, 0x11, 0x12, 0x13, 0x14, 0x15, 0x20, 0x21, 0x22, 0x23, 0x24, 0x25, 0x26].map
        (csrValue s) =
      [s.flt.cmd, s.flt.cp, s.cp, s.enc.pktCnt, s.h261.first, 0#16 ++ s.h261.lastSeq, s.h261.hframeCnt, s.h261.ovfCnt,
        s.h261.voidCnt, s.h261.runtCnt, s.jpeg.badoffCnt, s.jpeg.hugeCnt, s.jpeg.jframeCnt, s.jpeg.jcap, s.jpeg.decCnt,
        s.jpeg.rb0.ts, s.jpeg.rb1.ts] ∧
    (Packer.Inv s.cfg s.bp → (csrValue s 0x08).toNat = s.bp.cursor * 8 + s.bp.fill) ∧
    [0x30, 0x31, 0x32, 0x33, 0x34, 0x35, 0x36, 0x37, 0x38].map (fun a => (csrValue s a).toNat) =
      [s.cfg.params.w, s.cfg.params.mtu, s.cfg.params.hdrBytes, s.cfg.params.gap, s.cfg.params.ringSize,
        s.cfg.params.jpegMax, s.cfg.params.jpegInitCap, s.cfg.params.decimate, s.cfg.params.maxPktBytes] ∧
    (∀ cfg : Config,
      [0x01, 0x02, 0x03, 0x08, 0x0B, 0x10, 0x11, 0x12, 0x13, 0x14, 0x15, 0x20, 0x21, 0x22, 0x23, 0x24, 0x25, 0x26].map
          (fun a => (csrValue (State.powerOn cfg) a).toNat) =
        [0, 0, 0, 0, 0, 0xFFFFFFFF, 0, 0, 0, 0, 0, 0, 0, 0, cfg.params.jpegInitCap, 0, 0, 0]) ∧
    (∀ a : BitVec 8, a ∉ [0x00, 0x01, 0x02, 0x03, 0x08, 0x09, 0x0A, 0x0B, 0x10, 0x11, 0x12, 0x13, 0x14, 0x15, 0x20,
      0x21, 0x22, 0x23, 0x24, 0x25, 0x26, 0x27, 0x30, 0x31, 0x32, 0x33, 0x34, 0x35, 0x36, 0x37, 0x38] →
      csrValue s a = 0) ∧
    ∀ (a : BitVec 8) (v : Word), a ≠ 0x04 → csrWrite a v s = s

/-- Result words and their codes (10_state.md R31, R34). -/
def Obligations.ResultWordLayout : Prop :=
  (∀ (c : ResultCode) (v : BitVec 24),
    (resultWord c v).extractLsb' 24 8 = c.code ∧ (resultWord c v).extractLsb' 0 24 = v) ∧
  [ResultCode.ok, .notReady, .frameReady, .dropBadOffset, .dropHuge, .dropDecimated, .frameVoid, .ringOverflow,
    .dropRunt, .pktSent, .mbOk, .mbRetry, .mbTooLarge, .gobOk, .gobSplit, .fault].map ResultCode.code =
    [0x00, 0x01, 0x02, 0x03, 0x04, 0x05, 0x06, 0x07, 0x08, 0x09, 0x0A, 0x0B, 0x0C, 0x0D, 0x0E, 0xFF]

/-- A command that completes appends one result word, with a listed code, after at most one packet or one frame: a
packet only from an encoder command, a frame only from a reassembler command (10_state.md R31, R34, R35). -/
def Obligations.CommandAnswersOnce : Prop :=
  ∀ (i : Instr) (s t : State), exec i s = .next t →
    ∃ evs w, t.trace = s.trace ++ evs ++ [.result w] ∧ legalResultCode (w.extractLsb' 24 8) ∧
      (evs = [] ∨ ∃ e, evs = [e] ∧ (match i with
        | .bpFlush _ | .encGob _ _ | .encMb _ _ => e.isPacket = true
        | .jpegFrag _ _ _ _ _ _ | .h261Pkt _ _ _ _ => e.isFrame = true
        | .nop | .srst | .bpPut _ _ | .encBegin => False))

/-- The four functions of RRF share no state: what each command leaves unchanged (20_memory.md R60, R61;
60_exceptions.md R241). What it says of `input`, `csrOut` and `draws` is the model's choice, log entries 9, 16. -/
def Obligations.CommandsTouchTheirOwnState : Prop :=
  ∀ (i : Instr) (s t : State), exec i s = .next t →
    match i with
    | .nop => t = { s with trace := t.trace }
    | .srst => t.cfg = s.cfg ∧ t.input = s.input ∧ t.csrOut = s.csrOut ∧ t.draws = s.draws
    | .bpPut _ _ => t = { s with bp := t.bp, trace := t.trace, flt := t.flt, pend := t.pend }
    | .bpFlush _ => t = { s with bp := t.bp, enc := t.enc, trace := t.trace }
    | .encBegin => t = { s with bp := t.bp, enc := t.enc, trace := t.trace }
    | .encGob _ _ => t = { s with bp := t.bp, enc := t.enc, trace := t.trace }
    | .encMb _ _ => t = { s with bp := t.bp, enc := t.enc, trace := t.trace }
    | .jpegFrag _ _ _ _ _ _ => t = { s with jpeg := t.jpeg, trace := t.trace, draws := t.draws }
    | .h261Pkt _ _ _ _ => t = { s with h261 := t.h261, trace := t.trace, draws := t.draws }

/-- No step changes the configuration, removes or reorders an event of the trace or an answer of the CSR port, and each
takes the oldest of the host's actions (00_scope.md R3; 10_state.md R35; 70_reset_and_hazards.md R274). The queue of the
host's actions and the list of answers are the model's choice, log entry 2. -/
def Obligations.StepKeepsConfigAndHistory : Prop :=
  ∀ (s t : State), step s = .next t →
    t.cfg = s.cfg ∧ s.trace <+: t.trace ∧ s.csrOut <+: t.csrOut ∧ t.input = s.input.drop 1

/-- NOP appends the result OK with value 0 and does nothing else (44_control.md R220). -/
def Obligations.NopOnlyAnswers : Prop :=
  ∀ s : State, exec .nop s = .next { s with trace := s.trace ++ [.result 0x00000000] }

/-- SRST gives every element of state its reset value, `cp` counting the SRST word, and appends the result OK; the trace
before it stays (44_control.md R221; 70_reset_and_hazards.md R270). That unwritten bytes are drawn anew, `epoch`, is the
model's choice, log entries 5 and 6. -/
def Obligations.SrstResetsEveryElement : Prop :=
  ∀ s : State,
    exec .srst s = .next { s with
      cp := 1
      pend := []
      flt := ⟨false, 0, 0, 0⟩
      bp := ⟨0, 0, 0, []⟩
      enc := ⟨false, 0, 0, 0, 0, 0, false⟩
      jpeg := {
        slots := Vector.replicate 64 ⟨false, 0, 0, 0, 0⟩
        rb0 := ⟨false, 0, false, []⟩
        rb1 := ⟨false, 0, false, []⟩
        jcap := BitVec.ofNat 32 s.cfg.params.jpegInitCap
        badoffCnt := 0
        hugeCnt := 0
        jframeCnt := 0
        decCnt := 0 }
      h261 := {
        ring := []
        first := -1
        lastSeq := 0
        lastValid := false
        rtpBug := false
        hframeCnt := 0
        ovfCnt := 0
        voidCnt := 0
        runtCnt := 0 }
      trace := s.trace ++ [.result 0x00000000]
      epoch := s.epoch + 1 }

/-! ## Invariants -/

/-- The machine is sound right after reset, in every configuration (70_reset_and_hazards.md R270, R271). -/
def Obligations.ResetIsSound : Prop :=
  State.Inv State.reset ∧ ∀ cfg : Config, State.Inv (State.powerOn cfg)

/-- Every step keeps the machine sound: the packer's counts and its accumulator's low bits (10_state.md R24,
40_bitpacker.md R111, R113), the JPEG capacity, buffers and slots (42_jpeg_reassembler.md R163 to R166), the H.261 ring
(43_h261_reassembler.md R195 to R199), the fault registers (60_exceptions.md R241), the pending words (30_encoding.md
R88), and the canonical form of every memory. -/
def Obligations.StepKeepsSound : Prop :=
  ∀ (s t : State), State.Inv s → step s = .next t → State.Inv t

/-- RRF never stops: from a sound state every step has a next state, whatever the host does (44_control.md R225;
60_exceptions.md R242; 40_bitpacker.md R111; 42_jpeg_reassembler.md R168). -/
def Obligations.SoundMachineNeverStops : Prop :=
  ∀ s : State, State.Inv s → ∃ t, step s = .next t

/-- From a sound state every event of the trace stays as the trace's rules allow: listed result codes, packets of at
most `PKT_CAP` bytes, H.261 frames with one header word for each packet and at most `DEC_CAP` bytes (10_state.md R32 to
R34; 40_bitpacker.md R115; 43_h261_reassembler.md R197). -/
def Obligations.TraceEventsStayLegal : Prop :=
  ∀ (s t : State), State.Inv s → (∀ e ∈ s.trace, Event.Legal s.cfg e) → step s = .next t →
    ∀ e ∈ t.trace, Event.Legal t.cfg e

/-! ## The bit packer (40_bitpacker.md) and the framer (41_framer.md) -/

/-- BP.PUT where the code fits: the low `N` bits of VALUE follow the packet's bits, the result is the new bit count, and
of `PB` only the bytes of a spilled accumulator word change (40_bitpacker.md R110, R112, R117). -/
def Obligations.BpPutAppendsCode : Prop :=
  ∀ (n : BitVec 6) (v : Word) (s : State), n.toNat ≤ 32 → Packer.Inv s.cfg s.bp →
    s.bp.bitCount + n.toNat ≤ s.cfg.limitBits →
    ∃ q, exec (.bpPut n v) s = .next { s with
        bp := q
        trace := s.trace ++ [.result (resultWord .ok (BitVec.ofNat 24 (s.bp.bitCount + n.toNat)))] } ∧
      q.bitCount = s.bp.bitCount + n.toNat ∧
      q.bits s.cfg s.epoch = s.bp.bits s.cfg s.epoch ++ codeBits v n.toNat ∧
      ∀ a, ¬ (s.bp.cursor ≤ a ∧ a < s.bp.cursor + spilledBytes s.cfg s.bp.fill n.toNat) → q.pb.read a = s.bp.pb.read a

/-- BP.PUT where the code would pass `L`: the fault BP_OVERFLOW, with nothing appended; the command's header word was
consumed two words before `cp`, a computation of the model's, log entry 18 (40_bitpacker.md R112; 60_exceptions.md R240,
R241). -/
def Obligations.BpPutOverflowFaults : Prop :=
  ∀ (n : BitVec 6) (v : Word) (s : State), s.cfg.limitBits < s.bp.bitCount + n.toNat →
    exec (.bpPut n v) s = .next { s with
      pend := []
      flt := ⟨true, 0x05, 0x10000000 ||| n.setWidth 32, s.cp - 2⟩
      trace := s.trace ++ [.result 0xFF000005] }

/-- BP.FLUSH sends the packet: its bits, then at most seven zero bits, cut into bytes; it records the packet and leaves
an empty one, and with `M = 1` no GOB stays open (40_bitpacker.md R114 to R117). -/
def Obligations.BpFlushSendsPacket : Prop :=
  ∀ (m : Bool) (s : State), Packer.Inv s.cfg s.bp →
    ∃ nbytes ebit bytes q, nbytes = (s.bp.bitCount + 7) / 8 ∧ ebit = 8 * nbytes - s.bp.bitCount ∧
      exec (.bpFlush m) s = .next { s with
        bp := q
        enc := { s.enc with
          gobValid := s.enc.gobValid && !m
          pktCnt := s.enc.pktCnt + 1
          lastBytes := BitVec.ofNat 16 nbytes
          lastEbit := BitVec.ofNat 3 ebit
          lastM := m }
        trace := s.trace ++ [.pktOut m (BitVec.ofNat 3 ebit) bytes,
          .result (resultWord .pktSent (BitVec.ofNat 24 nbytes))] } ∧
      bytes.length = nbytes ∧ bytes.flatMap byteBits = s.bp.bits s.cfg s.epoch ++ List.replicate ebit false ∧
      q.acc = 0 ∧ q.fill = 0 ∧ q.cursor = 0 ∧
      ∀ a, ¬ (s.bp.cursor ≤ a ∧ a < nbytes) → q.pb.read a = s.bp.pb.read a

/-- ENC.BEGIN drops the bits not yet sent and the open GOB, and sends nothing; `PB`, the packet count and the record of
the last packet stay (41_framer.md R131). -/
def Obligations.EncBeginDropsPacket : Prop :=
  ∀ s : State, exec .encBegin s = .next { s with
    bp := { s.bp with acc := 0, fill := 0, cursor := 0 }
    enc := { s.enc with gobValid := false, gobGn := 0, gobGq := 0 }
    trace := s.trace ++ [.result 0x00000000] }

/-- ENC.GOB where the 26 header bits fit: they follow the packet's bits, and the GOB is open with its number and
quantizer (41_framer.md R130, R133; the header's layout is the spec's from general knowledge,
93_implementation_defined.md G3). -/
def Obligations.EncGobAppendsHeader : Prop :=
  ∀ (gn : BitVec 4) (gq : BitVec 5) (s : State), Packer.Inv s.cfg s.bp → s.bp.bitCount + 26 ≤ s.cfg.limitBits →
    ∃ q, exec (.encGob gn gq) s = .next { s with
        bp := q
        enc := { s.enc with gobValid := true, gobGn := gn, gobGq := gq }
        trace := s.trace ++ [.result (resultWord .gobOk (BitVec.ofNat 24 (s.bp.bitCount + 26)))] } ∧
      q.bitCount = s.bp.bitCount + 26 ∧
      q.bits s.cfg s.epoch = s.bp.bits s.cfg s.epoch ++ gobHdrBitString gn gq ∧
      ∀ a, ¬ (s.bp.cursor ≤ a ∧ a < s.bp.cursor + spilledBytes s.cfg s.bp.fill 26) → q.pb.read a = s.bp.pb.read a

/-- ENC.GOB where the header would pass `L`: the packet is sent without the marker bit and the header starts the next
one (41_framer.md R133). -/
def Obligations.EncGobSplitsPacket : Prop :=
  ∀ (gn : BitVec 4) (gq : BitVec 5) (s : State), Packer.Inv s.cfg s.bp → s.cfg.limitBits < s.bp.bitCount + 26 →
    ∃ nbytes ebit bytes q, nbytes = (s.bp.bitCount + 7) / 8 ∧ ebit = 8 * nbytes - s.bp.bitCount ∧
      exec (.encGob gn gq) s = .next { s with
        bp := q
        enc := ⟨true, gn, gq, s.enc.pktCnt + 1, BitVec.ofNat 16 nbytes, BitVec.ofNat 3 ebit, false⟩
        trace := s.trace ++ [.pktOut false (BitVec.ofNat 3 ebit) bytes,
          .result (resultWord .gobSplit (BitVec.ofNat 24 nbytes))] } ∧
      bytes.length = nbytes ∧ bytes.flatMap byteBits = s.bp.bits s.cfg s.epoch ++ List.replicate ebit false ∧
      q.bitCount = 26 ∧ q.bits s.cfg s.epoch = gobHdrBitString gn gq ∧
      ∀ a, ¬ (s.bp.cursor ≤ a ∧ a < nbytes) → q.pb.read a = s.bp.pb.read a

/-- ENC.MB where the macroblock fits, a macroblock ending exactly at `L` included: its bits follow the packet's bits
(41_framer.md R135, R137; 30_encoding.md R85). -/
def Obligations.EncMbAppendsMacroblock : Prop :=
  ∀ (n : BitVec 16) (d : List Word) (s : State), d.length = (n.toNat + 31) / 32 → Packer.Inv s.cfg s.bp →
    s.bp.bitCount + n.toNat ≤ s.cfg.limitBits →
    ∃ q, exec (.encMb n d) s = .next { s with
        bp := q
        trace := s.trace ++ [.result (resultWord .mbOk (BitVec.ofNat 24 (s.bp.bitCount + n.toNat)))] } ∧
      q.bitCount = s.bp.bitCount + n.toNat ∧
      q.bits s.cfg s.epoch = s.bp.bits s.cfg s.epoch ++ mbBits n.toNat d ∧
      ∀ a, ¬ (s.bp.cursor ≤ a ∧ a < s.bp.cursor + spilledBytes s.cfg s.bp.fill n.toNat) → q.pb.read a = s.bp.pb.read a

/-- ENC.MB where not even a fresh packet with the GOB header holds the macroblock: MB_TOO_LARGE, and nothing is appended
or sent (41_framer.md R132, R137). -/
def Obligations.EncMbTooLarge : Prop :=
  ∀ (n : BitVec 16) (d : List Word) (s : State), s.cfg.limitBits < s.bp.bitCount + n.toNat →
    s.cfg.limitBits < (if s.enc.gobValid then 26 else 0) + n.toNat →
    exec (.encMb n d) s = .next { s with trace := s.trace ++ [.result (resultWord .mbTooLarge (n.setWidth 24))] }

/-- ENC.MB where the macroblock fits a fresh packet only: the packet is sent without the marker bit, the next one holds
the GOB header again if a GOB is open and nothing otherwise, and the host is asked to retry (41_framer.md R132,
R137). -/
def Obligations.EncMbRetries : Prop :=
  ∀ (n : BitVec 16) (d : List Word) (s : State), Packer.Inv s.cfg s.bp → s.cfg.limitBits < s.bp.bitCount + n.toNat →
    (if s.enc.gobValid then 26 else 0) + n.toNat ≤ s.cfg.limitBits →
    ∃ nbytes ebit bytes q, nbytes = (s.bp.bitCount + 7) / 8 ∧ ebit = 8 * nbytes - s.bp.bitCount ∧
      exec (.encMb n d) s = .next { s with
        bp := q
        enc := { s.enc with
          pktCnt := s.enc.pktCnt + 1
          lastBytes := BitVec.ofNat 16 nbytes
          lastEbit := BitVec.ofNat 3 ebit
          lastM := false }
        trace := s.trace ++ [.pktOut false (BitVec.ofNat 3 ebit) bytes,
          .result (resultWord .mbRetry (BitVec.ofNat 24 nbytes))] } ∧
      bytes.length = nbytes ∧ bytes.flatMap byteBits = s.bp.bits s.cfg s.epoch ++ List.replicate ebit false ∧
      q.bits s.cfg s.epoch = (if s.enc.gobValid then gobHdrBitString s.enc.gobGn s.enc.gobGq else []) ∧
      ∀ a, ¬ (s.bp.cursor ≤ a ∧ a < nbytes) → q.pb.read a = s.bp.pb.read a

/-- After MB_RETRY the packet holds exactly the re-emitted GOB header, or nothing, and whatever macroblock comes next is
not answered by a second MB_RETRY: it is committed where it fits with that header, and too large where it does not
(41_framer.md R138, which the spec derives from R137). -/
def Obligations.NoSecondRetry : Prop :=
  ∀ (n n' : BitVec 16) (d d' : List Word) (s t : State), Packer.Inv s.cfg s.bp → d'.length = (n'.toNat + 31) / 32 →
    exec (.encMb n d) s = .next t → lastResultIs .mbRetry t = true →
    t.bp.bits t.cfg t.epoch = (if t.enc.gobValid then gobHdrBitString t.enc.gobGn t.enc.gobGq else []) ∧
    t.bp.bitCount = (if t.enc.gobValid then 26 else 0) ∧
    ∃ u, deliver (.encMb n' d') t = .next u ∧
      (t.bp.bitCount + n'.toNat ≤ s.cfg.limitBits → lastResultIs .mbOk u = true) ∧
      (s.cfg.limitBits < t.bp.bitCount + n'.toNat → lastResultIs .mbTooLarge u = true)

/-- Only BP.FLUSH with `M = 1` sends a packet with the marker bit (41_framer.md R141, which the spec derives from R133,
R137 and 40_bitpacker.md R116). -/
def Obligations.OnlyFlushMarksPackets : Prop :=
  ∀ (i : Instr) (s t : State) (evs : List Event) (e : BitVec 3) (bytes : List Byte), exec i s = .next t →
    t.trace = s.trace ++ evs → .pktOut true e bytes ∈ evs → i = .bpFlush true

/-- The bit-string view: codes appended one after another and then sent come out as their concatenated bits after what
the packet held, then fewer than eight zero bits, cut into bytes most significant bit first (40_bitpacker.md R117). -/
def Obligations.PutsThenFlushSendTheirBits : Prop :=
  ∀ (codes : List (BitVec 6 × Word)) (m : Bool) (s : State), Packer.Inv s.cfg s.bp →
    (∀ c ∈ codes, c.1.toNat ≤ 32) →
    s.bp.bitCount + (codes.map (·.1.toNat)).sum ≤ s.cfg.limitBits →
    ∃ t pre bytes ebit,
      deliverAll (codes.map (fun c => .bpPut c.1 c.2) ++ [.bpFlush m]) s = .next t ∧
      t.trace = s.trace ++ pre ++ [.pktOut m (BitVec.ofNat 3 ebit) bytes,
        .result (resultWord .pktSent (BitVec.ofNat 24 bytes.length))] ∧
      pre.length = codes.length ∧ (∀ e ∈ pre, e.isResult = true) ∧ ebit < 8 ∧
      bytes.flatMap byteBits =
        s.bp.bits s.cfg s.epoch ++ codes.flatMap (fun c => codeBits c.2 c.1.toNat) ++ List.replicate ebit false

/-- The accumulator width shows nowhere but in `CFG_W`: two machines that differ only in `W`, and in how their packers
hold the same bits, take the same steps, with the same trace, registers and CSR answers, the answers of `CFG_W` itself
apart (00_scope.md R5, which the spec derives from 40_bitpacker.md R110, R117). That the two draw the same unwritten bytes
is the model's choice, log entry 5. -/
def Obligations.WidthHasNoEffect : Prop :=
  ∀ (s t s' : State), sameButWidth s t → step s = .next s' → ∃ t', step t = .next t' ∧ sameButWidth s' t'

/-- The host's walk of one frame: one ENC.GOB for each 33 macroblocks begun (12 of them for 396 macroblocks), and the
last packet, the one `enc.end` sends, is the only one with the marker bit (41_framer.md R150, R152). The driver of the
walk, with one retry and a too large macroblock skipped, is the model's choice, log entry 20. -/
def Obligations.FrameWalkEndsWithMarker : Prop :=
  ∀ (gn : Nat → BitVec 4) (gq : Nat → BitVec 5) (mbs : List (Option MbToSend)) (s : State), Packer.Inv s.cfg s.bp →
    (∀ mb, some mb ∈ mbs → mb.once.data.length = (mb.once.nbits.toNat + 31) / 32 ∧
      mb.again.data.length = (mb.again.nbits.toNat + 31) / 32) →
    ∃ t pre ebit bytes, walkFrame (gobsOf gn gq mbs) s = .next t ∧
      t.trace = s.trace ++ pre ++ [.pktOut true ebit bytes,
        .result (resultWord .pktSent (BitVec.ofNat 24 bytes.length))] ∧
      (∀ e ∈ pre, e.isMarkerPacket = false) ∧
      (pre.filter Event.isGobResult).length = (mbs.length + 32) / 33 ∧
      t.enc.gobValid = false

/-! ## The JPEG reassembler (42_jpeg_reassembler.md) -/

/-- JPEG.FRAG that steps 1 and 2 drop, with a negative offset (R162), or with an end that passes both the capacity and
`JPEG_MAX` (R163; the spec derives R176 from it): counted, with no other effect. -/
def Obligations.JpegUnusableFragmentsDropped : Prop :=
  ∀ (m : Bool) (seq len : BitVec 16) (ts off : Word) (d : List Word) (s : State),
    (off.toInt < 0 →
      exec (.jpegFrag m seq ts off len d) s = .next { s with
        jpeg := { s.jpeg with badoffCnt := s.jpeg.badoffCnt + 1 }
        trace := s.trace ++ [.result 0x03000000] }) ∧
    (0 ≤ off.toInt → s.cfg.params.jpegMax < off.toNat + len.toNat → s.jpeg.jcap.toNat < off.toNat + len.toNat →
      exec (.jpegFrag m seq ts off len d) s = .next { s with
        jpeg := { s.jpeg with hugeCnt := s.jpeg.hugeCnt + 1 }
        trace := s.trace ++ [.result 0x04000000] })

/-- A fragment that is let through completes; the capacity doubles to the least power that holds its end, or stays
where it already does; the counters of dropped fragments and the other functions' state stay (R161, R163). -/
def Obligations.JpegCapacityGrows : Prop :=
  ∀ (m : Bool) (seq len : BitVec 16) (ts off : Word) (d : List Word) (s : State), FragmentTaken s off len →
    d.length = (len.toNat + 3) / 4 →
    ∃ t, exec (.jpegFrag m seq ts off len d) s = .next t ∧
      (off.toNat + len.toNat ≤ s.jpeg.jcap.toNat → t.jpeg.jcap = s.jpeg.jcap) ∧
      (s.jpeg.jcap.toNat < off.toNat + len.toNat → ∃ k, 1 ≤ k ∧
        t.jpeg.jcap.toNat = s.jpeg.jcap.toNat * 2 ^ k ∧ off.toNat + len.toNat ≤ s.jpeg.jcap.toNat * 2 ^ k ∧
        ∀ j, 1 ≤ j → j < k → s.jpeg.jcap.toNat * 2 ^ j < off.toNat + len.toNat) ∧
      t.jpeg.badoffCnt = s.jpeg.badoffCnt ∧ t.jpeg.hugeCnt = s.jpeg.hugeCnt ∧
      t = { s with jpeg := t.jpeg, trace := t.trace, draws := t.draws }

/-- A fragment that is let through is recorded in slot `SEQ & 63`; the slot's end-of-frame length is its `LEN` with the
marker bit and 0 without, unless step 5 discards the fragment, which leaves it; no other slot changes (R164, R167,
R169). -/
def Obligations.JpegSlotRecorded : Prop :=
  ∀ (m : Bool) (seq len : BitVec 16) (ts off : Word) (d : List Word) (s : State), FragmentTaken s off len →
    d.length = (len.toNat + 3) / 4 →
    ∃ t, exec (.jpegFrag m seq ts off len d) s = .next t ∧
      (slotAt t.jpeg.slots (slotOf seq)).valid = true ∧ (slotAt t.jpeg.slots (slotOf seq)).seq = seq ∧
      (slotAt t.jpeg.slots (slotOf seq)).off = off ∧ (slotAt t.jpeg.slots (slotOf seq)).ts = ts ∧
      (fragmentDiscarded s ts →
        (slotAt t.jpeg.slots (slotOf seq)).eof = (slotAt s.jpeg.slots (slotOf seq)).eof) ∧
      (¬ fragmentDiscarded s ts → (slotAt t.jpeg.slots (slotOf seq)).eof = if m then len else 0) ∧
      ∀ k, k ≠ slotOf seq → slotAt t.jpeg.slots k = slotAt s.jpeg.slots k

/-- Which buffer a fragment uses, and what a new timestamp does to it and to the decimation counter; the other buffer
does not change at all (R165, R166). Which buffer is taken where the two timestamps lie exactly 2^31 apart is the model's
choice, log entry 24. -/
def Obligations.JpegBufferSelected : Prop :=
  ∀ (m : Bool) (seq len : BitVec 16) (ts off : Word) (d : List Word) (s : State), FragmentTaken s off len →
    d.length = (len.toNat + 3) / 4 →
    ∃ t, exec (.jpegFrag m seq ts off len d) s = .next t ∧
      t.jpeg.rb (selectedBuffer s.jpeg ts).other = s.jpeg.rb (selectedBuffer s.jpeg ts).other ∧
      (t.jpeg.rb (selectedBuffer s.jpeg ts)).valid = true ∧ (t.jpeg.rb (selectedBuffer s.jpeg ts)).ts = ts ∧
      (¬ takesBuffer s.jpeg ts →
        (t.jpeg.rb (selectedBuffer s.jpeg ts)).drop = (s.jpeg.rb (selectedBuffer s.jpeg ts)).drop ∧
        t.jpeg.decCnt = s.jpeg.decCnt) ∧
      (takesBuffer s.jpeg ts →
        ((t.jpeg.rb (selectedBuffer s.jpeg ts)).drop = true ↔ ¬ keptByDecimation s) ∧
        t.jpeg.decCnt =
          if s.cfg.params.decimate = 0 then s.jpeg.decCnt
          else if s.jpeg.decCnt.toInt ≤ 1 then BitVec.ofNat 32 s.cfg.params.decimate
          else s.jpeg.decCnt - 1)

/-- A fragment whose buffer is marked to be dropped is discarded: no byte of either buffer changes, no slot's
end-of-frame length is written, no frame is counted, and the result is DROP_DECIMATED (R167). -/
def Obligations.JpegDecimatedDiscarded : Prop :=
  ∀ (m : Bool) (seq len : BitVec 16) (ts off : Word) (d : List Word) (s : State), FragmentTaken s off len →
    fragmentDiscarded s ts →
    ∃ t, exec (.jpegFrag m seq ts off len d) s = .next t ∧
      t.trace = s.trace ++ [.result 0x05000000] ∧
      t.jpeg.rb0.data = s.jpeg.rb0.data ∧ t.jpeg.rb1.data = s.jpeg.rb1.data ∧ t.jpeg.jframeCnt = s.jpeg.jframeCnt ∧
      ∀ k, (slotAt t.jpeg.slots k).eof = (slotAt s.jpeg.slots k).eof

/-- A fragment that is not discarded is copied to its buffer at its offset, and every other byte of both buffers stays
(R168). Which buffer is taken where the two timestamps lie exactly 2^31 apart is the model's choice, log entry 24. -/
def Obligations.JpegPayloadCopied : Prop :=
  ∀ (m : Bool) (seq len : BitVec 16) (ts off : Word) (d : List Word) (s : State), FragmentTaken s off len →
    d.length = (len.toNat + 3) / 4 → (∀ b, Memory.wf (s.jpeg.rb b).data) → ¬ fragmentDiscarded s ts →
    ∃ t, exec (.jpegFrag m seq ts off len d) s = .next t ∧ off.toNat + len.toNat ≤ t.jpeg.jcap.toNat ∧
      (∀ a, (t.jpeg.rb (selectedBuffer s.jpeg ts)).data.read a =
        if off.toNat ≤ a ∧ a < off.toNat + len.toNat then
          some ((d.getD ((a - off.toNat) / 4) 0).extractLsb' (24 - 8 * ((a - off.toNat) % 4)) 8)
        else (s.jpeg.rb (selectedBuffer s.jpeg ts)).data.read a) ∧
      (t.jpeg.rb (selectedBuffer s.jpeg ts).other).data = (s.jpeg.rb (selectedBuffer s.jpeg ts).other).data

/-- A fragment that is not discarded hands out its frame exactly where the total length is known and the slots hold
every fragment from the frame's start to this one: the frame is the buffer's first `total` bytes, every byte that was
ever written being as written, and it is counted; otherwise the result is NOT_READY. A byte that nothing wrote is not
fixed by the spec, nor is the result's length from 2^24 on (R169 to R172; the model's choices, log entries 5, 7, 8). Which
buffer is taken where the two timestamps lie exactly 2^31 apart is log entry 24. -/
def Obligations.JpegFrameHandedOut : Prop :=
  ∀ (m : Bool) (seq len : BitVec 16) (ts off : Word) (d : List Word) (s : State), FragmentTaken s off len →
    d.length = (len.toNat + 3) / 4 → ¬ fragmentDiscarded s ts →
    ∃ t, exec (.jpegFrag m seq ts off len d) s = .next t ∧
      (∀ total, FrameTotal t.jpeg.slots m seq ts off len total → FragmentChain t.jpeg.slots seq ts →
        ∃ bytes value,
          t.trace = s.trace ++ [.frameJpeg ts bytes, .result (resultWord .frameReady value)] ∧
          t.jpeg.jframeCnt = s.jpeg.jframeCnt + 1 ∧ bytes.length = total ∧
          (total < 2 ^ 24 → value.toNat = total) ∧
          ∀ a < total, ∀ x, (t.jpeg.rb (selectedBuffer s.jpeg ts)).data.read a = some x → bytes[a]? = some x) ∧
      ((∀ total, ¬ FrameTotal t.jpeg.slots m seq ts off len total) ∨ ¬ FragmentChain t.jpeg.slots seq ts →
        t.trace = s.trace ++ [.result 0x01000000] ∧ t.jpeg.jframeCnt = s.jpeg.jframeCnt)

/-- Handing out a frame retires nothing: the same fragment delivered again hands out the same frame again, and changes
only the frame counter, for a frame inside the capacity and the result's 24 bits (R173). That a byte nobody wrote is the
same in both frames is the model's choice, log entry 5. -/
def Obligations.JpegDuplicateHandsOutAgain : Prop :=
  ∀ (m : Bool) (seq len : BitVec 16) (ts off : Word) (d : List Word) (s t : State) (bytes : List Byte) (w : Word),
    Jpeg.Inv s.cfg s.jpeg → d.length = (len.toNat + 3) / 4 →
    exec (.jpegFrag m seq ts off len d) s = .next t → t.trace = s.trace ++ [.frameJpeg ts bytes, .result w] →
    bytes.length ≤ t.jpeg.jcap.toNat → bytes.length < 2 ^ 24 →
    ∃ u, exec (.jpegFrag m seq ts off len d) t = .next u ∧
      u.trace = t.trace ++ [.frameJpeg ts bytes, .result w] ∧
      u.jpeg = { t.jpeg with jframeCnt := t.jpeg.jframeCnt + 1 }

/-- Fragments of one frame in whatever order they arrive: at most 64 of them, none empty, covering the frame
contiguously with consecutive sequence numbers and one timestamp, the last one marked, with no decimation and no stale
slot of that timestamp, hand out the whole frame when the last missing one arrives, and nothing before (R175, which the spec derives from R168 to
R170). -/
def Obligations.JpegAnyOrderRebuildsFrame : Prop :=
  ∀ (parts : List JpegPart) (order : List Nat) (seq : BitVec 16) (ts : Word) (s : State),
    Jpeg.Inv s.cfg s.jpeg → s.cfg.params.decimate = 0 →
    (∀ b, holdsFrame (s.jpeg.rb b) ts → (s.jpeg.rb b).drop = false) →
    (∀ k, (slotAt s.jpeg.slots k).valid = true → (slotAt s.jpeg.slots k).ts ≠ ts) →
    1 ≤ parts.length → parts.length ≤ 64 →
    (∀ p ∈ parts, 0 < p.len.toNat ∧ p.data.length = (p.len.toNat + 3) / 4) →
    partOffset parts parts.length ≤ s.cfg.params.jpegMax →
    order.Perm (List.range parts.length) →
    ∃ t, deliverAll (order.map (partCommand parts seq ts)) s = .next t ∧
      t.trace = s.trace ++ List.replicate (parts.length - 1) (.result 0x01000000) ++
        [.frameJpeg ts (parts.flatMap fun p => payloadBytes p.len p.data),
          .result (resultWord .frameReady (BitVec.ofNat 24 (partOffset parts parts.length)))]

/-! ## The H.261 reassembler (43_h261_reassembler.md) -/

/-- H261.PKT with fewer than four payload bytes: counted as a runt, with no other effect (R194). -/
def Obligations.H261RuntDropped : Prop :=
  ∀ (m : Bool) (seq len : BitVec 16) (d : List Word) (s : State), len.toNat < 4 →
    exec (.h261Pkt m seq len d) s = .next { s with
      h261 := { s.h261 with runtCnt := s.h261.runtCnt + 1 }
      trace := s.trace ++ [.result 0x08000000] }

/-- The two layouts of the payload header, and the toggle: the header is read by the layout `rtp_bug` names, and where
that gives a GOB number above 12 by the other one, the toggle flipped (R191 to R193; the two layouts are the spec's from
general knowledge, 93_implementation_defined.md G1, G2). -/
def Obligations.H261HeaderParsed : Prop :=
  ∀ (bug : Bool) (hdr : Word),
    (parseHeader bug hdr).2 = toggleAfter bug hdr ∧
    (parseHeader bug hdr).1 =
      { sbit := hdr.extractLsb' 29 3
        ebit := hdr.extractLsb' 26 3
        i := hdr.getLsbD 25
        v := hdr.getLsbD 24
        gob := if toggleAfter bug hdr then hdr.extractLsb' 15 4 else hdr.extractLsb' 20 4
        mba := if toggleAfter bug hdr then hdr.extractLsb' 19 5 else hdr.extractLsb' 15 5
        quant := hdr.extractLsb' 10 5
        hmvd := hdr.extractLsb' 5 5
        vmvd := hdr.extractLsb' 0 5 }

/-- A packet without the marker bit, inside the ring, is stored at its index with its sequence number, header, fields and
bytes, replacing what was there; the frame starts or goes on as R195 says, and every other slot keeps what frame start
left (R190, R191, R195, R196, R199). -/
def Obligations.H261PacketStored : Prop :=
  ∀ (seq len : BitVec 16) (d : List Word) (s : State), H261.Inv s.cfg s.h261 →
    4 ≤ len.toNat → d.length = (len.toNat + 3) / 4 → ringIndex seq (firstAfter s seq) < s.cfg.params.ringSize →
    ∃ ring, exec (.h261Pkt false seq len d) s = .next { s with
        h261 := { s.h261 with
          ring := ring
          first := firstAfter s seq
          lastSeq := seq
          lastValid := true
          rtpBug := toggleAfter s.h261.rtpBug (d.getD 0 0) }
        trace := s.trace ++ [.result 0x01000000] } ∧
      tableGet ring (ringIndex seq (firstAfter s seq)) = some
        ⟨seq, d.getD 0 0, (parseHeader s.h261.rtpBug (d.getD 0 0)).1, (payloadBytes len d).drop 4⟩ ∧
      ∀ k, k ≠ ringIndex seq (firstAfter s seq) → tableGet ring k = tableGet (ringAfter s seq) k

/-- A packet whose index is at or past the ring's end is counted and not stored; with the marker bit the open frame is
abandoned, without it the frame stays open; its header is parsed and it is the latest packet all the same (R191, R195,
R198). -/
def Obligations.H261RingOverflows : Prop :=
  ∀ (m : Bool) (seq len : BitVec 16) (d : List Word) (s : State),
    4 ≤ len.toNat → d.length = (len.toNat + 3) / 4 → s.cfg.params.ringSize ≤ ringIndex seq (firstAfter s seq) →
    exec (.h261Pkt m seq len d) s = .next { s with
      h261 := { s.h261 with
        ring := if m then [] else ringAfter s seq
        first := if m then 0xFFFFFFFF else firstAfter s seq
        lastSeq := seq
        lastValid := true
        rtpBug := toggleAfter s.h261.rtpBug (d.getD 0 0)
        ovfCnt := s.h261.ovfCnt + 1 }
      trace := s.trace ++ [.result (if m then 0x07000001 else 0x07000000)] }

/-- A marker packet inside the ring with an index before its own empty: the frame is void, counted and closed, and no
frame is handed out (R197; the spec derives R200 from it). -/
def Obligations.H261GapVoidsFrame : Prop :=
  ∀ (seq len : BitVec 16) (d : List Word) (s : State), H261.Inv s.cfg s.h261 →
    4 ≤ len.toNat → d.length = (len.toNat + 3) / 4 → ringIndex seq (firstAfter s seq) < s.cfg.params.ringSize →
    (∃ j < ringIndex seq (firstAfter s seq), tableGet (ringAfter s seq) j = none) →
    exec (.h261Pkt true seq len d) s = .next { s with
      h261 := { s.h261 with
        ring := []
        first := 0xFFFFFFFF
        lastSeq := seq
        lastValid := true
        rtpBug := toggleAfter s.h261.rtpBug (d.getD 0 0)
        voidCnt := s.h261.voidCnt + 1 }
      trace := s.trace ++ [.result 0x06000000] }

/-- A marker packet with every index before its own stored: the frame is handed out, with the payloads and headers in
index order, the fields of the packet at index 0 and the EBIT of the marker packet, and then closed and counted (R197;
10_state.md R33). The count `draws` is the model's own, log entry 9. -/
def Obligations.H261MarkerHandsOutFrame : Prop :=
  ∀ (seq len : BitVec 16) (d : List Word) (before : List RingPkt) (s : State), H261.Inv s.cfg s.h261 →
    4 ≤ len.toNat → len.toNat ≤ s.cfg.params.maxPktBytes → d.length = (len.toNat + 3) / 4 →
    ringIndex seq (firstAfter s seq) < s.cfg.params.ringSize → before.length = ringIndex seq (firstAfter s seq) →
    (∀ j < before.length, tableGet (ringAfter s seq) j = before[j]?) →
    ∃ last p0 all f, last = ⟨seq, d.getD 0 0, (parseHeader s.h261.rtpBug (d.getD 0 0)).1, (payloadBytes len d).drop 4⟩ ∧
      all = before ++ [last] ∧ all.head? = some p0 ∧
      f = { first := firstAfter s seq
            npkt := ringIndex seq (firstAfter s seq) + 1
            bytes := all.flatMap (·.payload)
            sbit := p0.f.sbit, ebit := last.f.ebit, i := p0.f.i, v := p0.f.v, gob := p0.f.gob, mba := p0.f.mba
            quant := p0.f.quant, hmvd := p0.f.hmvd, vmvd := p0.f.vmvd
            hdrs := all.map (·.hdr) } ∧
      exec (.h261Pkt true seq len d) s = .next { s with
        h261 := { s.h261 with
          ring := []
          first := 0xFFFFFFFF
          lastSeq := seq
          lastValid := true
          rtpBug := toggleAfter s.h261.rtpBug (d.getD 0 0)
          hframeCnt := s.h261.hframeCnt + 1 }
        trace := s.trace ++ [.frameH261 f, .result (resultWord .frameReady (BitVec.ofNat 24 f.bytes.length))]
        draws := s.draws + 1 }

/-- After a first packet or a gap the ring restarts at that packet, and consecutive packets go to indices 1, 2, and so
on (R195, R196; the spec derives R201 from them). -/
def Obligations.H261GapRestartsRing : Prop :=
  ∀ (parts : List H261Part) (seq : BitVec 16) (s : State), frameRestarts s seq → 1 ≤ s.cfg.params.gap →
    (∀ p ∈ parts, H261Part.Whole s.cfg.params.maxPktBytes p) →
    1 ≤ parts.length → parts.length ≤ s.cfg.params.ringSize → seq.toNat + parts.length ≤ 65536 →
    ∃ t, deliverAll ((List.range parts.length).map (packetCommand parts false seq)) s = .next t ∧
      t.h261.first = seq.setWidth 32 ∧ t.trace = s.trace ++ List.replicate parts.length (.result 0x01000000) ∧
      ∀ k, (tableGet t.h261.ring k).map (fun p => (p.seq, p.hdr, p.payload)) =
        parts[k]?.map (fun p => (seq + BitVec.ofNat 16 k, p.hdr, p.bytes))

/-- A frame whose packets arrive in any order within the gap threshold of each other, after the packet that opens it and
before the marker packet, is handed out whole by the marker packet (R202, which the spec derives from R195, R197 and
R199). -/
def Obligations.H261ReorderedFrameHandedOut : Prop :=
  ∀ (parts : List H261Part) (order : List Nat) (seq : BitVec 16) (s : State), H261.Inv s.cfg s.h261 →
    frameRestarts s seq ∨ s.h261.first = 0xFFFFFFFF →
    (∀ p ∈ parts, H261Part.Whole s.cfg.params.maxPktBytes p) →
    1 ≤ parts.length → parts.length ≤ s.cfg.params.ringSize → seq.toNat + parts.length ≤ 65536 →
    order.Perm (List.range parts.length) → order.head? = some 0 → order.getLast? = some (parts.length - 1) →
    order.IsChain (withinGap s.cfg.params.gap) →
    ∃ t f, deliverAll (order.map (packetCommand parts true seq)) s = .next t ∧
      t.trace = s.trace ++ List.replicate (parts.length - 1) (.result 0x01000000) ++
        [.frameH261 f, .result (resultWord .frameReady (BitVec.ofNat 24 f.bytes.length))] ∧
      f.first = seq.setWidth 32 ∧ f.npkt = parts.length ∧ f.bytes = parts.flatMap H261Part.bytes ∧
      f.hdrs = parts.map H261Part.hdr ∧
      some f.sbit = parts.head?.map (·.hdr.extractLsb' 29 3) ∧
      some f.ebit = parts.getLast?.map (·.hdr.extractLsb' 26 3) ∧
      t.h261.first = 0xFFFFFFFF ∧ t.h261.ring = []

/-- The ring index of a packet is its distance from `first`, or `(0xFFFF - first) + SEQ` where it precedes it (R196;
90_conflicts.md C1). So a packet older than the one that opened the frame, within the gap threshold, is never stored at
a low index: where `65535 - (first - SEQ)` is past the ring's end it overflows and the frame keeps its packets (R203). -/
def Obligations.H261IndexAndOlderPackets : Prop :=
  (∀ seq first : BitVec 16, ringIndex seq (first.setWidth 32) =
    if first.toNat ≤ seq.toNat then seq.toNat - first.toNat else (0xFFFF - first.toNat) + seq.toNat) ∧
  ∀ (seq len : BitVec 16) (d : List Word) (s : State), H261.Inv s.cfg s.h261 → ¬ frameRestarts s seq →
    s.h261.first ≠ 0xFFFFFFFF → seq.toNat < s.h261.first.toNat → 4 ≤ len.toNat → d.length = (len.toNat + 3) / 4 →
    ringIndex seq s.h261.first = 65535 - (s.h261.first.toNat - seq.toNat) ∧
    (s.cfg.params.ringSize ≤ 65535 - (s.h261.first.toNat - seq.toNat) →
      ∃ t, exec (.h261Pkt false seq len d) s = .next t ∧ t.trace = s.trace ++ [.result 0x07000000] ∧
        t.h261.ring = s.h261.ring ∧ t.h261.first = s.h261.first ∧ t.h261.ovfCnt = s.h261.ovfCnt + 1)
end

