-- ==== Sys2Proof/Laws/Decode.lean ====
section
/-! SUPPORT. The laws of the encoding tables: what the decoder's fields read from the encoder's words, bit by bit, and
the inverse. -/

namespace Sys2Proof

/-! Each made-up word, bit by bit (30_encoding.md R82, R83). -/

theorem getLsbD_headerWord (op : Opcode) (f : BitVec 24) (i : Nat) :
    (headerWord op f).getLsbD i = if i < 24 then f.getLsbD i else op.code.getLsbD (i - 24) :=
  BitVec.getLsbD_append

theorem getLsbD_fieldsM16 (m : Bool) (l : BitVec 16) (i : Nat) :
    (fieldsM16 m l).getLsbD i = if i < 16 then l.getLsbD i else if i = 23 then m else false := by
  have h : (fieldsM16 m l).getLsbD i = if i < 23 then (0#7 ++ l).getLsbD i else (BitVec.ofBool m).getLsbD (i - 23) :=
    BitVec.getLsbD_append
  rw [h, BitVec.getLsbD_append]
  by_cases h1 : i < 16
  · simp [h1, show i < 23 by omega]
  · by_cases h2 : i < 23
    · simp [h1, h2, show i ≠ 23 by omega]
    · by_cases h3 : i = 23
      · simp [h3]
      · simp [h1, h2, h3, show i - 23 ≠ 0 by omega]

theorem getLsbD_lenWord (l : BitVec 16) (i : Nat) :
    (lenWord l).getLsbD i = if i < 16 then l.getLsbD i else false := by
  have h : (lenWord l).getLsbD i = if i < 16 then l.getLsbD i else (0#16).getLsbD (i - 16) := BitVec.getLsbD_append
  simpa using h

theorem getLsbD_gobFields (gn : BitVec 4) (gq : BitVec 5) (i : Nat) :
    (0#15 ++ (gq ++ gn) : BitVec 24).getLsbD i =
      if i < 4 then gn.getLsbD i else if i < 9 then gq.getLsbD (i - 4) else false := by
  have h : (0#15 ++ (gq ++ gn) : BitVec 24).getLsbD i =
      if i < 9 then (gq ++ gn).getLsbD i else (0#15).getLsbD (i - 9) := BitVec.getLsbD_append
  rw [h, BitVec.getLsbD_append]
  by_cases h1 : i < 4
  · simp [h1, show i < 9 by omega]
  · by_cases h2 : i < 9 <;> simp [h1, h2]

theorem getLsbD_nFields (n : BitVec 6) (i : Nat) :
    (0#18 ++ n : BitVec 24).getLsbD i = if i < 6 then n.getLsbD i else false := by
  have h : (0#18 ++ n : BitVec 24).getLsbD i = if i < 6 then n.getLsbD i else (0#18).getLsbD (i - 6) :=
    BitVec.getLsbD_append
  simpa using h

theorem getLsbD_mFields (m : Bool) (i : Nat) :
    (BitVec.ofBool m ++ 0#23 : BitVec 24).getLsbD i = if i = 23 then m else false := by
  have h : (BitVec.ofBool m ++ 0#23 : BitVec 24).getLsbD i =
      if i < 23 then (0#23).getLsbD i else (BitVec.ofBool m).getLsbD (i - 23) := BitVec.getLsbD_append
  rw [h]
  by_cases h1 : i < 23
  · simp [h1, show i ≠ 23 by omega]
  · by_cases h2 : i = 23
    · simp [h2]
    · simp [h1, h2, show i - 23 ≠ 0 by omega]

/-! The fields the decoder reads from the encoder's words. -/

/-- The opcode of a header word is the one it was made with (30_encoding.md R81). -/
@[simp] theorem opcodeOf_headerWord (op : Opcode) (f : BitVec 24) : opcodeOf (headerWord op f) = some op := by
  have h : (headerWord op f).extractLsb' 24 8 = op.code := by
    refine BitVec.eq_of_getLsbD_eq fun i hi => ?_
    simp [getLsbD_headerWord, hi]
  cases op <;> simp [opcodeOf, h, opcodeMap, Opcode.code]

@[simp] theorem fieldN_headerWord (op : Opcode) (n : BitVec 6) : fieldN (headerWord op (0#18 ++ n)) = n := by
  refine BitVec.eq_of_getLsbD_eq fun i hi => ?_
  simp only [fieldN, BitVec.getLsbD_extractLsb', getLsbD_headerWord, getLsbD_nFields]
  simp [hi, show i < 24 by omega]

@[simp] theorem fieldM_headerWord_ff (op : Opcode) (m : Bool) :
    fieldM (headerWord op (BitVec.ofBool m ++ 0#23)) = m := by
  simp only [fieldM, getLsbD_headerWord, getLsbD_mFields]; simp

@[simp] theorem fieldM_headerWord (op : Opcode) (m : Bool) (l : BitVec 16) :
    fieldM (headerWord op (fieldsM16 m l)) = m := by
  simp only [fieldM, getLsbD_headerWord, getLsbD_fieldsM16]; simp

@[simp] theorem fieldLow16_headerWord (op : Opcode) (m : Bool) (l : BitVec 16) :
    fieldLow16 (headerWord op (fieldsM16 m l)) = l := by
  refine BitVec.eq_of_getLsbD_eq fun i hi => ?_
  simp only [fieldLow16, BitVec.getLsbD_extractLsb', getLsbD_headerWord, getLsbD_fieldsM16]
  simp [hi, show i < 24 by omega]

@[simp] theorem fieldGn_headerWord (op : Opcode) (gn : BitVec 4) (gq : BitVec 5) :
    fieldGn (headerWord op (0#15 ++ (gq ++ gn))) = gn := by
  refine BitVec.eq_of_getLsbD_eq fun i hi => ?_
  simp only [fieldGn, BitVec.getLsbD_extractLsb', getLsbD_headerWord, getLsbD_gobFields]
  simp [hi, show i < 24 by omega]

@[simp] theorem fieldGq_headerWord (op : Opcode) (gn : BitVec 4) (gq : BitVec 5) :
    fieldGq (headerWord op (0#15 ++ (gq ++ gn))) = gq := by
  refine BitVec.eq_of_getLsbD_eq fun i hi => ?_
  simp only [fieldGq, BitVec.getLsbD_extractLsb', getLsbD_headerWord, getLsbD_gobFields]
  simp [hi, show 4 + i < 24 by omega, show 4 + i < 9 by omega]

@[simp] theorem fieldLow16_lenWord (l : BitVec 16) : fieldLow16 (lenWord l) = l := by
  refine BitVec.eq_of_getLsbD_eq fun i hi => ?_
  simp only [fieldLow16, BitVec.getLsbD_extractLsb', getLsbD_lenWord]
  simp [hi]

@[simp] theorem high_lenWord (l : BitVec 16) : (lenWord l).extractLsb' 16 16 = 0 := by
  refine BitVec.eq_of_getLsbD_eq fun i hi => ?_
  simp only [BitVec.getLsbD_extractLsb', getLsbD_lenWord]
  simp

/-! The inverse: a checked word is the one the encoder makes of its fields. -/

/-- A word whose opcode is in the map has that opcode's code in its top byte (30_encoding.md R81). -/
theorem code_of_opcodeOf {h : Word} {op : Opcode} (e : opcodeOf h = some op) : h.extractLsb' 24 8 = op.code := by
  have := List.find?_some e
  exact (by simpa using this : op.code = _).symm

/-- A word with a mapped opcode is that opcode's header word of its 24 field bits. -/
theorem eq_headerWord_of_opcodeOf {h : Word} {op : Opcode} (e : opcodeOf h = some op) :
    h = headerWord op (h.setWidth 24) := by
  refine BitVec.eq_of_getLsbD_eq fun i hi => ?_
  rw [getLsbD_headerWord, ← code_of_opcodeOf e]
  by_cases h1 : i < 24
  · simp [h1]
  · simp [h1, show i - 24 < 8 by omega, show 24 + (i - 24) = i by omega]

/-- No opcode means no command starts with the byte (30_encoding.md R90). -/
theorem opcodeOf_eq_none {h : Word} : opcodeOf h = none ↔ ∀ op : Opcode, h.extractLsb' 24 8 ≠ op.code := by
  unfold opcodeOf
  rw [List.find?_eq_none]
  constructor
  · intro hn op heq
    have := hn op (by cases op <;> decide)
    simp [heq] at this
  · intro hn op _
    simpa using fun hc => hn op hc.symm

/-- A LENW word with no reserved bit set is the one its length makes (30_encoding.md R83, R89). -/
theorem eq_lenWord {lw : Word} (h : lw.extractLsb' 16 16 = 0) : lw = lenWord (fieldLow16 lw) := by
  refine BitVec.eq_of_getLsbD_eq fun i hi => ?_
  rw [getLsbD_lenWord]
  by_cases h1 : i < 16
  · simp [h1, fieldLow16]
  · have := congrArg (·.getLsbD (i - 16)) h
    simpa [h1, show i - 16 < 16 by omega, show 16 + (i - 16) = i by omega] using this

/-- A format's reserved bits are clear exactly where the word is zero at each of them (30_encoding.md R82). -/
theorem reserved_clear_iff {h : Word} {f : Format} :
    h &&& f.reserved = 0 ↔ ∀ i, f.reserved.getLsbD i = true → h.getLsbD i = false := by
  constructor
  · intro hz i hi
    have := congrArg (·.getLsbD i) hz
    simpa [hi] using this
  · intro hz
    refine BitVec.eq_of_getLsbD_eq fun i _ => ?_
    by_cases hi : f.reserved.getLsbD i = true
    · simp [hz i hi]
    · simp [hi]

/-- The reserved bits of a header lie below the opcode (30_encoding.md R82). -/
theorem reserved_below_opcode {f : Format} {k : Nat} (h : f.reserved.getLsbD k = true) : k < 24 := by
  have all : ∀ j : Fin 32, f.reserved.getLsbD j = true → j.1 < 24 := by cases f <;> decide
  exact all ⟨k, BitVec.lt_of_getLsbD h⟩ h

/-- A header word made with clear reserved bits has clear reserved bits. -/
theorem reserved_headerWord {op : Opcode} {g : BitVec 24}
    (hg : ∀ k, op.format.reserved.getLsbD k = true → g.getLsbD k = false) :
    headerWord op g &&& op.format.reserved = 0 := by
  refine reserved_clear_iff.2 fun k hk => ?_
  rw [getLsbD_headerWord, if_pos (reserved_below_opcode hk)]
  exact hg k hk

/-! Which bits each format reserves (30_encoding.md R82). -/

theorem reserved_fp {k : Nat} (h : Format.fp.reserved.getLsbD k = true) : 6 ≤ k := by
  have all : ∀ j : Fin 32, Format.fp.reserved.getLsbD j = true → 6 ≤ j.1 := by decide
  exact all ⟨k, BitVec.lt_of_getLsbD h⟩ h

theorem reserved_ff {k : Nat} (h : Format.ff.reserved.getLsbD k = true) : k ≠ 23 := by
  rintro rfl; exact absurd h (by decide)

theorem reserved_fg {k : Nat} (h : Format.fg.reserved.getLsbD k = true) : 9 ≤ k := by
  have all : ∀ j : Fin 32, Format.fg.reserved.getLsbD j = true → 9 ≤ j.1 := by decide
  exact all ⟨k, BitVec.lt_of_getLsbD h⟩ h

theorem reserved_fm {k : Nat} (h : Format.fm.reserved.getLsbD k = true) : 16 ≤ k := by
  have all : ∀ j : Fin 32, Format.fm.reserved.getLsbD j = true → 16 ≤ j.1 := by decide
  exact all ⟨k, BitVec.lt_of_getLsbD h⟩ h

theorem reserved_fs {k : Nat} (h : Format.fs.reserved.getLsbD k = true) : 16 ≤ k ∧ k ≠ 23 := by
  have all : ∀ j : Fin 32, Format.fs.reserved.getLsbD j = true → 16 ≤ j.1 ∧ j.1 ≠ 23 := by decide
  exact all ⟨k, BitVec.lt_of_getLsbD h⟩ h

/-- The encoder sets no reserved bit of a header (30_encoding.md R89). -/
theorem reserved_header (i : Instr) (op : Opcode) (h : opcodeOf i.header = some op) :
    i.header &&& op.format.reserved = 0 := by
  cases i <;> (simp only [Instr.header, opcodeOf_headerWord, Option.some.injEq] at h ⊢; subst h)
  case nop => exact reserved_headerWord fun k _ => by simp
  case srst => exact reserved_headerWord fun k _ => by simp
  case encBegin => exact reserved_headerWord fun k _ => by simp
  case bpPut n v =>
    refine reserved_headerWord fun k hk => ?_
    rw [getLsbD_nFields, if_neg (Nat.not_lt.2 (reserved_fp hk))]
  case bpFlush m =>
    refine reserved_headerWord fun k hk => ?_
    rw [getLsbD_mFields, if_neg (reserved_ff hk)]
  case encGob gn gq =>
    have h9 : ∀ k, Opcode.encGob.format.reserved.getLsbD k = true → 9 ≤ k := fun k hk => reserved_fg hk
    refine reserved_headerWord fun k hk => ?_
    rw [getLsbD_gobFields, if_neg (by have := h9 k hk; omega), if_neg (Nat.not_lt.2 (h9 k hk))]
  case encMb n d =>
    refine reserved_headerWord fun k hk => ?_
    rw [getLsbD_fieldsM16, if_neg (Nat.not_lt.2 (reserved_fm hk))]; simp
  case jpegFrag m seq ts off len d =>
    refine reserved_headerWord fun k hk => ?_
    rw [getLsbD_fieldsM16, if_neg (Nat.not_lt.2 (reserved_fs hk).1), if_neg (reserved_fs hk).2]
  case h261Pkt m seq len d =>
    refine reserved_headerWord fun k hk => ?_
    rw [getLsbD_fieldsM16, if_neg (Nat.not_lt.2 (reserved_fs hk).1), if_neg (reserved_fs hk).2]

/-- A well-formed command's header passes the checks of 30_encoding.md R88. -/
theorem headerFault_header {maxPkt : Nat} {i : Instr} (h : i.wellFormed maxPkt = true) :
    headerFault i.header = none := by
  have hz := reserved_header i
  have hn : ∀ n v, i = .bpPut n v → n.toNat ≤ 32 := by
    rintro n v rfl
    simpa [Instr.wellFormed] using h
  unfold headerFault
  cases i <;> simp only [Instr.header, opcodeOf_headerWord] at hz ⊢ <;> simp only [hz _ rfl] <;> simp
  case bpPut n v => exact hn n v rfl

end Sys2Proof
end

