-- ==== Sys2Proof/Laws/Memory.lean ====
section
/-! SUPPORT. The laws of the sparse tables and byte memories: reading after writing, the canonical form kept by every
operation, and the bytes read back. -/

namespace Sys2Proof.Machine

variable {α : Type}

/-- A table with all keys above `k` does not list `k`. -/
theorem tableGet_of_lt {m : List (Nat × α)} {k : Nat} (h : ∀ e ∈ m, k < e.1) : tableGet m k = none := by
  cases m with
  | nil => rfl
  | cons e rest =>
    have hk : k < e.1 := h e (by simp)
    simp [tableGet, Nat.ne_of_gt hk, hk]

/-- In a canonical table, what is listed is what is found. -/
theorem tableGet_eq_some_iff {m : List (Nat × α)} (h : Rising m) {k : Nat} {v : α} :
    tableGet m k = some v ↔ (k, v) ∈ m := by
  induction m with
  | nil => simp [tableGet]
  | cons e rest ih =>
    obtain ⟨a, u⟩ := e
    obtain ⟨hlt, hr⟩ := List.pairwise_cons.1 h
    by_cases hak : a = k
    · subst hak
      have hnot : (a, v) ∉ rest := fun hm => Nat.lt_irrefl _ (hlt (a, v) hm)
      simp [tableGet, hnot, eq_comm]
    · by_cases hka : k < a
      · have hnot : (k, v) ∉ rest := fun hm => Nat.lt_asymm hka (hlt (k, v) hm)
        simp [tableGet, hak, hka, hnot, Ne.symm hak]
      · simp [tableGet, hak, hka, ih hr, Ne.symm hak]

/-- Reading the key just set gives the value set. -/
theorem tableGet_tableSet_same (m : List (Nat × α)) (k : Nat) (v : α) : tableGet (tableSet m k v) k = some v := by
  induction m with
  | nil => simp [tableSet, tableGet]
  | cons e rest ih =>
    obtain ⟨a, u⟩ := e
    by_cases h1 : k < a
    · simp [tableSet, tableGet, h1]
    · by_cases h2 : k = a
      · simp [tableSet, tableGet, h2]
      · simp [tableSet, tableGet, h1, h2, Ne.symm h2, ih]

/-- Setting a key leaves every other key as it was. -/
theorem tableGet_tableSet_other {m : List (Nat × α)} {k x : Nat} {v : α} (h : Rising m) (hx : x ≠ k) :
    tableGet (tableSet m k v) x = tableGet m x := by
  induction m with
  | nil => simp [tableSet, tableGet, Ne.symm hx]
  | cons e rest ih =>
    obtain ⟨a, u⟩ := e
    obtain ⟨hlt, hr⟩ := List.pairwise_cons.1 h
    by_cases h1 : k < a
    · by_cases h3 : x < k
      · simp [tableSet, tableGet, h1, h3, Ne.symm hx, Nat.ne_of_gt (Nat.lt_trans h3 h1), Nat.lt_trans h3 h1]
      · simp [tableSet, tableGet, h1, h3, Ne.symm hx]
    · by_cases h2 : k = a
      · subst h2
        by_cases h3 : x < k
        · simp [tableSet, tableGet, h3, Ne.symm hx]
        · simp [tableSet, tableGet, h3, Ne.symm hx]
      · simp [tableSet, tableGet, h1, h2, ih hr]

/-- The entries of a table after one key is set are its old ones and the new one. -/
theorem mem_tableSet {m : List (Nat × α)} {k : Nat} {v : α} {e : Nat × α} (h : e ∈ tableSet m k v) :
    e = (k, v) ∨ e ∈ m := by
  induction m with
  | nil => simpa [tableSet] using h
  | cons f rest ih =>
    obtain ⟨a, u⟩ := f
    unfold tableSet at h
    split at h
    · simpa using h
    · split at h
      · rcases List.mem_cons.1 h with h | h
        · exact .inl h
        · exact .inr (List.mem_cons_of_mem _ h)
      · rcases List.mem_cons.1 h with h | h
        · exact .inr (h ▸ List.mem_cons_self)
        · exact (ih h).imp id (List.mem_cons_of_mem _)

/-- Setting a key keeps the canonical form. -/
theorem rising_tableSet {m : List (Nat × α)} {k : Nat} {v : α} (h : Rising m) : Rising (tableSet m k v) := by
  induction m with
  | nil => simp [tableSet, Rising]
  | cons e rest ih =>
    obtain ⟨a, u⟩ := e
    obtain ⟨hlt, hr⟩ := List.pairwise_cons.1 h
    unfold tableSet
    split
    · next hka =>
      refine List.pairwise_cons.2 ⟨fun x hx => ?_, h⟩
      rcases List.mem_cons.1 hx with rfl | hx
      · exact hka
      · exact Nat.lt_trans hka (hlt _ hx)
    · split
      · next hka => exact List.pairwise_cons.2 ⟨fun x hx => hka ▸ hlt x hx, hr⟩
      · next h1 h2 =>
        refine List.pairwise_cons.2 ⟨fun x hx => ?_, ih hr⟩
        rcases mem_tableSet hx with rfl | hx
        · show a < k; omega
        · exact hlt _ hx

/-- Two canonical tables that answer every key alike are equal. -/
theorem Rising.ext {m n : List (Nat × α)} (hm : Rising m) (hn : Rising n)
    (h : ∀ k, tableGet m k = tableGet n k) : m = n := by
  have hs : ∀ {l : List (Nat × α)}, Rising l → l.Nodup := fun hl =>
    List.Pairwise.imp (fun {x y} hxy (heq : x = y) => Nat.lt_irrefl y.1 (heq ▸ hxy)) hl
  refine List.Perm.eq_of_pairwise (le := fun x y => x.1 < y.1) (fun x y _ _ hxy hyx => absurd hxy (Nat.lt_asymm hyx))
    hm hn ((List.perm_ext_iff_of_nodup (hs hm) (hs hn)).2 fun e => ?_)
  obtain ⟨k, v⟩ := e
  rw [← tableGet_eq_some_iff hm, ← tableGet_eq_some_iff hn, h]

/-! Byte memories. -/

/-- Writing a byte keeps the canonical form. -/
theorem Memory.wf_write {m : Memory} {a : Nat} {b : Byte} (h : m.wf) : (m.write a b).wf := rising_tableSet h

/-- Writing bytes keeps the canonical form. -/
theorem Memory.wf_writeBytes {m : Memory} {a : Nat} {bs : List Byte} (h : m.wf) : (m.writeBytes a bs).wf := by
  induction bs generalizing m a with
  | nil => exact h
  | cons b bs ih => exact ih (wf_write h)

/-- What a memory holds after bytes were written: they at their addresses, the old bytes elsewhere. -/
theorem Memory.read_writeBytes {m : Memory} {a : Nat} {bs : List Byte} (h : m.wf) (x : Nat) :
    (m.writeBytes a bs).read x = if a ≤ x ∧ x < a + bs.length then bs[x - a]? else m.read x := by
  induction bs generalizing m a with
  | nil => simp only [writeBytes, List.length_nil, Nat.add_zero]; rw [if_neg (by omega)]
  | cons b bs ih =>
    simp only [writeBytes, ih (wf_write h), List.length_cons]
    by_cases hx : x = a
    · subst hx
      rw [if_neg (by omega), if_pos (by omega)]
      simpa [write, read] using tableGet_tableSet_same m x b
    · by_cases hin : a + 1 ≤ x ∧ x < a + 1 + bs.length
      · rw [if_pos hin, if_pos (by omega)]
        obtain ⟨d, rfl⟩ : ∃ d, x = a + 1 + d := ⟨x - (a + 1), by omega⟩
        rw [show a + 1 + d - (a + 1) = d by omega, show a + 1 + d - a = d + 1 by omega, List.getElem?_cons_succ]
      · rw [if_neg hin, if_neg (by omega)]
        exact tableGet_tableSet_other h hx

/-- The bytes written lie inside the range written, the others were there before. -/
theorem Memory.mem_writeBytes {m : Memory} {a : Nat} {bs : List Byte} {c : Host.Cell} (h : c ∈ m.writeBytes a bs) :
    (a ≤ c.1 ∧ c.1 < a + bs.length) ∨ c ∈ m := by
  induction bs generalizing m a with
  | nil => exact .inr h
  | cons b bs ih =>
    rcases ih h with h | h
    · simp only [List.length_cons]; omega
    · rcases mem_tableSet h with rfl | h
      · simp only [List.length_cons]; omega
      · exact .inr h

/-- Writing the same bytes at the same place again changes nothing. -/
theorem Memory.writeBytes_again {m : Memory} {a : Nat} {bs : List Byte} (h : m.wf) :
    (m.writeBytes a bs).writeBytes a bs = m.writeBytes a bs := by
  refine Rising.ext (wf_writeBytes (wf_writeBytes h)) (wf_writeBytes h) fun k => ?_
  have h2 := read_writeBytes (a := a) (bs := bs) (wf_writeBytes (a := a) (bs := bs) h) k
  have h1 := read_writeBytes (a := a) (bs := bs) h k
  simp only [read] at h1 h2
  rw [h2, h1]; split <;> rfl

@[simp] theorem Memory.length_readFront (f : Nat → Byte) (m : Memory) (n : Nat) : (m.readFront f n).length = n := by
  simp [readFront]

theorem Memory.getElem?_readFront (f : Nat → Byte) (m : Memory) (n k : Nat) :
    (m.readFront f n)[k]? = if k < n then some ((m.read k).getD (f k)) else none := by
  by_cases h : k < n <;> simp [readFront, h]

/-- The front of a memory depends on the bytes there alone. -/
theorem Memory.readFront_congr {f g : Nat → Byte} {m m' : Memory} {n : Nat}
    (h : ∀ k < n, (m.read k).getD (f k) = (m'.read k).getD (g k)) : m.readFront f n = m'.readFront g n := by
  simp only [readFront]
  exact List.map_congr_left fun k hk => h k (List.mem_range.1 hk)

end Sys2Proof.Machine
end

