-- ==== Sys2Proof/Laws/State.lean ====
section
/-! SUPPORT. One lemma for each field of State and each operation that updates it, true by rfl, so that no later proof
unfolds a record update. -/

namespace Sys2Proof.Machine

variable (s : State)

/-! Appending an event changes the trace alone (10_state.md R35). -/

@[simp] theorem emit_cfg (e : Event) : (emit e s).cfg = s.cfg := rfl
@[simp] theorem emit_cp (e : Event) : (emit e s).cp = s.cp := rfl
@[simp] theorem emit_pend (e : Event) : (emit e s).pend = s.pend := rfl
@[simp] theorem emit_flt (e : Event) : (emit e s).flt = s.flt := rfl
@[simp] theorem emit_bp (e : Event) : (emit e s).bp = s.bp := rfl
@[simp] theorem emit_enc (e : Event) : (emit e s).enc = s.enc := rfl
@[simp] theorem emit_jpeg (e : Event) : (emit e s).jpeg = s.jpeg := rfl
@[simp] theorem emit_h261 (e : Event) : (emit e s).h261 = s.h261 := rfl
@[simp] theorem emit_input (e : Event) : (emit e s).input = s.input := rfl
@[simp] theorem emit_trace (e : Event) : (emit e s).trace = s.trace ++ [e] := rfl
@[simp] theorem emit_csrOut (e : Event) : (emit e s).csrOut = s.csrOut := rfl
@[simp] theorem emit_epoch (e : Event) : (emit e s).epoch = s.epoch := rfl
@[simp] theorem emit_draws (e : Event) : (emit e s).draws = s.draws := rfl

/-! Appending a result word changes the trace alone (10_state.md R31). -/

@[simp] theorem emitResult_cfg (c : ResultCode) (v : BitVec 24) : (emitResult c v s).cfg = s.cfg := rfl
@[simp] theorem emitResult_cp (c : ResultCode) (v : BitVec 24) : (emitResult c v s).cp = s.cp := rfl
@[simp] theorem emitResult_pend (c : ResultCode) (v : BitVec 24) : (emitResult c v s).pend = s.pend := rfl
@[simp] theorem emitResult_flt (c : ResultCode) (v : BitVec 24) : (emitResult c v s).flt = s.flt := rfl
@[simp] theorem emitResult_bp (c : ResultCode) (v : BitVec 24) : (emitResult c v s).bp = s.bp := rfl
@[simp] theorem emitResult_enc (c : ResultCode) (v : BitVec 24) : (emitResult c v s).enc = s.enc := rfl
@[simp] theorem emitResult_jpeg (c : ResultCode) (v : BitVec 24) : (emitResult c v s).jpeg = s.jpeg := rfl
@[simp] theorem emitResult_h261 (c : ResultCode) (v : BitVec 24) : (emitResult c v s).h261 = s.h261 := rfl
@[simp] theorem emitResult_input (c : ResultCode) (v : BitVec 24) : (emitResult c v s).input = s.input := rfl
@[simp] theorem emitResult_trace (c : ResultCode) (v : BitVec 24) : (emitResult c v s).trace = s.trace ++ [.result (resultWord c v)] := rfl
@[simp] theorem emitResult_csrOut (c : ResultCode) (v : BitVec 24) : (emitResult c v s).csrOut = s.csrOut := rfl
@[simp] theorem emitResult_epoch (c : ResultCode) (v : BitVec 24) : (emitResult c v s).epoch = s.epoch := rfl
@[simp] theorem emitResult_draws (c : ResultCode) (v : BitVec 24) : (emitResult c v s).draws = s.draws := rfl

/-! Appending a result word with a count changes the trace alone (10_state.md R31). -/

@[simp] theorem emitCount_cfg (c : ResultCode) (n : Nat) : (emitCount c n s).cfg = s.cfg := rfl
@[simp] theorem emitCount_cp (c : ResultCode) (n : Nat) : (emitCount c n s).cp = s.cp := rfl
@[simp] theorem emitCount_pend (c : ResultCode) (n : Nat) : (emitCount c n s).pend = s.pend := rfl
@[simp] theorem emitCount_flt (c : ResultCode) (n : Nat) : (emitCount c n s).flt = s.flt := rfl
@[simp] theorem emitCount_bp (c : ResultCode) (n : Nat) : (emitCount c n s).bp = s.bp := rfl
@[simp] theorem emitCount_enc (c : ResultCode) (n : Nat) : (emitCount c n s).enc = s.enc := rfl
@[simp] theorem emitCount_jpeg (c : ResultCode) (n : Nat) : (emitCount c n s).jpeg = s.jpeg := rfl
@[simp] theorem emitCount_h261 (c : ResultCode) (n : Nat) : (emitCount c n s).h261 = s.h261 := rfl
@[simp] theorem emitCount_input (c : ResultCode) (n : Nat) : (emitCount c n s).input = s.input := rfl
@[simp] theorem emitCount_trace (c : ResultCode) (n : Nat) : (emitCount c n s).trace = s.trace ++ [.result (resultWord c (BitVec.ofNat 24 n))] := rfl
@[simp] theorem emitCount_csrOut (c : ResultCode) (n : Nat) : (emitCount c n s).csrOut = s.csrOut := rfl
@[simp] theorem emitCount_epoch (c : ResultCode) (n : Nat) : (emitCount c n s).epoch = s.epoch := rfl
@[simp] theorem emitCount_draws (c : ResultCode) (n : Nat) : (emitCount c n s).draws = s.draws := rfl

/-! Fault entry changes the fault registers, `pend` and the trace alone (60_exceptions.md R241). -/

@[simp] theorem raiseFault_cfg (c : FaultCode) (hdr p0 : Word) : (raiseFault c hdr p0 s).cfg = s.cfg := rfl
@[simp] theorem raiseFault_cp (c : FaultCode) (hdr p0 : Word) : (raiseFault c hdr p0 s).cp = s.cp := rfl
@[simp] theorem raiseFault_pend (c : FaultCode) (hdr p0 : Word) : (raiseFault c hdr p0 s).pend = [] := rfl
@[simp] theorem raiseFault_flt (c : FaultCode) (hdr p0 : Word) : (raiseFault c hdr p0 s).flt = ⟨true, c.code, hdr, p0⟩ := rfl
@[simp] theorem raiseFault_bp (c : FaultCode) (hdr p0 : Word) : (raiseFault c hdr p0 s).bp = s.bp := rfl
@[simp] theorem raiseFault_enc (c : FaultCode) (hdr p0 : Word) : (raiseFault c hdr p0 s).enc = s.enc := rfl
@[simp] theorem raiseFault_jpeg (c : FaultCode) (hdr p0 : Word) : (raiseFault c hdr p0 s).jpeg = s.jpeg := rfl
@[simp] theorem raiseFault_h261 (c : FaultCode) (hdr p0 : Word) : (raiseFault c hdr p0 s).h261 = s.h261 := rfl
@[simp] theorem raiseFault_input (c : FaultCode) (hdr p0 : Word) : (raiseFault c hdr p0 s).input = s.input := rfl
@[simp] theorem raiseFault_trace (c : FaultCode) (hdr p0 : Word) : (raiseFault c hdr p0 s).trace = s.trace ++ [.result (resultWord .fault (c.code.setWidth 24))] := rfl
@[simp] theorem raiseFault_csrOut (c : FaultCode) (hdr p0 : Word) : (raiseFault c hdr p0 s).csrOut = s.csrOut := rfl
@[simp] theorem raiseFault_epoch (c : FaultCode) (hdr p0 : Word) : (raiseFault c hdr p0 s).epoch = s.epoch := rfl
@[simp] theorem raiseFault_draws (c : FaultCode) (hdr p0 : Word) : (raiseFault c hdr p0 s).draws = s.draws := rfl

/-! The reset gives every element its reset value and keeps the configuration and the ports (70_reset_and_hazards.md R270). -/

@[simp] theorem performReset_cfg : (performReset s).cfg = s.cfg := rfl
@[simp] theorem performReset_cp : (performReset s).cp = 0 := rfl
@[simp] theorem performReset_pend : (performReset s).pend = [] := rfl
@[simp] theorem performReset_flt : (performReset s).flt = FaultRegs.reset := rfl
@[simp] theorem performReset_bp : (performReset s).bp = Packer.reset := rfl
@[simp] theorem performReset_enc : (performReset s).enc = Framer.reset := rfl
@[simp] theorem performReset_jpeg : (performReset s).jpeg = Jpeg.reset s.cfg := rfl
@[simp] theorem performReset_h261 : (performReset s).h261 = H261.reset := rfl
@[simp] theorem performReset_input : (performReset s).input = s.input := rfl
@[simp] theorem performReset_trace : (performReset s).trace = s.trace := rfl
@[simp] theorem performReset_csrOut : (performReset s).csrOut = s.csrOut := rfl
@[simp] theorem performReset_epoch : (performReset s).epoch = s.epoch + 1 := rfl
@[simp] theorem performReset_draws : (performReset s).draws = s.draws := rfl

/-! Handing out a frame changes the trace and the draw counter alone (10_state.md R35). -/

@[simp] theorem emitFrame_cfg (e : Event) (n : Nat) : (emitFrame e n s).cfg = s.cfg := rfl
@[simp] theorem emitFrame_cp (e : Event) (n : Nat) : (emitFrame e n s).cp = s.cp := rfl
@[simp] theorem emitFrame_pend (e : Event) (n : Nat) : (emitFrame e n s).pend = s.pend := rfl
@[simp] theorem emitFrame_flt (e : Event) (n : Nat) : (emitFrame e n s).flt = s.flt := rfl
@[simp] theorem emitFrame_bp (e : Event) (n : Nat) : (emitFrame e n s).bp = s.bp := rfl
@[simp] theorem emitFrame_enc (e : Event) (n : Nat) : (emitFrame e n s).enc = s.enc := rfl
@[simp] theorem emitFrame_jpeg (e : Event) (n : Nat) : (emitFrame e n s).jpeg = s.jpeg := rfl
@[simp] theorem emitFrame_h261 (e : Event) (n : Nat) : (emitFrame e n s).h261 = s.h261 := rfl
@[simp] theorem emitFrame_input (e : Event) (n : Nat) : (emitFrame e n s).input = s.input := rfl
@[simp] theorem emitFrame_trace (e : Event) (n : Nat) : (emitFrame e n s).trace = s.trace ++ [e] ++ [.result (resultWord .frameReady (lengthField s.draws n))] := rfl
@[simp] theorem emitFrame_csrOut (e : Event) (n : Nat) : (emitFrame e n s).csrOut = s.csrOut := rfl
@[simp] theorem emitFrame_epoch (e : Event) (n : Nat) : (emitFrame e n s).epoch = s.epoch := rfl
@[simp] theorem emitFrame_draws (e : Event) (n : Nat) : (emitFrame e n s).draws = s.draws + 1 := rfl

/-! A buffer of the JPEG reassembler read after one is replaced. -/

@[simp] theorem Jpeg.rb_setRb_same (j : Jpeg) (b : BufIx) (x : JpegBuf) : (j.setRb b x).rb b = x := by cases b <;> rfl
theorem Jpeg.rb_setRb_other {j : Jpeg} {b c : BufIx} {x : JpegBuf} (h : c ≠ b) : (j.setRb b x).rb c = j.rb c := by
  cases b <;> cases c <;> first | rfl | exact absurd rfl h
@[simp] theorem Jpeg.setRb_slots (j : Jpeg) (b : BufIx) (x : JpegBuf) : (j.setRb b x).slots = j.slots := by cases b <;> rfl
@[simp] theorem Jpeg.setRb_jcap (j : Jpeg) (b : BufIx) (x : JpegBuf) : (j.setRb b x).jcap = j.jcap := by cases b <;> rfl
@[simp] theorem Jpeg.setRb_badoffCnt (j : Jpeg) (b : BufIx) (x : JpegBuf) : (j.setRb b x).badoffCnt = j.badoffCnt := by
  cases b <;> rfl
@[simp] theorem Jpeg.setRb_hugeCnt (j : Jpeg) (b : BufIx) (x : JpegBuf) : (j.setRb b x).hugeCnt = j.hugeCnt := by
  cases b <;> rfl
@[simp] theorem Jpeg.setRb_jframeCnt (j : Jpeg) (b : BufIx) (x : JpegBuf) : (j.setRb b x).jframeCnt = j.jframeCnt := by
  cases b <;> rfl
@[simp] theorem Jpeg.setRb_decCnt (j : Jpeg) (b : BufIx) (x : JpegBuf) : (j.setRb b x).decCnt = j.decCnt := by
  cases b <;> rfl

end Sys2Proof.Machine
end

