-- ==== Sys2Proof/Laws/Packer.lean ====
section
/-! SUPPORT. What the bit packer's primitives do, said once: `put` appends a code to the packet's bit string
(40_bitpacker.md R110, R117), `flush` and `send` hand the bit string out (R114, R115), and each keeps the packer sound
(R111, R113). -/

namespace Sys2Proof.Machine

/-! Words and bits. -/

/-- A legal width is 32 or 64 (00_scope.md R3). -/
theorem width_cases (cfg : Config) : cfg.w = 32 ∨ cfg.w = 64 := cfg.legal.1

/-- The low `m` bits of a number are clear exactly where `2^m` divides it. -/
theorem mod_two_pow_eq_zero_iff (x : BitVec 64) (m : Nat) :
    x.toNat % 2 ^ m = 0 ↔ ∀ j < m, x.getLsbD j = false := by
  constructor
  · intro h j hj
    have := congrArg (·.testBit j) h
    simpa [Nat.testBit_mod_two_pow, hj, BitVec.testBit_toNat] using this
  · intro h
    refine Nat.eq_of_testBit_eq fun j => ?_
    by_cases hj : j < m
    · simpa [Nat.testBit_mod_two_pow, hj, BitVec.testBit_toNat] using h j hj
    · simp [Nat.testBit_mod_two_pow, hj]

/-- The bits from `w` up are clear exactly where the number is below `2^w`. -/
theorem lt_two_pow_iff (x : BitVec 64) (w : Nat) :
    x.toNat < 2 ^ w ↔ ∀ j, w ≤ j → x.getLsbD j = false := by
  constructor
  · intro h j hj
    rw [← BitVec.testBit_toNat]
    exact Nat.testBit_lt_two_pow (Nat.lt_of_lt_of_le h (Nat.pow_le_pow_right (by decide) hj))
  · intro h
    exact Nat.lt_pow_two_of_testBit _ fun j hj => by simpa [BitVec.testBit_toNat] using h j hj

theorem getLsbD_keepBits (w : Nat) (x : BitVec 64) (j : Nat) :
    (keepBits w x).getLsbD j = (decide (j < w) && x.getLsbD j) := by
  by_cases h : j < 64
  · simp [keepBits, h]
  · simp [keepBits, h, BitVec.getLsbD_of_ge x j (by omega)]

/-- The `k`-th byte of a word holds its bits `w - 1 - 8k` downward (20_memory.md R63). -/
theorem byteBits_accByte {w i : Nat} (acc : BitVec 64) (h : 8 * (i + 1) ≤ w) :
    byteBits (accByte w acc i) = (List.range 8).map fun k => acc.getLsbD (w - 1 - (8 * i + k)) := by
  refine List.map_congr_left fun k hk => ?_
  have hk8 : k < 8 := List.mem_range.1 hk
  simp only [BitVec.getMsbD, accByte, BitVec.getLsbD_setWidth, BitVec.getLsbD_ushiftRight]
  rw [show w - 8 * (i + 1) + (8 - 1 - k) = w - 1 - (8 * i + k) by omega]
  simp [hk8, show 7 - k < 8 by omega]

/-- The bits of a word's first `k` bytes are its first `8k` bits. -/
theorem flatMap_accBytes {w k : Nat} (acc : BitVec 64) (h : 8 * k ≤ w) :
    (accBytes w acc k).flatMap byteBits = (List.range (8 * k)).map fun j => acc.getLsbD (w - 1 - j) := by
  induction k with
  | zero => rfl
  | succ k ih =>
    have hr : List.range (8 * (k + 1)) = List.range (8 * k) ++ (List.range 8).map (8 * k + ·) := by
      rw [show 8 * (k + 1) = 8 * k + 8 by omega, List.range_add]
    rw [hr, List.map_append, ← ih (by omega)]
    simp only [accBytes, List.range_succ, List.map_append, List.flatMap_append, List.map_cons, List.map_nil,
      List.flatMap_cons, List.flatMap_nil, List.append_nil]
    rw [byteBits_accByte acc (by omega)]
    simp [List.range_succ]

@[simp] theorem length_accBytes (w : Nat) (acc : BitVec 64) (k : Nat) : (accBytes w acc k).length = k := by
  simp [accBytes]

@[simp] theorem length_byteBits (b : Byte) : (byteBits b).length = 8 := by simp [byteBits]

@[simp] theorem length_codeBits (v : Word) (n : Nat) : (codeBits v n).length = n := by simp [codeBits]

/-- Bytes and their bits determine each other. -/
theorem byteBits_injective {a b : Byte} (h : byteBits a = byteBits b) : a = b := by
  refine BitVec.eq_of_getMsbD_eq fun i hi => ?_
  have := congrArg (·[i]?) h
  simpa [byteBits, hi] using this

theorem length_flatMap_byteBits (bs : List Byte) : (bs.flatMap byteBits).length = 8 * bs.length := by
  induction bs with
  | nil => rfl
  | cons b bs ih => simp [ih]; omega

/-- Byte lists with the same bits are equal. -/
theorem flatMap_byteBits_injective {as bs : List Byte} (h : as.flatMap byteBits = bs.flatMap byteBits) : as = bs := by
  induction as generalizing bs with
  | nil =>
    have := congrArg List.length h
    rw [length_flatMap_byteBits, length_flatMap_byteBits] at this
    exact (List.length_eq_zero_iff.1 (by simpa using this.symm)).symm
  | cons a as ih =>
    cases bs with
    | nil =>
      have := congrArg List.length h
      rw [length_flatMap_byteBits, length_flatMap_byteBits] at this
      simp at this
    | cons b bs =>
      obtain ⟨h1, h2⟩ := List.append_inj (by simpa using h) (by simp)
      rw [byteBits_injective h1, ih h2]

/-- The bytes of a memory that were just stored at its end follow the ones before. -/
theorem readFront_writeBytes (f : Nat → Byte) {m : Memory} (hm : m.wf) (n : Nat) (bs : List Byte) :
    (m.writeBytes n bs).readFront f (n + bs.length) = m.readFront f n ++ bs := by
  refine List.ext_getElem? fun k => ?_
  rw [Memory.getElem?_readFront, List.getElem?_append, Memory.getElem?_readFront, Memory.length_readFront,
    Memory.read_writeBytes hm]
  by_cases h1 : k < n
  · simp [h1, show k < n + bs.length by omega, show ¬ n ≤ k by omega]
  · by_cases h2 : k < n + bs.length
    · have h3 : k - n < bs.length := by omega
      simp [h1, h2, show n ≤ k by omega, h3]
    · simp [h1, h2, show bs.length ≤ k - n by omega]

/-! The primitives. -/

/-- `put` answers a packer, never a fault, where its precondition holds (40_bitpacker.md R110, R111). -/
theorem put_ok {cfg : Config} {v : Word} {n : Nat} {p : Packer} (hroom : p.bitCount + n ≤ cfg.limitBits) :
    ∃ q, put cfg v n p = .ok q := by
  unfold put
  split
  · exact ⟨_, rfl⟩
  · simp only
    split
    · exact ⟨_, rfl⟩
    · next hn hf =>
      have hfit : p.cursor + (accBytes cfg.w (p.acc ||| keepBits n (v.setWidth 64) >>> (p.fill + n - cfg.w))
          (cfg.w / 8)).length ≤ cfg.pktCap := by
        simp only [length_accBytes]
        unfold Packer.bitCount Config.limitBits at hroom
        rcases width_cases cfg with h | h <;> rw [h] at hf ⊢ <;> omega
      rw [storePb, if_pos hfit]
      exact ⟨_, rfl⟩

/-- What `put` does to a sound packer, said once (40_bitpacker.md R110, R111, R113, R117): the code's bits follow the
packet's bits, the packer stays sound, the counts move as R110 writes them, and of `PB` only the bytes of a spilled
word are stored. -/
theorem put_spec {cfg : Config} {epoch : Nat} {v : Word} {n : Nat} {p q : Packer} (hn : n ≤ 32)
    (hp : Packer.Inv cfg p) (hroom : p.bitCount + n ≤ cfg.limitBits) (h : put cfg v n p = .ok q) :
    Packer.Inv cfg q ∧ q.bitCount = p.bitCount + n ∧
      q.bits cfg epoch = p.bits cfg epoch ++ codeBits v n ∧
      q.cursor = p.cursor + spilledBytes cfg p.fill n ∧
      ∀ a, ¬ (p.cursor ≤ a ∧ a < p.cursor + spilledBytes cfg p.fill n) → q.pb.read a = p.pb.read a := by
  obtain ⟨hfill, hcount, hlt, hlow, hdvd, hz, hwf, hin, hall⟩ := hp
  have hw := width_cases cfg
  have hw8 : cfg.w = 8 * (cfg.w / 8) := by rcases hw with h | h <;> rw [h]
  rw [lt_two_pow_iff] at hlt
  rw [mod_two_pow_eq_zero_iff] at hlow
  have hcb : ∀ j, (keepBits n (v.setWidth 64)).getLsbD j = (decide (j < n) && v.getLsbD j) := by
    intro j
    rw [getLsbD_keepBits]
    by_cases hj : j < 64
    · simp [hj]
    · simp [show ¬ j < n by omega]
  unfold put at h
  split at h
  · next h0 =>
    injection h with h; subst h; subst h0
    have hs : spilledBytes cfg p.fill 0 = 0 := by
      unfold spilledBytes
      rw [Nat.div_eq_of_lt (by rcases hw with h | h <;> rw [h] at hfill ⊢ <;> omega)]; simp
    refine ⟨⟨hfill, hcount, (lt_two_pow_iff _ _).2 hlt, (mod_two_pow_eq_zero_iff _ _).2 hlow, hdvd, hz, hwf, hin,
      hall⟩, rfl, by simp [codeBits], by simp [hs], fun _ _ => rfl⟩
  · next h0 =>
    simp only at h
    split at h
    · next hfit =>
      injection h with h; subst h
      have hs : spilledBytes cfg p.fill n = 0 := by
        unfold spilledBytes
        rw [Nat.div_eq_of_lt (by omega)]; simp
      have hbit : ∀ j, (p.acc ||| keepBits n (v.setWidth 64) <<< (cfg.w - p.fill - n)).getLsbD j =
          (p.acc.getLsbD j || (decide (j < 64) && !decide (j < cfg.w - p.fill - n) &&
            (decide (j - (cfg.w - p.fill - n) < n) && v.getLsbD (j - (cfg.w - p.fill - n))))) := by
        intro j; simp [hcb]
      refine ⟨⟨hfit, ?_, ?_, ?_, hdvd, by simp; omega, hwf, hin, hall⟩, ?_, ?_, by simp [hs], fun _ _ => rfl⟩
      · simpa [Packer.bitCount, Nat.add_assoc] using hroom
      · refine (lt_two_pow_iff _ _).2 fun j hj => ?_
        rw [hbit, hlt j hj]
        simp [show ¬ j - (cfg.w - p.fill - n) < n by omega]
      · refine (mod_two_pow_eq_zero_iff _ _).2 fun j hj => ?_
        simp only at hj
        rw [hbit, hlow j (by omega)]
        simp [show j < cfg.w - p.fill - n by omega]
      · simp [Packer.bitCount, Nat.add_assoc]
      · simp only [Packer.bits, List.append_assoc, List.append_cancel_left_eq]
        rw [List.range_add, List.map_append]
        congr 1
        · refine List.map_congr_left fun k hk => ?_
          have hk := List.mem_range.1 hk
          rw [hbit]
          simp [show ¬ cfg.w - 1 - k - (cfg.w - p.fill - n) < n by omega]
        · rw [List.map_map]
          refine List.map_congr_left fun k hk => ?_
          have hk := List.mem_range.1 hk
          simp only [Function.comp_apply]
          rw [hbit, hlow _ (by omega), show cfg.w - 1 - (p.fill + k) - (cfg.w - p.fill - n) = n - 1 - k by omega]
          have : cfg.w - 1 - (p.fill + k) < 64 := by rcases hw with h | h <;> omega
          simp [this, show ¬ cfg.w - 1 - (p.fill + k) < cfg.w - p.fill - n by omega, show n - 1 - k < n by omega]
    · next hspill =>
      have hfit : p.cursor + cfg.w / 8 ≤ cfg.pktCap := by
        unfold Packer.bitCount Config.limitBits at hroom
        omega
      rw [storePb, if_pos (by simpa using hfit)] at h
      injection h with h; subst h
      have hs : spilledBytes cfg p.fill n = cfg.w / 8 := by
        unfold spilledBytes
        rw [Nat.div_eq_of_lt_le (k := 1) (by omega) (by rcases hw with h | h <;> rw [h] at hfill ⊢ <;> omega)]
        simp
      have hfull : ∀ j, (p.acc ||| keepBits n (v.setWidth 64) >>> (p.fill + n - cfg.w)).getLsbD j =
          (p.acc.getLsbD j || (decide (p.fill + n - cfg.w + j < n) && v.getLsbD (p.fill + n - cfg.w + j))) := by
        intro j; simp [hcb]
      have hacc : ∀ j, (keepBits cfg.w (keepBits n (v.setWidth 64) <<<
          (cfg.w - (p.fill + n - cfg.w)))).getLsbD j =
          (decide (j < cfg.w) && (decide (j < 64) && !decide (j < cfg.w - (p.fill + n - cfg.w)) &&
            (decide (j - (cfg.w - (p.fill + n - cfg.w)) < n) &&
              v.getLsbD (j - (cfg.w - (p.fill + n - cfg.w)))))) := by
        intro j; rw [getLsbD_keepBits]; simp [hcb]
      have hw64 : cfg.w ≤ 64 ∧ 32 ≤ cfg.w := by rcases hw with h | h <;> omega
      refine ⟨⟨?_, ?_, ?_, ?_, ?_, ?_, Memory.wf_writeBytes hwf, ?_, ?_⟩, ?_, ?_, by simp [hs], ?_⟩
      · simp only; omega
      · simp only [Packer.bitCount] at hroom ⊢; omega
      · refine (lt_two_pow_iff _ _).2 fun j hj => ?_
        rw [hacc]; simp [show ¬ j < cfg.w by omega]
      · refine (mod_two_pow_eq_zero_iff _ _).2 fun j hj => ?_
        simp only at hj
        rw [hacc]; simp [hj]
      · exact Nat.dvd_add hdvd (Nat.dvd_refl _)
      · simp only; omega
      · intro c hc
        rcases Memory.mem_writeBytes hc with hc | hc
        · rw [length_accBytes] at hc; omega
        · exact hin c hc
      · intro a ha
        simp only at ha
        rw [Memory.read_writeBytes hwf, length_accBytes]
        split
        · simp; omega
        · exact hall a (by omega)
      · simp only [Packer.bitCount]; omega
      · have hrf := readFront_writeBytes (Config.unwrittenPb epoch) hwf p.cursor
          (accBytes cfg.w (p.acc ||| keepBits n (v.setWidth 64) >>> (p.fill + n - cfg.w)) (cfg.w / 8))
        rw [length_accBytes] at hrf
        simp only [Packer.bits]
        rw [hrf, List.flatMap_append, flatMap_accBytes _ (by omega)]
        simp only [List.append_assoc, List.append_cancel_left_eq]
        rw [← hw8]
        have hsplit : codeBits v n = (List.range (cfg.w - p.fill)).map (fun k => v.getLsbD (n - 1 - k)) ++
            (List.range (p.fill + n - cfg.w)).map (fun k => v.getLsbD (n - 1 - (cfg.w - p.fill + k))) := by
          rw [codeBits, show n = (cfg.w - p.fill) + (p.fill + n - cfg.w) by omega, List.range_add, List.map_append,
            List.map_map]
          rw [← show n = (cfg.w - p.fill) + (p.fill + n - cfg.w) by omega]
          rfl
        rw [hsplit, ← List.append_assoc]
        congr 1
        · rw [show cfg.w = p.fill + (cfg.w - p.fill) by omega, List.range_add, List.map_append, List.map_map]
          rw [← show cfg.w = p.fill + (cfg.w - p.fill) by omega]
          congr 1
          · refine List.map_congr_left fun k hk => ?_
            have hk := List.mem_range.1 hk
            rw [hfull]; simp [show ¬ p.fill + n - cfg.w + (cfg.w - 1 - k) < n by omega]
          · refine List.map_congr_left fun k hk => ?_
            have hk := List.mem_range.1 hk
            simp only [Function.comp_apply]
            rw [hfull, hlow _ (by omega),
              show p.fill + n - cfg.w + (cfg.w - 1 - (p.fill + k)) = n - 1 - k by omega]
            simp [show n - 1 - k < n by omega]
        · refine List.map_congr_left fun k hk => ?_
          have hk := List.mem_range.1 hk
          rw [hacc, show cfg.w - 1 - k - (cfg.w - (p.fill + n - cfg.w)) = n - 1 - (cfg.w - p.fill + k) by omega]
          simp [show cfg.w - 1 - k < cfg.w by omega, show cfg.w - 1 - k < 64 by omega,
            show ¬ cfg.w - 1 - k < cfg.w - (p.fill + n - cfg.w) by omega,
            show n - 1 - (cfg.w - p.fill + k) < n by omega]
      · intro a ha
        rw [hs] at ha
        simp only
        rw [Memory.read_writeBytes hwf, length_accBytes, if_neg ha]

/-- The byte and stuffing counts of a sound packer (40_bitpacker.md R114): they are those of its bit count, and the
packet is inside `PKT_CAP`. -/
theorem byteCount_spec {cfg : Config} {p : Packer} (hp : Packer.Inv cfg p) :
    p.byteCount = (p.bitCount + 7) / 8 ∧ p.bitCount + p.stuffing = 8 * p.byteCount ∧ p.stuffing < 8 ∧
      p.byteCount ≤ cfg.pktCap := by
  obtain ⟨_, hcount, _⟩ := hp
  unfold Packer.bitCount Config.limitBits at *
  unfold Packer.stuffing Packer.byteCount Packer.bitCount
  omega

/-- What a fresh packer holds: no bits. -/
@[simp] theorem bits_fresh (cfg : Config) (epoch : Nat) (p : Packer) : p.fresh.bits cfg epoch = [] := rfl

@[simp] theorem fresh_pb (p : Packer) : p.fresh.pb = p.pb := rfl

/-- Emptying the packet keeps the packer sound (40_bitpacker.md R111). -/
theorem fresh_inv {cfg : Config} {p : Packer} (hwf : p.pb.wf) (hin : ∀ c ∈ p.pb, c.1 < cfg.pktCap) :
    Packer.Inv cfg p.fresh :=
  ⟨Nat.zero_le _, Nat.zero_le _, Nat.two_pow_pos _, rfl, ⟨0, rfl⟩, fun _ => rfl, hwf, hin,
    fun _ h => absurd h (Nat.not_lt_zero _)⟩

/-- What `send` does to a sound packer, said once (40_bitpacker.md R114, R115, R117): it hands out a packet whose bits
are the packet's bits and then zero stuffing bits, records it, and leaves an empty packet; of `PB` only the bytes of the
last, partial word are stored. -/
theorem send_spec {m : Bool} {s : State} (hp : Packer.Inv s.cfg s.bp) :
    ∃ (bytes : List Byte) (q : Packer),
      send m s = .ok (s.bp.byteCount,
        { s with
          bp := q
          enc := { s.enc with
            pktCnt := s.enc.pktCnt + 1
            lastBytes := BitVec.ofNat 16 s.bp.byteCount
            lastEbit := BitVec.ofNat 3 s.bp.stuffing
            lastM := m }
          trace := s.trace ++ [.pktOut m (BitVec.ofNat 3 s.bp.stuffing) bytes] }) ∧
      bytes.flatMap byteBits = s.bp.bits s.cfg s.epoch ++ List.replicate s.bp.stuffing false ∧
      bytes.length = s.bp.byteCount ∧
      Packer.Inv s.cfg q ∧ q.fill = 0 ∧ q.cursor = 0 ∧ q.acc = 0 ∧
      ∀ a, ¬ (s.bp.cursor ≤ a ∧ a < s.bp.byteCount) → q.pb.read a = s.bp.pb.read a := by
  have hcounts := byteCount_spec hp
  obtain ⟨hfill, hcount, hlt, hlow, hdvd, hz, hwf, hin, hall⟩ := hp
  rw [mod_two_pow_eq_zero_iff] at hlow
  have hw := width_cases s.cfg
  have hk : 8 * ((s.bp.fill + 7) / 8) ≤ s.cfg.w := by rcases hw with h | h <;> rw [h] at hfill ⊢ <;> omega
  have hfit : s.bp.cursor + (accBytes s.cfg.w s.bp.acc ((s.bp.fill + 7) / 8)).length ≤ s.cfg.pktCap := by
    rw [length_accBytes]; exact hcounts.2.2.2
  refine ⟨(s.bp.pb.writeBytes s.bp.cursor (accBytes s.cfg.w s.bp.acc ((s.bp.fill + 7) / 8))).readFront
      (Config.unwrittenPb s.epoch) s.bp.byteCount,
    ⟨0, 0, 0, s.bp.pb.writeBytes s.bp.cursor (accBytes s.cfg.w s.bp.acc ((s.bp.fill + 7) / 8))⟩,
    ?_, ?_, ?_, ?_, rfl, rfl, rfl, ?_⟩
  · unfold send flush storePb
    simp only [if_pos hfit, readPb, if_pos hcounts.2.2.2]
    rfl
  · have hb : s.bp.byteCount = s.bp.cursor + (accBytes s.cfg.w s.bp.acc ((s.bp.fill + 7) / 8)).length := by
      rw [length_accBytes]; rfl
    rw [hb, readFront_writeBytes _ hwf, List.flatMap_append, flatMap_accBytes _ hk, Packer.bits, List.append_assoc,
      List.append_cancel_left_eq]
    have hlen : 8 * ((s.bp.fill + 7) / 8) = s.bp.fill + s.bp.stuffing := by
      have := hcounts.2.1
      unfold Packer.byteCount Packer.bitCount at this
      omega
    rw [hlen, List.range_add, List.map_append, List.append_cancel_left_eq, List.map_map]
    refine List.eq_replicate_iff.2 ⟨by simp, fun b hb => ?_⟩
    obtain ⟨k, hk, rfl⟩ := List.mem_map.1 hb
    have hk := List.mem_range.1 hk
    exact hlow _ (by show s.cfg.w - 1 - (s.bp.fill + k) < _; rcases hw with h | h <;> rw [h] at hfill ⊢ <;> omega)
  · simp
  · refine fresh_inv (p := ⟨0, 0, 0, _⟩) (Memory.wf_writeBytes hwf) fun c hc => ?_
    rcases Memory.mem_writeBytes hc with hc | hc
    · omega
    · exact hin c hc
  · intro a ha
    simp only
    rw [Memory.read_writeBytes hwf, length_accBytes]
    exact if_neg ha

/-! Lists of codes. -/

/-- The bits a list of codes appends. -/
def codesBits (cs : List (Word × Nat)) : List Bool := cs.flatMap fun c => codeBits c.1 c.2

/-- How many they are. -/
def codesLength (cs : List (Word × Nat)) : Nat := (cs.map (·.2)).sum

/-- The spilled bytes of two appends in a row are those of the two together. -/
theorem spilledBytes_add {cfg : Config} {p q : Packer} {n m : Nat} (hq : q.bitCount = p.bitCount + n)
    (hc : q.cursor = p.cursor + spilledBytes cfg p.fill n) :
    spilledBytes cfg p.fill n + spilledBytes cfg q.fill m = spilledBytes cfg p.fill (n + m) := by
  unfold Packer.bitCount at hq
  unfold spilledBytes at *
  have hw := width_cases cfg
  generalize hsp : (p.fill + n - 1) / cfg.w = sp at *
  rw [← Nat.add_mul]
  congr 1
  have key : (p.fill + (n + m) - 1) / cfg.w = sp + (q.fill + m - 1) / cfg.w := by
    rw [hc] at hq
    rcases hw with h | h <;> rw [h] at hsp hq ⊢ <;> omega
  exact key.symm

/-- What appending a list of codes does to a sound packer, said once. -/
theorem putCodes_spec {cfg : Config} {epoch : Nat} {cs : List (Word × Nat)} {p : Packer} (hcs : ∀ c ∈ cs, c.2 ≤ 32)
    (hp : Packer.Inv cfg p) (hroom : p.bitCount + codesLength cs ≤ cfg.limitBits) :
    ∃ q, putCodes cfg cs p = .ok q ∧ Packer.Inv cfg q ∧ q.bitCount = p.bitCount + codesLength cs ∧
      q.bits cfg epoch = p.bits cfg epoch ++ codesBits cs ∧
      q.cursor = p.cursor + spilledBytes cfg p.fill (codesLength cs) ∧
      ∀ a, ¬ (p.cursor ≤ a ∧ a < p.cursor + spilledBytes cfg p.fill (codesLength cs)) → q.pb.read a = p.pb.read a := by
  induction cs generalizing p with
  | nil =>
    refine ⟨p, rfl, hp, by simp [codesLength], by simp [codesBits], ?_, fun _ _ => rfl⟩
    have : spilledBytes cfg p.fill 0 = 0 := by
      unfold spilledBytes
      rw [Nat.div_eq_of_lt (by have := hp.1; rcases width_cases cfg with h | h <;> rw [h] at this ⊢ <;> omega)]; simp
    simp [codesLength, this]
  | cons c cs ih =>
    obtain ⟨v, n⟩ := c
    have hlen : codesLength ((v, n) :: cs) = n + codesLength cs := by simp [codesLength]
    rw [hlen] at hroom ⊢
    obtain ⟨q, hq⟩ := put_ok (cfg := cfg) (v := v) (n := n) (p := p) (by omega)
    have hn : n ≤ 32 := hcs (v, n) (by simp)
    obtain ⟨hqi, hqc, hqb, hqcur, hqf⟩ := put_spec (epoch := epoch) hn hp (by omega) hq
    obtain ⟨r, hr, hri, hrc, hrb, hrcur, hrf⟩ := ih (fun c hc => hcs c (by simp [hc])) hqi (by omega)
    have hsum := spilledBytes_add (cfg := cfg) (m := codesLength cs) hqc hqcur
    refine ⟨r, by simp [putCodes, hq, hr], hri, by omega, ?_, by omega, fun a ha => ?_⟩
    · rw [hrb, hqb]; simp [codesBits]
    · rw [hrf a (by omega), hqf a (by omega)]

/-- The codes of a GOB header are its 26 bits (41_framer.md R130). -/
theorem codesBits_gobHdr (gn : BitVec 4) (gq : BitVec 5) :
    codesBits (gobHdrCodes gn gq) = gobHdrBitString gn gq ∧ codesLength (gobHdrCodes gn gq) = gobHdrBits := by
  refine ⟨?_, rfl⟩
  have h1 : codeBits 0x0001 16 = List.replicate 15 false ++ [true] := by decide
  have h2 : codeBits (gn.setWidth 32) 4 = (List.range 4).map gn.getMsbD := by
    refine List.map_congr_left fun k hk => ?_
    have := List.mem_range.1 hk
    simp [BitVec.getMsbD, this, show 4 - 1 - k < 32 by omega]
  have h3 : codeBits (gq.setWidth 32) 5 = (List.range 5).map gq.getMsbD := by
    refine List.map_congr_left fun k hk => ?_
    have := List.mem_range.1 hk
    simp [BitVec.getMsbD, this, show 5 - 1 - k < 32 by omega]
  have h4 : codeBits 0 1 = [false] := by decide
  simp only [codesBits, gobHdrCodes, List.flatMap_cons, List.flatMap_nil, h1, h2, h3, h4, gobHdrBitString,
    List.append_assoc, List.append_nil]

/-- The codes of a macroblock are its bit string (41_framer.md R137; 30_encoding.md R85). -/
theorem codesBits_mb {n : Nat} {data : List Word} (h : data.length = wordsFor 32 n) :
    codesBits (mbCodes n data) = mbBits n data ∧ codesLength (mbCodes n data) = n ∧
      ∀ c ∈ mbCodes n data, c.2 ≤ 32 := by
  induction data generalizing n with
  | nil =>
    have : n = 0 := by simp [wordsFor] at h; omega
    subst this
    simp [mbCodes, codesBits, codesLength, mbBits]
  | cons d ds ih =>
    have hn : 0 < n := by
      rcases Nat.eq_zero_or_pos n with rfl | h0
      · simp [wordsFor] at h
      · exact h0
    have hds : ds.length = wordsFor 32 (n - 32) := by
      simp only [wordsFor, List.length_cons] at h ⊢; omega
    obtain ⟨ih1, ih2, ih3⟩ := ih hds
    refine ⟨?_, ?_, ?_⟩
    · have hr : List.range n = List.range (min 32 n) ++ (List.range (n - 32)).map (min 32 n + ·) := by
        rw [← List.range_add]; congr 1; omega
      have hcons : codesBits (mbCodes n (d :: ds)) = codeBits (d >>> (32 - min 32 n)) (min 32 n) ++
          codesBits (mbCodes (n - 32) ds) := by simp [mbCodes, codesBits]
      rw [hcons, ih1]
      unfold mbBits
      rw [hr, List.map_append, List.map_map]
      congr 1
      · refine List.map_congr_left fun k hk => ?_
        have hk := List.mem_range.1 hk
        rw [BitVec.getLsbD_ushiftRight, show 32 - min 32 n + (min 32 n - 1 - k) = 31 - k % 32 by omega,
          show k / 32 = 0 by omega]
        rfl
      · refine List.map_congr_left fun k hk => ?_
        have hk := List.mem_range.1 hk
        simp only [Function.comp_apply]
        rw [show (min 32 n + k) % 32 = k % 32 by omega, show (min 32 n + k) / 32 = k / 32 + 1 by omega]
        rfl
    · have : codesLength (mbCodes n (d :: ds)) = min 32 n + codesLength (mbCodes (n - 32) ds) := by
        simp [mbCodes, codesLength]
      omega
    · intro c hc
      rcases List.mem_cons.1 hc with rfl | hc
      · exact Nat.min_le_left _ _
      · exact ih3 c hc

end Sys2Proof.Machine
end

