-- ==== Sys2Proof/Laws/Framer.lean ====
section
/-! SUPPORT. What the framer's operations do, said once each: the limit test (41_framer.md R135), the GOB header (R130)
and the packet it may need first (R133). -/

namespace Sys2Proof.Machine

/-- The limit test, strictly greater (41_framer.md R135). -/
@[simp] theorem exceedsLimit_eq_true {cfg : Config} {count n : Nat} :
    exceedsLimit cfg count n = true ↔ cfg.limitBits < count + n := by simp [exceedsLimit]

/-- A packet holds at least 32 bits, so a GOB header fits a fresh one (00_scope.md R3; 41_framer.md R133). -/
theorem thirty_two_le_limitBits (cfg : Config) : 32 ≤ cfg.limitBits := by
  have := cfg.legal.2.1
  unfold Config.limitBits Config.pktCap
  omega

/-- A GOB header on a fresh packet spills no word. -/
theorem spilledBytes_fresh_gobHdr (cfg : Config) : spilledBytes cfg 0 gobHdrBits = 0 := by
  unfold spilledBytes gobHdrBits
  rcases width_cases cfg with h | h <;> simp [h]

/-- What the GOB header's codes do to a sound packer with room for them, said once (41_framer.md R130). -/
theorem putGobHdr_spec {cfg : Config} {epoch : Nat} {p : Packer} (gn : BitVec 4) (gq : BitVec 5)
    (hp : Packer.Inv cfg p) (hroom : p.bitCount + gobHdrBits ≤ cfg.limitBits) :
    ∃ q, putCodes cfg (gobHdrCodes gn gq) p = .ok q ∧ Packer.Inv cfg q ∧ q.bitCount = p.bitCount + gobHdrBits ∧
      q.bits cfg epoch = p.bits cfg epoch ++ gobHdrBitString gn gq ∧
      ∀ a, ¬ (p.cursor ≤ a ∧ a < p.cursor + spilledBytes cfg p.fill gobHdrBits) → q.pb.read a = p.pb.read a := by
  obtain ⟨hbits, hlen⟩ := codesBits_gobHdr gn gq
  obtain ⟨q, h1, h2, h3, h4, _, h6⟩ :=
    putCodes_spec (epoch := epoch) (cs := gobHdrCodes gn gq) (by simp [gobHdrCodes]) hp (by rw [hlen]; exact hroom)
  rw [hlen] at h3 h6
  exact ⟨q, h1, h2, h3, by rw [h4, hbits], h6⟩

/-- A packer with no word stored and no bit filled holds no bits. -/
theorem bits_of_empty {cfg : Config} {epoch : Nat} {p : Packer} (hf : p.fill = 0) (hc : p.cursor = 0) :
    p.bits cfg epoch = [] ∧ p.bitCount = 0 := by
  simp [Packer.bits, Packer.bitCount, hf, hc, Memory.readFront]

end Sys2Proof.Machine
end

