-- ==== Sys2Proof/Laws/H261.lean ====
section
/-! SUPPORT. What the steps of H261.PKT do, said once each: frame start (43_h261_reassembler.md R195), the ring index
(R196), the header parse (R191), and completion (R197). -/

namespace Sys2Proof.Machine

/-- The gap test as the spec writes it (43_h261_reassembler.md R195). -/
theorem isGap_iff {gap : Nat} {l q : BitVec 16} : isGap gap l q = true ↔ gap < ((l.toNat : Int) - q.toNat).natAbs := by
  simp [isGap]

/-- `first` as a word is -1 exactly when no frame is open (10_state.md R30, R46). -/
theorem noFrameOpen_iff {h : H261} : noFrameOpen h = true ↔ h.first = 0xFFFFFFFF := by simp [noFrameOpen]

/-- The three ways a frame starts or goes on (43_h261_reassembler.md R195). -/
theorem frameStart_cases (gap : Nat) (seq : BitVec 16) (h : H261) :
    ((h.lastValid = false ∨ isGap gap h.lastSeq seq = true) ∧
      frameStart gap seq h = { h with ring := [], first := firstOf seq, lastSeq := seq, lastValid := true }) ∨
    ((h.lastValid = true ∧ isGap gap h.lastSeq seq = false ∧ h.first = 0xFFFFFFFF) ∧
      frameStart gap seq h = { h with first := firstOf seq, lastSeq := seq, lastValid := true }) ∨
    ((h.lastValid = true ∧ isGap gap h.lastSeq seq = false ∧ h.first ≠ 0xFFFFFFFF) ∧
      frameStart gap seq h = { h with lastSeq := seq, lastValid := true }) := by
  unfold frameStart
  cases hv : h.lastValid <;> cases hg : isGap gap h.lastSeq seq
  · exact .inl ⟨.inl rfl, rfl⟩
  · exact .inl ⟨.inl rfl, rfl⟩
  · cases hn : noFrameOpen h
    · refine .inr (.inr ⟨⟨rfl, rfl, fun hf => ?_⟩, by simp⟩)
      rw [noFrameOpen_iff.2 hf] at hn; cases hn
    · exact .inr (.inl ⟨⟨rfl, rfl, noFrameOpen_iff.1 hn⟩, by simp⟩)
  · exact .inl ⟨.inr rfl, by simp⟩

/-- A sequence number as `first` reads back as itself. -/
theorem toInt_firstOf (seq : BitVec 16) : (firstOf seq).toInt = seq.toNat := by
  have := seq.isLt
  rw [firstOf, BitVec.toInt_eq_toNat_cond, BitVec.toNat_setWidth, Nat.mod_eq_of_lt (by omega), if_pos (by omega)]

/-- A sequence number is not -1. -/
theorem firstOf_ne (seq : BitVec 16) : firstOf seq ≠ 0xFFFFFFFF := by
  intro h
  have := congrArg BitVec.toInt h
  rw [toInt_firstOf, show (0xFFFFFFFF : Word).toInt = -1 by decide] at this
  omega

/-- The index of a packet against a first sequence number (43_h261_reassembler.md R196; 90_conflicts.md C1). -/
theorem ringIndex_firstOf (seq first : BitVec 16) :
    ringIndex seq (firstOf first) =
      if first.toNat ≤ seq.toNat then seq.toNat - first.toNat else 65535 - first.toNat + seq.toNat := by
  have := first.isLt
  unfold ringIndex wrapBase
  rw [toInt_firstOf]
  split <;> split <;> omega

/-- The packet that opens a frame is at index 0 (43_h261_reassembler.md R195, R196). -/
@[simp] theorem ringIndex_self (seq : BitVec 16) : ringIndex seq (firstOf seq) = 0 := by
  rw [ringIndex_firstOf]; simp

/-- The packets of a ring's front are there exactly when each of its indices is (43_h261_reassembler.md R197). -/
theorem collect_eq_some {ring : List (Nat × RingPkt)} {n : Nat} {ps : List RingPkt} :
    collect ring n = some ps ↔ ps.length = n ∧ ∀ k < n, tableGet ring k = ps[k]? := by
  induction n generalizing ps with
  | zero =>
    simp only [collect, Option.some.injEq, List.length_eq_zero_iff]
    exact ⟨fun h => ⟨h.symm, fun k hk => absurd hk (Nat.not_lt_zero k)⟩, fun h => h.1.symm⟩
  | succ n ih =>
    constructor
    · intro h
      unfold collect at h
      split at h
      · next qs p hq hp =>
        injection h with h; subst h
        obtain ⟨hl, hk⟩ := ih.1 hq
        refine ⟨by simp [hl], fun k hkn => ?_⟩
        by_cases hkn' : k < n
        · rw [hk k hkn', List.getElem?_append_left (by omega)]
        · rw [show k = n by omega, hp, List.getElem?_append_right (by omega)]; simp [hl]
      · cases h
    · rintro ⟨hl, hk⟩
      have hq : collect ring n = some ps.dropLast := by
        refine ih.2 ⟨by simp [hl], fun k hkn => ?_⟩
        rw [hk k (by omega), List.getElem?_dropLast, if_pos (by omega)]
      have hne : ps ≠ [] := by intro h; simp [h] at hl
      have hp : tableGet ring n = some (ps.getLast hne) := by
        rw [hk n (by omega), ← List.getLast?_eq_getLast_of_ne_nil hne, List.getLast?_eq_getElem?, hl]; rfl
      unfold collect
      rw [hq, hp]
      simp [List.dropLast_append_getLast]

/-- The packets of a ring's front are not all there exactly when an index is empty (43_h261_reassembler.md R200). -/
theorem collect_eq_none {ring : List (Nat × RingPkt)} {n : Nat} :
    collect ring n = none ↔ ∃ k < n, tableGet ring k = none := by
  induction n with
  | zero => simp [collect]
  | succ n ih =>
    unfold collect
    constructor
    · intro h
      cases hq : collect ring n with
      | none => obtain ⟨k, hk, hn⟩ := ih.1 hq; exact ⟨k, by omega, hn⟩
      | some qs =>
        cases hp : tableGet ring n with
        | none => exact ⟨n, by omega, hp⟩
        | some p => rw [hq, hp] at h; cases h
    · rintro ⟨k, hk, hn⟩
      by_cases hkn : k < n
      · rw [ih.2 ⟨k, hkn, hn⟩]
      · rw [show k = n by omega] at hn
        rw [hn]; cases collect ring n <;> rfl

/-- The two ways a marker packet ends its frame (43_h261_reassembler.md R197, R200). -/
theorem completeFrame_cases (idx : Nat) (last : RingPkt) (s : State) :
    (∃ p0 ps, collect s.h261.ring (idx + 1) = some (p0 :: ps) ∧
      completeFrame idx last s =
        emitFrame (.frameH261 (frameOf s.h261.first p0 last (p0 :: ps))) ((p0 :: ps).flatMap (·.payload)).length
          { s with h261 := { closeFrame s.h261 with hframeCnt := s.h261.hframeCnt + 1 } }) ∨
    (collect s.h261.ring (idx + 1) = none ∧
      completeFrame idx last s =
        emitResult .frameVoid 0
          { s with h261 := { closeFrame s.h261 with voidCnt := s.h261.voidCnt + 1 } }) := by
  unfold completeFrame
  cases h : collect s.h261.ring (idx + 1) with
  | none => exact .inr ⟨rfl, rfl⟩
  | some ps =>
    cases ps with
    | nil => have := (collect_eq_some.1 h).1; simp at this
    | cons p0 ps => exact .inl ⟨p0, ps, rfl, rfl⟩

/-- The header is read by one of the two layouts (43_h261_reassembler.md R191). -/
theorem parseHeader_fields (bug : Bool) (hdr : Word) :
    (parseHeader bug hdr).1 = stdFields hdr ∨ (parseHeader bug hdr).1 = swpFields hdr := by
  unfold parseHeader
  split <;> split <;> simp

/-- The layout used is the one the toggle names afterwards (43_h261_reassembler.md R191). -/
theorem parseHeader_toggle (bug : Bool) (hdr : Word) :
    (parseHeader bug hdr).1 = if (parseHeader bug hdr).2 then swpFields hdr else stdFields hdr := by
  unfold parseHeader
  split <;> split <;> simp

/-- A payload of four bytes or more splits into the header word and the rest; a shorter one does not
(43_h261_reassembler.md R194; 20_memory.md R64). -/
theorem splitHeader_isSome {p : List Byte} : (splitHeader p).isSome = true ↔ 4 ≤ p.length := by
  unfold splitHeader
  split
  · simp
  · next h =>
    constructor
    · intro hs; cases hs
    · intro hl
      match p, hl with
      | p0 :: p1 :: p2 :: p3 :: rest, _ => exact absurd rfl (h p0 p1 p2 p3 rest)

/-- The bytes after the payload header. -/
theorem splitHeader_eq_some {p : List Byte} {hdr : Word} {rest : List Byte} (h : splitHeader p = some (hdr, rest)) :
    rest = p.drop 4 ∧ p.length = rest.length + 4 := by
  unfold splitHeader at h
  split at h
  · injection h with h; injection h with h1 h2; subst h2; simp
  · cases h

end Sys2Proof.Machine
end

