-- ==== Sys2Proof/Laws/Jpeg.lean ====
section
/-! SUPPORT. What the steps of JPEG.FRAG do, said once each: growth (42_jpeg_reassembler.md R163), selection and
decimation (R165, R166), the copy (R168), the two scans (R169, R170) and the hand-out (R171). -/

namespace Sys2Proof.Machine

/-! Growth. -/

/-- Doubling stops at the least power that reaches the end (42_jpeg_reassembler.md R163). -/
theorem doubled_spec {cap fin tries : Nat} (h0 : cap < fin) (hbig : fin ≤ cap * 2 ^ tries) :
    ∃ k, 1 ≤ k ∧ k ≤ tries ∧ doubled cap fin tries = cap * 2 ^ k ∧ fin ≤ cap * 2 ^ k ∧
      ∀ j, 1 ≤ j → j < k → cap * 2 ^ j < fin := by
  induction tries generalizing cap with
  | zero => simp at hbig; omega
  | succ tries ih =>
    by_cases h : fin ≤ 2 * cap
    · exact ⟨1, Nat.le_refl _, by omega, by rw [doubled, if_pos h]; omega, by omega, fun j h1 h2 => by omega⟩
    · obtain ⟨k, h1, h2, h3, h4, h5⟩ := ih (cap := 2 * cap) (by omega) (by rw [Nat.pow_succ] at hbig; nlinarith)
      refine ⟨k + 1, by omega, by omega, ?_, ?_, fun j hj1 hj2 => ?_⟩
      · rw [doubled, if_neg h, h3, Nat.pow_succ]; ring
      · rw [Nat.pow_succ]; nlinarith
      · rcases Nat.lt_or_ge j 2 with h2 | h2
        · rw [show j = 1 by omega]; omega
        · have := h5 (j - 1) (by omega) (by omega)
          rw [show j = (j - 1) + 1 by omega, Nat.pow_succ]
          nlinarith

/-- Growth, said once (42_jpeg_reassembler.md R163): from a capacity of at least 1 to an end below `2^24`, the new
capacity is the least doubling that holds the end, it is less than twice the end, and nothing else changes. -/
theorem grow_spec {j : Jpeg} {fin : Nat} (h1 : 1 ≤ j.jcap.toNat) (h2 : j.jcap.toNat < fin) (h3 : fin < 2 ^ 24) :
    grow fin j = { j with jcap := (grow fin j).jcap } ∧
    ∃ k, 1 ≤ k ∧ (grow fin j).jcap.toNat = j.jcap.toNat * 2 ^ k ∧ fin ≤ j.jcap.toNat * 2 ^ k ∧
      j.jcap.toNat * 2 ^ k < 2 * fin ∧ ∀ i, 1 ≤ i → i < k → j.jcap.toNat * 2 ^ i < fin := by
  obtain ⟨k, hk1, _, hd, hk2, hk3⟩ := doubled_spec (tries := 24) h2 (by nlinarith [Nat.two_pow_pos 24])
  have hlt : j.jcap.toNat * 2 ^ k < 2 * fin := by
    rcases Nat.lt_or_ge k 2 with h | h
    · rw [show k = 1 by omega]; omega
    · have := hk3 (k - 1) (by omega) (by omega)
      rw [show k = (k - 1) + 1 by omega, Nat.pow_succ]
      nlinarith
  refine ⟨rfl, k, hk1, ?_, hk2, hlt, hk3⟩
  simp only [grow, hd, BitVec.toNat_ofNat]
  exact Nat.mod_eq_of_lt (by omega)

/-- After step 2 the fragment's end is inside the capacity, which did not shrink (42_jpeg_reassembler.md R163, R168). -/
theorem growFor_spec {s : State} {off : Word} {len : BitVec 16} (h : FragmentTaken s off len) :
    off.toNat + len.toNat ≤ (growFor (off.toNat + len.toNat) s.jpeg).jcap.toNat ∧
    s.jpeg.jcap.toNat ≤ (growFor (off.toNat + len.toNat) s.jpeg).jcap.toNat ∧
    growFor (off.toNat + len.toNat) s.jpeg =
      { s.jpeg with jcap := (growFor (off.toNat + len.toNat) s.jpeg).jcap } := by
  unfold growFor
  split
  · next hlt =>
    have hmax := s.cfg.legal.2.2.2.2.1.2
    obtain ⟨_, k, hk, h1, h2, _, _⟩ := grow_spec h.2.1 hlt (by have := h.2.2; omega)
    refine ⟨by omega, ?_, rfl⟩
    rw [h1]
    exact Nat.le_mul_of_pos_right _ (Nat.two_pow_pos k)
  · exact ⟨by omega, Nat.le_refl _, rfl⟩

/-! Slots. -/

@[simp] theorem slotAt_putSlot_same (v : Vector Slot 64) (k : Fin 64) (t : Slot) : slotAt (putSlot v k t) k = t := by
  simp [slotAt, putSlot]

theorem slotAt_putSlot_other {v : Vector Slot 64} {k i : Fin 64} {t : Slot} (h : i ≠ k) :
    slotAt (putSlot v k t) i = slotAt v i := by
  have : k.1 ≠ i.1 := fun e => h (Fin.ext e.symm)
  simp [slotAt, putSlot, Vector.getElem_set_ne, this]

/-- The slot step 3 writes (42_jpeg_reassembler.md R164). -/
@[simp] theorem recordSlot_self (seq : BitVec 16) (off ts : Word) (j : Jpeg) :
    slotAt (recordSlot seq off ts j).slots (slotOf seq) = ⟨true, seq, off, ts, (slotAt j.slots (slotOf seq)).eof⟩ := by
  simp [recordSlot]

theorem recordSlot_other {seq : BitVec 16} {off ts : Word} {j : Jpeg} {k : Fin 64} (h : k ≠ slotOf seq) :
    slotAt (recordSlot seq off ts j).slots k = slotAt j.slots k := slotAt_putSlot_other h

/-- The slot step 7 writes (42_jpeg_reassembler.md R169). -/
@[simp] theorem setEof_self (k : Fin 64) (eof : BitVec 16) (j : Jpeg) :
    slotAt (setEof k eof j).slots k = { slotAt j.slots k with eof := eof } := by simp [setEof]

theorem setEof_other {k i : Fin 64} {eof : BitVec 16} {j : Jpeg} (h : i ≠ k) :
    slotAt (setEof k eof j).slots i = slotAt j.slots i := slotAt_putSlot_other h

/-! Selection. -/

/-- Which buffer is selected, and when (42_jpeg_reassembler.md R165). -/
theorem select_spec (n : Nat) (ts : Word) (j : Jpeg) :
    (holdsFrame j.rb0 ts ∧ select n ts j = (.rb0, j)) ∨
    (¬ holdsFrame j.rb0 ts ∧ holdsFrame j.rb1 ts ∧ select n ts j = (.rb1, j)) ∨
    (¬ holdsFrame j.rb0 ts ∧ ¬ holdsFrame j.rb1 ts ∧
      select n ts j = (evictee j, decimate n (evictee j) (claim (evictee j) ts j))) := by
  unfold select
  by_cases h0 : j.rb0.valid && j.rb0.ts == ts
  · exact .inl ⟨by simpa [holdsFrame] using h0, by rw [if_pos h0]⟩
  · have h0' : ¬ holdsFrame j.rb0 ts := by simpa [holdsFrame] using h0
    rw [if_neg h0]
    by_cases h1 : j.rb1.valid && j.rb1.ts == ts
    · exact .inr (.inl ⟨h0', by simpa [holdsFrame] using h1, by rw [if_pos h1]⟩)
    · exact .inr (.inr ⟨h0', by simpa [holdsFrame] using h1, by rw [if_neg h1]⟩)

/-- Decimation changes the buffer's drop flag and the counter alone (42_jpeg_reassembler.md R166). -/
theorem decimate_spec (n : Nat) (b : BufIx) (j : Jpeg) :
    (n = 0 ∧ decimate n b j = j) ∨
    (n ≠ 0 ∧ j.decCnt.toInt - 1 ≤ 0 ∧ decimate n b j = { j with decCnt := BitVec.ofNat 32 n }) ∨
    (n ≠ 0 ∧ ¬ j.decCnt.toInt - 1 ≤ 0 ∧
      decimate n b j = { j with decCnt := j.decCnt - 1 }.setRb b { j.rb b with drop := true }) := by
  unfold decimate
  by_cases h : n = 0
  · exact .inl ⟨h, if_pos h⟩
  · rw [if_neg h]
    by_cases h1 : j.decCnt.toInt - 1 ≤ 0
    · exact .inr (.inl ⟨h, h1, if_pos h1⟩)
    · exact .inr (.inr ⟨h, h1, if_neg h1⟩)

@[simp] theorem decimate_slots (n : Nat) (b : BufIx) (j : Jpeg) : (decimate n b j).slots = j.slots := by
  unfold decimate; split
  · rfl
  · split
    · rfl
    · simp

@[simp] theorem decimate_jcap (n : Nat) (b : BufIx) (j : Jpeg) : (decimate n b j).jcap = j.jcap := by
  unfold decimate; split
  · rfl
  · split
    · rfl
    · simp

@[simp] theorem select_slots (n : Nat) (ts : Word) (j : Jpeg) : (select n ts j).2.slots = j.slots := by
  rcases select_spec n ts j with h | h | h
  · rw [h.2]
  · rw [h.2.2]
  · rw [h.2.2]; simp [claim]

@[simp] theorem select_jcap (n : Nat) (ts : Word) (j : Jpeg) : (select n ts j).2.jcap = j.jcap := by
  rcases select_spec n ts j with h | h | h
  · rw [h.2]
  · rw [h.2.2]
  · rw [h.2.2]; simp [claim]

/-! The scans. -/

/-- The forward scan finds exactly the end-of-frame slot ahead (42_jpeg_reassembler.md R169). -/
theorem scanForward_eq_some {slots : Vector Slot 64} {ts : Word} {k tries total : Nat} :
    scanForward slots ts k tries = some total ↔
      ∃ n < tries,
        (∀ j ≤ n, (slotAt slots (slotIx (k + j))).valid = true ∧
          (slotAt slots (slotIx (k + j))).ts = ts) ∧
        (∀ j < n, (slotAt slots (slotIx (k + j))).eof = 0) ∧
        (slotAt slots (slotIx (k + n))).eof ≠ 0 ∧
        total = (slotAt slots (slotIx (k + n))).off.toNat +
          (slotAt slots (slotIx (k + n))).eof.toNat := by
  induction tries generalizing k with
  | zero => simp [scanForward]
  | succ tries ih =>
    unfold scanForward
    simp only
    by_cases h1 : (!(slotAt slots (slotIx k)).valid ||
        (slotAt slots (slotIx k)).ts != ts) = true
    · rw [if_pos h1]
      refine ⟨fun h => by simp at h, ?_⟩
      rintro ⟨n, _, hv, _⟩
      have := hv 0 (Nat.zero_le _)
      simp only [Nat.add_zero] at this
      simp [this.1, this.2] at h1
    · rw [if_neg h1]
      have hv0 : (slotAt slots (slotIx k)).valid = true ∧
          (slotAt slots (slotIx k)).ts = ts := by
        simpa using h1
      by_cases h2 : ((slotAt slots (slotIx k)).eof != 0) = true
      · rw [if_pos h2]
        have h2' : (slotAt slots (slotIx k)).eof ≠ 0 := by simpa using h2
        constructor
        · intro h
          injection h with h
          exact ⟨0, by omega, fun j hj => by rw [show j = 0 by omega]; simpa using hv0, fun j hj => by omega,
            by simpa using h2', by simpa using h.symm⟩
        · rintro ⟨n, _, _, hz, _, ht⟩
          rcases Nat.eq_zero_or_pos n with rfl | hn
          · simp [ht]
          · exact absurd (by simpa using hz 0 hn) h2'
      · rw [if_neg h2]
        have h2' : (slotAt slots (slotIx k)).eof = 0 := by simpa using h2
        rw [ih]
        constructor
        · rintro ⟨n, hn, hv, hz, he, ht⟩
          refine ⟨n + 1, by omega, fun j hj => ?_, fun j hj => ?_, ?_, ?_⟩
          · rcases Nat.eq_zero_or_pos j with rfl | hj0
            · simpa using hv0
            · have := hv (j - 1) (by omega)
              simpa [show k + 1 + (j - 1) = k + j by omega] using this
          · rcases Nat.eq_zero_or_pos j with rfl | hj0
            · simpa using h2'
            · have := hz (j - 1) (by omega)
              simpa [show k + 1 + (j - 1) = k + j by omega] using this
          · simpa [show k + 1 + n = k + (n + 1) by omega] using he
          · simpa [show k + 1 + n = k + (n + 1) by omega] using ht
        · rintro ⟨n, hn, hv, hz, he, ht⟩
          rcases Nat.eq_zero_or_pos n with rfl | hn0
          · exact absurd h2' (by simpa using he)
          · refine ⟨n - 1, by omega, fun j hj => ?_, fun j hj => ?_, ?_, ?_⟩
            · have := hv (j + 1) (by omega)
              simpa [show k + 1 + j = k + (j + 1) by omega] using this
            · have := hz (j + 1) (by omega)
              simpa [show k + 1 + j = k + (j + 1) by omega] using this
            · simpa [show k + 1 + (n - 1) = k + n by omega] using he
            · simpa [show k + 1 + (n - 1) = k + n by omega] using ht

/-- The backward scan succeeds exactly on a chain down to offset 0 (42_jpeg_reassembler.md R170). -/
theorem scanBackward_eq_true {slots : Vector Slot 64} {ts : Word} {x : BitVec 16} {tries : Nat} :
    scanBackward slots ts x tries = true ↔
      ∃ k < tries,
        (∀ j ≤ k, (slotAt slots (slotOf (x - BitVec.ofNat 16 j))).valid = true ∧
          (slotAt slots (slotOf (x - BitVec.ofNat 16 j))).ts = ts ∧
          (slotAt slots (slotOf (x - BitVec.ofNat 16 j))).seq = x - BitVec.ofNat 16 j) ∧
        (slotAt slots (slotOf (x - BitVec.ofNat 16 k))).off = 0 := by
  have hsub : ∀ (y : BitVec 16) (j : Nat), y - 1 - BitVec.ofNat 16 j = y - BitVec.ofNat 16 (j + 1) := by
    intro y j
    rw [BitVec.ofNat_add, BitVec.sub_sub, BitVec.add_comm]
    rfl
  induction tries generalizing x with
  | zero => simp [scanBackward]
  | succ tries ih =>
    unfold scanBackward
    simp only
    by_cases h1 : (!(slotAt slots (slotOf x)).valid || (slotAt slots (slotOf x)).ts != ts || (slotAt slots (slotOf x)).seq != x) = true
    · rw [if_pos h1]
      refine ⟨fun h => by simp at h, ?_⟩
      rintro ⟨k, _, hv, _⟩
      have := hv 0 (Nat.zero_le _)
      simp only [BitVec.sub_zero] at this
      simp only [this.1, this.2.1, this.2.2] at h1
      simp at h1
    · rw [if_neg h1]
      have hv0 : (slotAt slots (slotOf x)).valid = true ∧ (slotAt slots (slotOf x)).ts = ts ∧ (slotAt slots (slotOf x)).seq = x := by
        simpa [and_assoc] using h1
      by_cases h2 : ((slotAt slots (slotOf x)).off == 0) = true
      · rw [if_pos h2]
        refine ⟨fun _ => ⟨0, by omega, fun j hj => ?_, by simpa using h2⟩, fun _ => rfl⟩
        rw [show j = 0 by omega]; simpa using hv0
      · rw [if_neg h2]
        refine Iff.trans ih ?_
        constructor
        · rintro ⟨k, hk, hv, ho⟩
          refine ⟨k + 1, by omega, fun j hj => ?_, by rw [← hsub]; exact ho⟩
          rcases Nat.eq_zero_or_pos j with rfl | hj0
          · simpa using hv0
          · have := hv (j - 1) (by omega)
            rwa [hsub, show j - 1 + 1 = j by omega] at this
        · rintro ⟨k, hk, hv, ho⟩
          rcases Nat.eq_zero_or_pos k with rfl | hk0
          · exact absurd (by simpa using ho) h2
          · refine ⟨k - 1, by omega, fun j hj => ?_, ?_⟩
            · rw [hsub]; exact hv (j + 1) (by omega)
            · rw [hsub, show k - 1 + 1 = k by omega]; exact ho

/-! The copy and the hand-out. -/

/-- The payload is at most `LEN` bytes, and exactly that many where the data words are there (30_encoding.md R84). -/
theorem length_payloadBytes_le (len : BitVec 16) (data : List Word) : (payloadBytes len data).length ≤ len.toNat :=
  List.length_take_le _ _

theorem length_payloadBytes {len : BitVec 16} {data : List Word} (h : data.length = wordsFor 4 len.toNat) :
    (payloadBytes len data).length = len.toNat := by
  have : (data.flatMap wordBytes).length = 4 * data.length := by
    clear h
    induction data with
    | nil => rfl
    | cons d ds ih => simp [wordBytes, ih]; omega
  rw [payloadBytes, List.length_take, this, h, wordsFor]
  omega

/-- Steps 7 to 9 touch the slots, the frame counter, the trace and the draw counter alone, and append one result word,
after a frame if there is one (42_jpeg_reassembler.md R169 to R171; 10_state.md R35). -/
theorem assembleFrame_cases (b : BufIx) (m : Bool) (seq : BitVec 16) (ts : Word) (off : Nat) (len : BitVec 16)
    (s : State) :
    ∃ j, j = setEof (slotOf seq) (if m then len else 0) s.jpeg ∧
      ((∃ total,
          (if m then total = off + len.toNat else
            scanForward j.slots ts ((slotOf seq).1 + 1) 63 = some total) ∧
          complete seq ts j = true ∧
          assembleFrame b m seq ts off len s =
            emitFrame (.frameJpeg ts (frameBytes s.epoch s.draws b total j)) total
              { s with jpeg := { j with jframeCnt := j.jframeCnt + 1 } }) ∨
        ((complete seq ts j = false ∨ (m = false ∧ scanForward j.slots ts ((slotOf seq).1 + 1) 63 = none)) ∧
          assembleFrame b m seq ts off len s = emitResult .notReady 0 { s with jpeg := j })) := by
  refine ⟨_, rfl, ?_⟩
  unfold assembleFrame target
  cases m
  · simp only [Bool.false_eq_true, if_false]
    cases hs : scanForward (setEof (slotOf seq) 0 s.jpeg).slots ts ((slotOf seq).1 + 1) 63 with
    | none => exact .inr ⟨.inr ⟨trivial, rfl⟩, rfl⟩
    | some total =>
      cases hc : complete seq ts (setEof (slotOf seq) 0 s.jpeg) with
      | true => exact .inl ⟨total, rfl, rfl, by simp only [hc, if_true]⟩
      | false => exact .inr ⟨.inl rfl, by simp only [hc, Bool.false_eq_true, if_false]⟩
  · simp only [if_true]
    cases hc : complete seq ts (setEof (slotOf seq) len s.jpeg) with
    | true => exact .inl ⟨off + len.toNat, rfl, rfl, by simp only [if_true]⟩
    | false => exact .inr ⟨.inl rfl, by simp only [Bool.false_eq_true, if_false]⟩

end Sys2Proof.Machine
end

