-- ==== Sys2Proof/Laws/PerInstr.lean ====
section
/-! SUPPORT. Families of statements about every command as syntax, one lemma for each constructor of Instr. -/

namespace Sys2Proof.Laws

/-- The encoder writes as many words as 30_encoding.md R87 gives the command, and a header the decoder's checks let
through (R88, R89). -/
def EncodedLength.Statement (i : Instr) : Prop :=
  ∀ maxPkt, i.wellFormed maxPkt = true → (encode i).length = commandLength (encode i) ∧ headerFault i.header = none

theorem EncodedLength.nop : EncodedLength.Statement .nop :=
  fun _ h => ⟨by simp [encode, commandLength, Instr.header, Instr.args], headerFault_header h⟩

theorem EncodedLength.srst : EncodedLength.Statement .srst :=
  fun _ h => ⟨by simp [encode, commandLength, Instr.header, Instr.args], headerFault_header h⟩

theorem EncodedLength.bpPut (n : BitVec 6) (value : Word) : EncodedLength.Statement (.bpPut n value) :=
  fun _ h => ⟨by simp [encode, commandLength, Instr.header, Instr.args], headerFault_header h⟩

theorem EncodedLength.bpFlush (m : Bool) : EncodedLength.Statement (.bpFlush m) :=
  fun _ h => ⟨by simp [encode, commandLength, Instr.header, Instr.args], headerFault_header h⟩

theorem EncodedLength.encBegin : EncodedLength.Statement .encBegin :=
  fun _ h => ⟨by simp [encode, commandLength, Instr.header, Instr.args], headerFault_header h⟩

theorem EncodedLength.encGob (gn : BitVec 4) (gq : BitVec 5) : EncodedLength.Statement (.encGob gn gq) :=
  fun _ h => ⟨by simp [encode, commandLength, Instr.header, Instr.args], headerFault_header h⟩

theorem EncodedLength.encMb (nbits : BitVec 16) (data : List Word) : EncodedLength.Statement (.encMb nbits data) := by
  refine fun _ h => ⟨?_, headerFault_header h⟩
  have hd : data.length = wordsFor 32 nbits.toNat := by simpa [Instr.wellFormed] using h
  simp [encode, commandLength, Instr.header, Instr.args, hd, Nat.add_comm]

theorem EncodedLength.jpegFrag (m : Bool) (seq : BitVec 16) (ts off : Word) (len : BitVec 16) (data : List Word) :
    EncodedLength.Statement (.jpegFrag m seq ts off len data) := by
  refine fun _ h => ⟨?_, headerFault_header h⟩
  have hd : data.length = wordsFor 4 len.toNat := by
    simp only [Instr.wellFormed, Bool.and_eq_true, decide_eq_true_eq] at h; exact h.2
  simp [encode, commandLength, Instr.header, Instr.args, hd]
  omega

theorem EncodedLength.h261Pkt (m : Bool) (seq len : BitVec 16) (data : List Word) :
    EncodedLength.Statement (.h261Pkt m seq len data) := by
  refine fun _ h => ⟨?_, headerFault_header h⟩
  have hd : data.length = wordsFor 4 len.toNat := by
    simp only [Instr.wellFormed, Bool.and_eq_true, decide_eq_true_eq] at h; exact h.2
  simp [encode, commandLength, Instr.header, Instr.args, hd]
  omega

end Sys2Proof.Laws
end

