-- ==== Sys2Proof/Laws/Ports.lean ====
section
/-! SUPPORT. What one step can do, said once (44_control.md R224, R225; 30_encoding.md R88, R95): which action of the
host it takes and, for a word, what the decoder makes of it. -/

namespace Sys2Proof.Machine

/-- The word that leaves the fault state (30_encoding.md R95). -/
@[simp] theorem srst_header : Instr.srst.header = 0x01000000 := by decide

/-- A word outside the fault state: it stays pending, is refused, or completes a command, which executes
(30_encoding.md R88). -/
theorem decodeNext_cases (w : Word) (s : State) :
    (decode s.cfg.params.maxPktBytes (s.pend ++ [w]) = .more ∧
      decodeNext w s = .next { s with cp := s.cp + 1, pend := s.pend ++ [w] }) ∨
    (∃ c, decode s.cfg.params.maxPktBytes (s.pend ++ [w]) = .bad c ∧
      decodeNext w s =
        .next (raiseFault c (s.pend.headD w) (s.cp - BitVec.ofNat 32 s.pend.length) { s with cp := s.cp + 1 })) ∨
    (∃ i after, decode s.cfg.params.maxPktBytes (s.pend ++ [w]) = .cmd i after ∧
      decodeNext w s = exec i { s with cp := s.cp + 1, pend := [] }) := by
  unfold decodeNext
  split
  · next h => exact .inl ⟨h, rfl⟩
  · next c h => exact .inr (.inl ⟨c, h, rfl⟩)
  · next i after h => exact .inr (.inr ⟨i, after, h, rfl⟩)

/-- A word in the fault state: discarded, or SRST, which executes (30_encoding.md R95). -/
theorem discardNext_cases (w : Word) (s : State) :
    (w ≠ 0x01000000 ∧ discardNext w s = .next { s with cp := s.cp + 1 }) ∨
    (w = 0x01000000 ∧ discardNext w s = exec .srst { s with cp := s.cp + 1 }) := by
  unfold discardNext
  rw [srst_header]
  by_cases h : w = 0x01000000
  · exact .inr ⟨h, if_pos h⟩
  · exact .inl ⟨h, if_neg h⟩

/-- A CSR write: the reset, where it sets bit 0 of `CTRL`, or nothing (44_control.md R223). -/
theorem csrWrite_cases (addr : BitVec 8) (v : Word) (s : State) :
    (addr = 0x04 ∧ v.getLsbD 0 = true ∧ csrWrite addr v s = performReset s) ∨
    (¬ (addr = 0x04 ∧ v.getLsbD 0 = true) ∧ csrWrite addr v s = s) := by
  unfold csrWrite ctrlAddr
  by_cases h : addr = 0x04 ∧ v.getLsbD 0 = true
  · exact .inl ⟨h.1, h.2, if_pos h⟩
  · exact .inr ⟨h, if_neg h⟩

/-- Of a partly received command a CSR read sees the command pointer and, in `STATUS`, that words are pending; every
other register reads as after the last complete command (44_control.md R222; 10_state.md R21, R22, R37; log entry
23). -/
theorem csrValue_partial (s : State) (cp : Word) (pend : List Word) (addr : BitVec 8) :
    csrValue { s with cp := cp, pend := pend } addr =
      if addr = 0x00 then statusWord { s with pend := [] } ||| flagBit (!pend.isEmpty) 20
      else if addr = 0x03 then cp
      else csrValue s addr := by
  by_cases h0 : addr = 0x00
  · subst h0
    simp [csrValue, statusWord, flagBit]
  · by_cases h3 : addr = 0x03
    · subst h3
      simp [csrValue]
    · rw [if_neg h0, if_neg h3]
      unfold csrValue
      split <;> first | rfl | bv_omega

/-- Everything a step can do (20_memory.md R67; 44_control.md R222 to R225; 30_encoding.md R88, R95). -/
theorem step_cases (s : State) :
    (s.input = [] ∧ step s = .next s) ∨
    (∃ a rest, s.input = .csrRead a :: rest ∧ step s = .next (csrRead a { s with input := rest })) ∨
    (∃ a v rest, s.input = .csrWrite a v :: rest ∧ step s = .next (csrWrite a v { s with input := rest })) ∨
    (∃ w rest, s.input = .word w :: rest ∧
      ((s.flt.fault = true ∧ step s = discardNext w { s with input := rest }) ∨
        (s.flt.fault = false ∧ step s = decodeNext w { s with input := rest }))) := by
  unfold step takeAction
  split
  · next h => exact .inl ⟨h, rfl⟩
  · next w rest h =>
    refine .inr (.inr (.inr ⟨w, rest, h, ?_⟩))
    cases hf : s.flt.fault
    · exact .inr ⟨rfl, by simp [consumeWord, hf]⟩
    · exact .inl ⟨rfl, by simp [consumeWord, hf]⟩
  · next a v rest h => exact .inr (.inr (.inl ⟨a, v, rest, h, rfl⟩))
  · next a rest h => exact .inr (.inl ⟨a, rest, h, rfl⟩)

end Sys2Proof.Machine
end

