-- ==== Sys2Proof/Tests/Slice0.lean ====
section
/-! SUPPORT. Tests. Expected results come from spec/95_test_vectors.md or are worked by hand from the rule named; the
witnesses show that the hypotheses of each statement can be met, at the boundaries of its clauses. -/

namespace Sys2Proof.Machine

/-! ## WellFormed refuses -/

theorem test_wellFormed_refuses_nbits : (Instr.bpPut 33 0).wellFormed 2048 = false := by decide
theorem test_wellFormed_refuses_mb_words : (Instr.encMb 33 [0]).wellFormed 2048 = false := by decide
theorem test_wellFormed_refuses_jpeg_length : (Instr.jpegFrag false 0 0 0 17 [0, 0, 0, 0, 0]).wellFormed 16 = false := by
  decide
theorem test_wellFormed_refuses_jpeg_words : (Instr.jpegFrag false 0 0 0 5 [0]).wellFormed 16 = false := by decide
theorem test_wellFormed_refuses_h261_length : (Instr.h261Pkt false 0 17 [0, 0, 0, 0, 0]).wellFormed 16 = false := by decide
theorem test_wellFormed_refuses_h261_words : (Instr.h261Pkt false 0 4 []).wellFormed 16 = false := by decide

/-! ## Decode: words written out from 30_encoding.md R81 to R85 -/

theorem test_decode_nop : decode 2048 [0x00000000] = .cmd .nop [] := by decide
theorem test_decode_srst : decode 2048 [0x01000000] = .cmd .srst [] := by decide
theorem test_decode_bpPut : decode 2048 [0x10000020, 0xDEADBEEF] = .cmd (.bpPut 32 0xDEADBEEF) [] := by decide
theorem test_decode_bpFlush : decode 2048 [0x11000000, 0x11800000] = .cmd (.bpFlush false) [0x11800000] := by decide
theorem test_decode_encBegin : decode 2048 [0x12000000] = .cmd .encBegin [] := by decide
theorem test_decode_encGob : decode 2048 [0x13000081] = .cmd (.encGob 1 8) [] := by decide
theorem test_decode_encMb : decode 2048 [0x14000021, 0xFFFFFFFF, 0x80000000] = .cmd (.encMb 33 [0xFFFFFFFF, 0x80000000]) [] := by
  decide
theorem test_decode_jpegFrag : decode 2048 [0x2080000B, 0x000003E8, 0xFFFFFFFF, 0x00000004, 0x55667788] =
    .cmd (.jpegFrag true 11 1000 0xFFFFFFFF 4 [0x55667788]) [] := by decide
theorem test_decode_h261Pkt : decode 2048 [0x30800064, 0x00000006, 0x00102000, 0xAABB0000] =
    .cmd (.h261Pkt true 100 6 [0x00102000, 0xAABB0000]) [] := by decide
/-- X1, X5, X12 and X8 of spec/95_test_vectors.md. -/
theorem test_decode_refuses : decode 2048 [0x02000000] = .bad .illegalOpcode ∧
    decode 2048 [0x11000001] = .bad .reservedNonzero ∧ decode 2048 [0x10000021] = .bad .badNbits ∧
    decode 2048 [0x30000001, 0x00000801] = .bad .badLength := by decide
/-- 30_encoding.md R97. -/
theorem test_pseudo : pseudoEncEnd = [.bpFlush true] ∧ pseudoEncCut = [.bpFlush false] ∧
    pseudoBpZeros 7 = [.bpPut 7 0] ∧ pseudoBpPut64 33 0x1FFFFFFFE = [.bpPut 1 1, .bpPut 32 0xFFFFFFFE] := by decide
theorem test_decodeTableWord : decodeTableWord 32 0x130001F3 = some (.encGob 3 31) := by decide
/-- 00_scope.md R4: an MTU with no room for four payload bytes is refused. -/
theorem test_illegal_config : Config.ofParams? { Config.default.params with mtu := 19 } = none := by decide

/-! ## Small states -/

/-- A small configuration: `L = 64`, a ring of 4. -/
def tiny : Config where
  params :=
    { w := 32, mtu := 24, hdrBytes := 16, gap := 5, ringSize := 4, jpegMax := 64, jpegInitCap := 8, decimate := 0,
      maxPktBytes := 16 }
  legal := by decide

/-- The same with a 64-bit accumulator. -/
def tiny64 : Config where
  params := ⟨64, 24, 16, 5, 4, 64, 8, 0, 16⟩
  legal := by decide

/-- The same with one JPEG frame in two kept. -/
def tinyHalf : Config where
  params := ⟨32, 24, 16, 5, 4, 64, 8, 2, 16⟩
  legal := by decide

/-- The tiny machine right after reset. -/
def fresh : State := State.powerOn tiny

/-- The tiny machine with words waiting at the command port. -/
def fed (ws : List Word) : State := { fresh with input := ws.map .word }

/-- The state an outcome leaves, `s` where it leaves none. -/
def after (o : Host.Outcome State Fault Refusal) (s : State) : State :=
  match o with
  | .next t => t
  | _ => s

/-- The state a command leaves on a fresh tiny machine. -/
def did (i : Instr) (s : State) : State := after (exec i s) s

/-- A packet of 40 bits, one word of them stored. -/
def packed : State := { fresh with bp := ⟨0xFF000000, 8, 4, [(0, 0xFF), (1, 0xFF), (2, 0xFF), (3, 0xFF)]⟩ }

/-- A GOB is open and 46 bits are in the packet (F2). -/
def inGob : State := { fresh with
  bp := ⟨0xFFFC0000, 14, 4, [(0, 0x00), (1, 0x01), (2, 0x14), (3, 0x3F)]⟩
  enc := { fresh.enc with gobValid := true, gobGn := 1, gobGq := 8 } }

/-- The marker fragment of a two-fragment frame has arrived, the first one has not. -/
def tailFirst : State := did (.jpegFrag true 11 1000 4 4 [0x55667788]) fresh

/-- A frame is open at sequence number 100, with that packet alone. -/
def opened : State := did (.h261Pkt false 100 5 [0x00102000, 0x01000000]) fresh

/-- The fault state of X1. -/
def faulted : State := { fresh with flt := ⟨true, 0x01, 0x02000000, 0⟩, cp := 1 }

/-! ## One step of each command -/

/-- K1. -/
theorem test_nop : (did .nop fresh).trace = [.result 0] := by decide
/-- K2: the bit count is gone, `cp` is 1. -/
theorem test_srst : (did .srst packed).bp.bitCount = 0 ∧ (did .srst packed).cp = 1 := by decide
/-- V4: twenty bits after twenty bits spill one word. -/
theorem test_bpPut_spills : (did (.bpPut 20 0x12345) { fresh with bp := ⟨0xABCDE000, 20, 0, []⟩ }).bp =
    ⟨0x45000000, 8, 4, [(0, 0xAB), (1, 0xCD), (2, 0xE1), (3, 0x23)]⟩ := by decide
/-- V10: BP_OVERFLOW appends nothing. -/
theorem test_bpPut_overflow : (did (.bpPut 25 0) packed).trace = [.result 0xFF000005] ∧
    (did (.bpPut 25 0) packed).bp = packed.bp := by decide
/-- V13: the five bytes of a 35-bit packet. -/
theorem test_bpFlush : (did (.bpFlush false) { fresh with bp := ⟨0xE0000000, 3, 4, [(0, 0), (1, 0), (2, 0), (3, 3)]⟩ }).trace =
    [.pktOut false 5 [0x00, 0x00, 0x00, 0x03, 0xE0], .result 0x09000005] := by decide
/-- V8: an empty packet. -/
theorem test_bpFlush_empty : (did (.bpFlush true) fresh).trace = [.pktOut true 0 [], .result 0x09000000] := by decide
/-- F8. -/
theorem test_encBegin : (did .encBegin inGob).bp.bitCount = 0 ∧ (did .encBegin inGob).enc.gobValid = false := by decide
/-- F1: the 26 bits of GN 1, GQ 8. -/
theorem test_encGob : (did (.encGob 1 8) fresh).bp = ⟨0x00011400, 26, 0, []⟩ := by decide
/-- F5: the header would pass `L`. -/
theorem test_encGob_splits : (did (.encGob 3 31) packed).trace =
    [.pktOut false 0 [0xFF, 0xFF, 0xFF, 0xFF, 0xFF], .result 0x0E000005] := by decide
/-- F2: MB_RETRY. -/
theorem test_encMb_retry : (did (.encMb 20 [0xFFFFF000]) inGob).trace =
    [.pktOut false 2 [0x00, 0x01, 0x14, 0x3F, 0xFF, 0xFC], .result 0x0B000006] ∧
    (did (.encMb 20 [0xFFFFF000]) inGob).bp.bitCount = 26 := by decide
/-- F3b: MB_TOO_LARGE with no GOB open. -/
theorem test_encMb_tooLarge : (did (.encMb 65 [0xFFFFFFFF, 0xFFFFFFFF, 0x80000000]) fresh).trace = [.result 0x0C000041] := by
  decide
/-- J2: the first fragment arrives last. -/
theorem test_jpegFrag : (did (.jpegFrag false 10 1000 0 4 [0x11223344]) tailFirst).trace.drop 1 =
    [.frameJpeg 1000 [0x11, 0x22, 0x33, 0x44, 0x55, 0x66, 0x77, 0x88], .result 0x02000008] := by decide +kernel
/-- J6: the capacity doubles from 8 to hold byte 17. -/
theorem test_jpegFrag_grows : (did (.jpegFrag false 1 0 9 8 [0, 0]) fresh).jpeg.jcap = 32 := by decide +kernel
/-- H6: the older packet overflows the ring. -/
theorem test_h261Pkt_older : (did (.h261Pkt false 99 5 [0x00102000, 0]) opened).trace.drop 1 = [.result 0x07000000] := by
  decide
/-- H14: every field of the header at a value of its own. -/
theorem test_h261Pkt_fields : (did (.h261Pkt true 7 5 [0xB7A5A8C3, 0xF0000000]) fresh).trace =
    [.frameH261 ⟨7, 1, [0xF0], 5, 5, true, true, 10, 11, 10, 6, 3, [0xB7A5A8C3]⟩, .result 0x02000001] := by decide
/-- X9: a reserved bit of LENW, with the header word's `cp`. -/
theorem test_decode_fault : (after (step { fed [0x00010004] with pend := [0x30000001], cp := 1 }) fresh).flt =
    ⟨true, 0x02, 0x30000001, 0⟩ := by decide
/-- Vector K3 of spec/95_test_vectors.md: one word of a two-word command. -/
theorem test_partial_command_read : (fun s => (csrValue s 0x00, csrValue s 0x03)) (after (step (fed [0x10000005])) fresh) =
    (0x00100000, 1) := by decide
/-- Every other register is as after the last complete command (44_control.md R222). -/
theorem test_partial_command_other_register :
    csrValue (after (step { fed [0x10000005] with bp := packed.bp }) fresh) 0x08 = 40 := by decide
/-- 42_jpeg_reassembler.md R165, the pseudocode: 2^31 apart (log entry 24), and equal. -/
theorem test_evictee_ties :
    evictee { fresh.jpeg with rb0 := ⟨true, 0x80000005, false, []⟩, rb1 := ⟨true, 5, false, []⟩ } = .rb0 ∧
    evictee { fresh.jpeg with rb0 := ⟨true, 5, false, []⟩, rb1 := ⟨true, 5, false, []⟩ } = .rb1 := by decide
/-- The host's question: the placed word runs as the first instruction after reset. -/
theorem test_withFetchWord : step (State.reset.withFetchWord 32 0x13000081) = exec (.encGob 1 8) { State.reset with cp := 1 } := by
  rfl

/-! ## Witnesses: each statement's hypotheses met, clause by clause, at the boundaries of its ranges -/

/-- The tiny machine is sound in the states used below. -/
theorem fresh_sound : State.Inv fresh := by
  refine ⟨by decide, by decide, by decide, by decide, by decide, by decide⟩
theorem packed_sound : State.Inv packed := by
  refine ⟨by decide, by decide, by decide, by decide, by decide, by decide⟩
theorem inGob_sound : State.Inv inGob := by
  refine ⟨by decide, by decide, by decide, by decide, by decide, by decide⟩
theorem faulted_sound : State.Inv faulted := by
  refine ⟨by decide, by decide, by decide, by decide, by decide, by decide⟩
theorem opened_sound : H261.Inv opened.cfg opened.h261 := by decide

theorem witness_DecodeOfEncode : (Instr.bpPut 32 0).wellFormed 16 = true ∧ (Instr.encMb 0 []).wellFormed 16 = true ∧
    (Instr.jpegFrag true 0xFFFF 0 0xFFFFFFFF 16 [0, 0, 0, 0]).wellFormed 16 = true := by decide
theorem witness_EncodeOfDecode : decode 16 [0x30800001, 0x00000010, 0, 0, 0, 0, 7] =
    .cmd (.h261Pkt true 1 16 [0, 0, 0, 0]) [7] := by decide
theorem witness_CommandLengthAndWaiting : (Instr.h261Pkt true 1 0 []).wellFormed 16 = true ∧
    0 < (encode (.h261Pkt true 1 0 [])).length ∧ (encode (.h261Pkt true 1 0 [])).length = 2 := by decide
theorem witness_HeaderWordsRefused : decode 16 [0x31000000] = .bad .illegalOpcode ∧
    decode 16 [0x12000001] = .bad .reservedNonzero ∧ decode 16 [0x1000003F] = .bad .badNbits := by decide
theorem witness_LenwWordsRefused : decode 16 [0x20000001] = .more ∧ decode 16 [0x30000001] = .more ∧
    (0x20000001 : Word).extractLsb' 24 8 = 0x20 ∧ (0x30000001 : Word).extractLsb' 24 8 = 0x30 ∧
    (0x00010000 : Word).extractLsb' 16 16 ≠ 0 ∧ (0x00000010 : Word).extractLsb' 16 16 = 0 ∧
    ((0x00000010 : Word).extractLsb' 0 16).toNat = 16 ∧ 16 < ((0x00000011 : Word).extractLsb' 0 16).toNat := by decide
theorem witness_PaddingHasNoEffect : (∀ k < (5 : BitVec 6).toNat, (0x1F : Word).getLsbD k = (0xFFFFFFFF : Word).getLsbD k) ∧
    (∀ k < 20, (([0xABCDE000] : List Word).getD (k / 32) 0).getLsbD (31 - k % 32) =
      (([0xABCDEFFF] : List Word).getD (k / 32) 0).getLsbD (31 - k % 32)) ∧
    (∀ k < 5, (([1, 0x22000000] : List Word).getD (k / 4) 0).extractLsb' (24 - 8 * (k % 4)) 8 =
      (([1, 0x22345678] : List Word).getD (k / 4) 0).extractLsb' (24 - 8 * (k % 4)) 8) := by decide
theorem witness_Put64AppendsItsBits : Packer.Inv fresh.cfg fresh.bp ∧ fresh.bp.bitCount + 64 ≤ fresh.cfg.limitBits :=
  ⟨fresh_sound.1, by decide⟩
theorem witness_StepRunsDecodedCommand : (fed [0x00000005]).flt.fault = false ∧
    (fed [0x00000005]).input = [.word 0x00000005] ∧
    decode tiny.params.maxPktBytes ([0x10000003] ++ [0x00000005]) = .cmd (.bpPut 3 5) [] := by decide
theorem witness_CommandWordsExecuteOnce : (Instr.h261Pkt true 100 5 [0x00102000, 0]).wellFormed tiny.params.maxPktBytes = true ∧
    (fed (encode (.h261Pkt true 100 5 [0x00102000, 0]))).flt.fault = false ∧
    (fed (encode (.h261Pkt true 100 5 [0x00102000, 0]))).pend = [] ∧
    (fed (encode (.h261Pkt true 100 5 [0x00102000, 0]))).input =
      (encode (.h261Pkt true 100 5 [0x00102000, 0])).map .word ++ [] := by decide
theorem witness_DecodeFaultEntry : (fed [0x02000000]).flt.fault = false ∧
    (fed [0x02000000]).input = [.word 0x02000000] ∧
    decode tiny.params.maxPktBytes ((fed [0x02000000]).pend ++ [0x02000000]) = .bad .illegalOpcode := by decide
theorem witness_FaultStateDiscardsWords : faulted.flt.fault = true ∧
    { faulted with input := [.word 0x01000000, .word 0x01000001] }.input = [.word 0x01000000, .word 0x01000001] := by decide
theorem witness_FaultLeftOnlyByReset : faulted.flt.fault = true ∧
    step { faulted with input := [.csrWrite 0x04 1] } = .next (performReset faulted) := ⟨rfl, rfl⟩
theorem witness_FaultEnteredOnlySo : (fed [0x02000000]).flt.fault = false ∧
    step (fed [0x02000000]) = .next (raiseFault .illegalOpcode 0x02000000 0 { fresh with cp := 1 }) ∧
    (raiseFault .illegalOpcode 0x02000000 0 { fresh with cp := 1 }).flt.fault = true := ⟨rfl, rfl, rfl⟩
theorem witness_CommandPointerMoves : State.Inv fresh ∧ step fresh = .next fresh ∧ State.Inv faulted :=
  ⟨fresh_sound, rfl, faulted_sound⟩
theorem witness_CsrPortAccesses :
    { fresh with input := [.csrRead 0x04] }.input = [.csrRead 0x04] ∧
    ¬ ((0x04 : BitVec 8) = 0x04 ∧ (2 : Word).getLsbD 0 = true) ∧ (1 : Word).getLsbD 0 = true ∧ fresh.input = [] := by decide
theorem witness_CsrPlainRegisters : Packer.Inv packed.cfg packed.bp ∧
    (0xFF : BitVec 8) ∉ ([0x00, 0x01, 0x02, 0x03, 0x08] : List (BitVec 8)) := ⟨packed_sound.1, by decide⟩
theorem witness_CommandAnswersOnce : exec .nop fresh = .next (emitResult .ok 0 fresh) := rfl
theorem witness_CommandsTouchTheirOwnState :
    exec .srst packed = .next (emitResult .ok 0 { performReset packed with cp := 1 }) := rfl
theorem witness_StepKeepsConfigAndHistory : step { fresh with input := [.csrRead 0x23] } =
    .next { fresh with csrOut := [⟨0x23, 8⟩] } := rfl
theorem witness_StepKeepsSound : State.Inv packed ∧ step packed = .next packed := ⟨packed_sound, rfl⟩
theorem witness_SoundMachineNeverStops : State.Inv inGob := inGob_sound
theorem witness_TraceEventsStayLegal : State.Inv fresh ∧ (∀ e ∈ fresh.trace, Event.Legal fresh.cfg e) ∧
    step fresh = .next fresh := ⟨fresh_sound, by simp [fresh, State.powerOn], rfl⟩
theorem witness_BpPutAppendsCode : (24 : BitVec 6).toNat ≤ 32 ∧ Packer.Inv packed.cfg packed.bp ∧
    packed.bp.bitCount + (24 : BitVec 6).toNat = packed.cfg.limitBits := ⟨by decide, packed_sound.1, by decide⟩
theorem witness_BpPutOverflowFaults : packed.cfg.limitBits < packed.bp.bitCount + (25 : BitVec 6).toNat := by decide
theorem witness_BpFlushSendsPacket : Packer.Inv packed.cfg packed.bp := packed_sound.1
theorem witness_EncGobAppendsHeader : Packer.Inv fresh.cfg { fresh.bp with fill := 32 } ∧
    { fresh.bp with fill := 32 }.bitCount + 26 ≤ fresh.cfg.limitBits := by decide
theorem witness_EncGobSplitsPacket : Packer.Inv packed.cfg packed.bp ∧ packed.cfg.limitBits < packed.bp.bitCount + 26 :=
  ⟨packed_sound.1, by decide⟩
theorem witness_EncMbAppendsMacroblock : ([0xFFFFF000] : List Word).length = ((18 : BitVec 16).toNat + 31) / 32 ∧
    Packer.Inv inGob.cfg inGob.bp ∧ inGob.bp.bitCount + (18 : BitVec 16).toNat = inGob.cfg.limitBits :=
  ⟨by decide, inGob_sound.1, by decide⟩
theorem witness_EncMbTooLarge : inGob.cfg.limitBits < inGob.bp.bitCount + (39 : BitVec 16).toNat ∧
    inGob.cfg.limitBits < (if inGob.enc.gobValid then 26 else 0) + (39 : BitVec 16).toNat := by decide
theorem witness_EncMbRetries : Packer.Inv inGob.cfg inGob.bp ∧
    inGob.cfg.limitBits < inGob.bp.bitCount + (38 : BitVec 16).toNat ∧
    (if inGob.enc.gobValid then 26 else 0) + (38 : BitVec 16).toNat = inGob.cfg.limitBits :=
  ⟨inGob_sound.1, by decide⟩
theorem witness_NoSecondRetry : Packer.Inv inGob.cfg inGob.bp ∧
    lastResultIs .mbRetry (did (.encMb 38 [0, 0]) inGob) = true ∧
    (did (.encMb 38 [0, 0]) inGob).bp.bitCount + (38 : BitVec 16).toNat = inGob.cfg.limitBits ∧
    ([0, 0] : List Word).length = ((38 : BitVec 16).toNat + 31) / 32 ∧
    ([0, 0] : List Word).length = ((39 : BitVec 16).toNat + 31) / 32 := ⟨inGob_sound.1, by decide⟩
theorem witness_OnlyFlushMarksPackets : exec (.bpFlush true) fresh = .next (did (.bpFlush true) fresh) ∧
    (did (.bpFlush true) fresh).trace = fresh.trace ++ [.pktOut true 0 [], .result 0x09000000] := ⟨rfl, by decide⟩
theorem witness_PutsThenFlushSendTheirBits : Packer.Inv packed.cfg packed.bp ∧
    (∀ c ∈ [((24 : BitVec 6), (5 : Word)), (0, 7)], c.1.toNat ≤ 32) ∧
    packed.bp.bitCount + ([((24 : BitVec 6), (5 : Word)), (0, 7)].map (·.1.toNat)).sum = packed.cfg.limitBits :=
  ⟨packed_sound.1, by simp, by simp; decide⟩
/-- Thirty-two bits held as a full accumulator word of 32 bits and as half of one of 64. -/
theorem witness_WidthHasNoEffect :
    sameButWidth { fresh with bp := ⟨0xDEADBEEF, 32, 0, []⟩ }
      { State.powerOn tiny64 with bp := ⟨0xDEADBEEF00000000, 32, 0, []⟩ } ∧
    step { fresh with bp := ⟨0xDEADBEEF, 32, 0, []⟩ } = .next { fresh with bp := ⟨0xDEADBEEF, 32, 0, []⟩ } :=
  ⟨⟨rfl, by decide, by decide, by decide +kernel, rfl, rfl⟩, rfl⟩
theorem witness_FrameWalkEndsWithMarker : Packer.Inv packed.cfg packed.bp ∧
    ∀ mb, some mb ∈ [some (⟨⟨20, [0]⟩, ⟨0, []⟩⟩ : MbToSend), none] → mb.once.data.length = (mb.once.nbits.toNat + 31) / 32 ∧
      mb.again.data.length = (mb.again.nbits.toNat + 31) / 32 := by
  refine ⟨packed_sound.1, fun mb h => ?_⟩
  simp at h
  subst h
  decide
theorem witness_JpegUnusableFragmentsDropped : (0xFFFFFFFF : Word).toInt < 0 ∧ (0 : Int) ≤ (61 : Word).toInt ∧
    fresh.cfg.params.jpegMax < (61 : Word).toNat + (4 : BitVec 16).toNat ∧
    fresh.jpeg.jcap.toNat < (61 : Word).toNat + (4 : BitVec 16).toNat := by decide
/-- A fragment that ends exactly at the capacity, and one that ends exactly at `JPEG_MAX`. -/
theorem witness_JpegCapacityGrows : FragmentTaken fresh 4 4 ∧ FragmentTaken fresh 60 4 ∧
    (4 : Word).toNat + (4 : BitVec 16).toNat = fresh.jpeg.jcap.toNat ∧
    ([0] : List Word).length = ((4 : BitVec 16).toNat + 3) / 4 := by decide

/-- A fragment with decimation dropping new frames. -/
def dropping : State := { State.powerOn tinyHalf with jpeg := { (State.powerOn tinyHalf).jpeg with decCnt := 2 } }

theorem witness_JpegSlotRecorded : FragmentTaken fresh 4 4 ∧ ¬ fragmentDiscarded fresh 1000 ∧ FragmentTaken dropping 4 4 ∧
    fragmentDiscarded dropping 1000 ∧ ([0] : List Word).length = ((4 : BitVec 16).toNat + 3) / 4 := by
  unfold fragmentDiscarded
  decide
theorem witness_JpegBufferSelected : FragmentTaken tailFirst 0 4 ∧ ¬ takesBuffer tailFirst.jpeg 1000 ∧
    takesBuffer tailFirst.jpeg 1001 ∧ ([0] : List Word).length = ((4 : BitVec 16).toNat + 3) / 4 := by decide
theorem witness_JpegDecimatedDiscarded : FragmentTaken dropping 0 16 ∧ fragmentDiscarded dropping 7 := by
  unfold fragmentDiscarded
  decide
theorem witness_JpegPayloadCopied : FragmentTaken tailFirst 0 4 ∧ (∀ b, Memory.wf (tailFirst.jpeg.rb b).data) ∧
    ([0] : List Word).length = ((4 : BitVec 16).toNat + 3) / 4 ∧ ¬ fragmentDiscarded tailFirst 1000 := by
  refine ⟨by decide, fun b => by cases b <;> decide, by decide, ?_⟩
  unfold fragmentDiscarded
  decide
/-- The first fragment arriving last knows the total from the slot ahead and has the whole chain; the last one arriving
first has no chain; the first one arriving first has no total. -/
theorem witness_JpegFrameHandedOut :
    FragmentTaken tailFirst 0 4 ∧ ¬ fragmentDiscarded tailFirst 1000 ∧ ([0] : List Word).length = ((4 : BitVec 16).toNat + 3) / 4 ∧
    FrameTotal (did (.jpegFrag false 10 1000 0 4 [0]) tailFirst).jpeg.slots false 10 1000 0 4 8 ∧
    FragmentChain (did (.jpegFrag false 10 1000 0 4 [0]) tailFirst).jpeg.slots 10 1000 ∧
    (slotAt tailFirst.jpeg.slots (slotOf 10)).valid = false ∧
    (slotAfter (did (.jpegFrag false 10 1000 0 4 [0]) fresh).jpeg.slots (slotOf 10) 1).valid = false := by
  refine ⟨by decide, by unfold fragmentDiscarded; decide, by decide, ?_, ?_, by decide, by decide⟩
  · refine ⟨1, by decide, by decide, fun j h1 h2 => ?_, fun j h1 h2 => absurd h1 (by omega), by decide, by decide⟩
    obtain rfl : j = 1 := by omega
    decide
  · refine ⟨0, by decide, fun j hj => ?_, by decide⟩
    obtain rfl : j = 0 := by omega
    decide
theorem witness_JpegDuplicateHandsOutAgain : Jpeg.Inv fresh.cfg fresh.jpeg ∧
    ([0x01020304] : List Word).length = ((4 : BitVec 16).toNat + 3) / 4 ∧
    (did (.jpegFrag true 5 9 0 4 [0x01020304]) fresh).trace =
      fresh.trace ++ [.frameJpeg 9 [1, 2, 3, 4], .result 0x02000004] ∧
    exec (.jpegFrag true 5 9 0 4 [0x01020304]) fresh = .next (did (.jpegFrag true 5 9 0 4 [0x01020304]) fresh) ∧
    ([1, 2, 3, 4] : List Byte).length ≤ (did (.jpegFrag true 5 9 0 4 [0x01020304]) fresh).jpeg.jcap.toNat :=
  ⟨fresh_sound.2.1, by decide, by decide, rfl, by decide⟩
theorem witness_JpegAnyOrderRebuildsFrame : Jpeg.Inv fresh.cfg fresh.jpeg ∧ fresh.cfg.params.decimate = 0 ∧
    (∀ b, holdsFrame (fresh.jpeg.rb b) 7 → (fresh.jpeg.rb b).drop = false) ∧
    (∀ k, (slotAt fresh.jpeg.slots k).valid = true → (slotAt fresh.jpeg.slots k).ts ≠ 7) ∧
    (∀ p ∈ [⟨16, [0, 0, 0, 0]⟩, (⟨1, [0]⟩ : JpegPart)], 0 < p.len.toNat ∧ p.data.length = (p.len.toNat + 3) / 4) ∧
    partOffset [⟨16, [0, 0, 0, 0]⟩, ⟨1, [0]⟩] 2 ≤ fresh.cfg.params.jpegMax ∧
    [1, 0].Perm (List.range 2) := by
  refine ⟨fresh_sound.2.1, rfl, fun b => by cases b <;> decide, by decide, by decide, by decide, by decide⟩
theorem witness_H261RuntDropped : (3 : BitVec 16).toNat < 4 := by decide
/-- Index 3 of a ring of 4, and the packet that opens a frame. -/
theorem witness_H261PacketStored : H261.Inv opened.cfg opened.h261 ∧ 4 ≤ (4 : BitVec 16).toNat ∧
    ([0x00102000] : List Word).length = ((4 : BitVec 16).toNat + 3) / 4 ∧
    ringIndex 103 (firstAfter opened 103) = 3 ∧ opened.cfg.params.ringSize = 4 ∧
    ringIndex 200 (firstAfter opened 200) = 0 := by decide
theorem witness_H261RingOverflows : 4 ≤ (4 : BitVec 16).toNat ∧ ([0] : List Word).length = ((4 : BitVec 16).toNat + 3) / 4 ∧
    opened.cfg.params.ringSize = ringIndex 104 (firstAfter opened 104) := by decide
theorem witness_H261GapVoidsFrame : H261.Inv opened.cfg opened.h261 ∧ (4 ≤ (4 : BitVec 16).toNat ∧
    ([0] : List Word).length = ((4 : BitVec 16).toNat + 3) / 4) ∧
    ringIndex 102 (firstAfter opened 102) < opened.cfg.params.ringSize ∧
    ∃ j < ringIndex 102 (firstAfter opened 102), tableGet (ringAfter opened 102) j = none :=
  ⟨opened_sound, by decide, by decide, 1, by decide, by decide⟩
/-- One packet before the marker packet, and none. -/
theorem witness_H261MarkerHandsOutFrame : H261.Inv opened.cfg opened.h261 ∧
    ringIndex 101 (firstAfter opened 101) = 1 ∧
    tableGet (ringAfter opened 101) 0 = [(⟨100, 0x00102000, stdFields 0x00102000, [1]⟩ : RingPkt)][0]? ∧
    ringIndex 101 (firstAfter opened 101) < opened.cfg.params.ringSize ∧ ringIndex 7 (firstAfter fresh 7) = 0 ∧
    (16 : BitVec 16).toNat = opened.cfg.params.maxPktBytes ∧
    ([0, 0, 0, 0] : List Word).length = ((16 : BitVec 16).toNat + 3) / 4 :=
  ⟨opened_sound, by decide⟩
theorem witness_H261GapRestartsRing : frameRestarts opened 106 ∧ ¬ frameRestarts opened 105 ∧ frameRestarts fresh 65532 ∧
    1 ≤ fresh.cfg.params.gap ∧
    (∀ p ∈ List.replicate 4 (⟨4, [0]⟩ : H261Part), H261Part.Whole fresh.cfg.params.maxPktBytes p) ∧
    (65532 : BitVec 16).toNat + 4 = 65536 ∧ fresh.cfg.params.ringSize = 4 := by decide
theorem witness_H261ReorderedFrameHandedOut : H261.Inv fresh.cfg fresh.h261 ∧ frameRestarts fresh 65532 ∧
    (∀ p ∈ List.replicate 4 (⟨16, [0, 0, 0, 0]⟩ : H261Part), H261Part.Whole fresh.cfg.params.maxPktBytes p) ∧
    (65532 : BitVec 16).toNat + 4 = 65536 ∧
    [0, 2, 1, 3].Perm (List.range 4) ∧ [0, 2, 1, 3].head? = some 0 ∧ [0, 2, 1, 3].getLast? = some 3 ∧
    [0, 2, 1, 3].IsChain (withinGap fresh.cfg.params.gap) := by
  refine ⟨fresh_sound.2.2.1, by decide, by decide, by decide, by decide, by decide, by decide, ?_⟩
  simp [withinGap, fresh, tiny, State.powerOn]
theorem witness_H261IndexAndOlderPackets : H261.Inv opened.cfg opened.h261 ∧ ¬ frameRestarts opened 99 ∧
    opened.h261.first ≠ 0xFFFFFFFF ∧ (99 : BitVec 16).toNat < opened.h261.first.toNat ∧
    opened.cfg.params.ringSize ≤ 65535 - (opened.h261.first.toNat - (99 : BitVec 16).toNat) ∧
    4 ≤ (4 : BitVec 16).toNat ∧ ([0] : List Word).length = ((4 : BitVec 16).toNat + 3) / 4 := by decide

end Sys2Proof.Machine
end

section
/-! What the decoder's answer says of a command's operands (30_encoding.md R84, R85, R91). -/

namespace Sys2Proof

/-- Data words are taken exactly where there are enough of them. -/
theorem takeData_eq_cmd {k : Nat} {ws : List Word} {make : List Word → Instr} {i : Instr} {rest : List Word} :
    takeData k ws make = .cmd i rest ↔ k ≤ ws.length ∧ make (ws.take k) = i ∧ ws.drop k = rest := by
  unfold takeData
  split
  · next h => simp [h]
  · next h => simp [Nat.not_lt.1 h]

/-- A LENW word passes exactly with its reserved bits clear and its length in range. -/
theorem lenwFault_eq_none {maxPkt : Nat} {lw : Word} :
    lenwFault maxPkt lw = none ↔ lw.extractLsb' 16 16 = 0 ∧ (fieldLow16 lw).toNat ≤ maxPkt := by
  unfold lenwFault
  split
  · next h => exact ⟨nofun, fun ⟨hz, _⟩ => absurd hz h⟩
  · next h => simp [not_not.1 h]

/-- A header of BP.PUT that passes the checks has `N` at most 32. -/
theorem fieldN_le_of_headerFault {h : Word} (hf : headerFault h = none) (ho : opcodeOf h = some .bpPut) :
    (fieldN h).toNat ≤ 32 := by
  unfold headerFault at hf
  rw [ho] at hf
  by_contra hn
  simp only [true_and, Nat.not_le.1 hn, if_true] at hf
  split at hf <;> cases hf

/-- Behind a checked header word the decoder answers well-formed commands alone. -/
theorem decodeArgs_wellFormed {maxPkt : Nat} {op : Opcode} {h : Word} {ws rest : List Word} {i : Instr}
    (hn : op = .bpPut → (fieldN h).toNat ≤ 32) (hd : decodeArgs maxPkt op h ws = .cmd i rest) :
    i.wellFormed maxPkt = true := by
  cases op with
  | nop | srst | bpFlush | encBegin | encGob => cases hd; rfl
  | bpPut =>
    cases ws with
    | nil => cases hd
    | cons v ws => cases hd; simpa [Instr.wellFormed] using hn rfl
  | encMb =>
    obtain ⟨hk, rfl, -⟩ := takeData_eq_cmd.1 hd
    simpa [Instr.wellFormed] using hk
  | jpegFrag | h261Pkt =>
    simp only [decodeArgs] at hd
    split at hd
    · split at hd
      · cases hd
      · next hl =>
        obtain ⟨hk, rfl, -⟩ := takeData_eq_cmd.1 hd
        simpa [Instr.wellFormed, hk] using (lenwFault_eq_none.1 hl).2
    · cases hd

/-- The decoder answers well-formed commands alone (30_encoding.md R84, R85, R91). -/
theorem decode_wellFormed {maxPkt : Nat} {ws rest : List Word} {i : Instr} (hd : decode maxPkt ws = .cmd i rest) :
    i.wellFormed maxPkt = true := by
  unfold decode at hd
  split at hd
  · cases hd
  · split at hd
    · cases hd
    · next hf =>
      split at hd
      · cases hd
      · next op ho => exact decodeArgs_wellFormed (fun e => fieldN_le_of_headerFault hf (e ▸ ho)) hd

end Sys2Proof
end

section
/-! What every command, and every step, leaves alone: the configuration, the events and answers already there, the
host's pending actions (00_scope.md R3; 10_state.md R35). -/

namespace Sys2Proof.Machine

variable {s t u : State}

/-- From `s` to `t` the configuration, the CSR answers and the host's actions stay, and the trace only grows. -/
structure KeepsHistory (s t : State) : Prop where
  cfg : t.cfg = s.cfg
  trace : s.trace <+: t.trace
  csrOut : t.csrOut = s.csrOut
  input : t.input = s.input

/-- From `s` to `t` the history is kept, and so are the packer and the draw of the unwritten bytes: the frame of NOP and
of the two reassemblers. -/
structure KeepsPacker (s t : State) : Prop extends KeepsHistory s t where
  bp : t.bp = s.bp
  epoch : t.epoch = s.epoch

theorem KeepsHistory.trans (h : KeepsHistory s t) (k : KeepsHistory t u) : KeepsHistory s u :=
  ⟨k.cfg.trans h.cfg, h.trace.trans k.trace, k.csrOut.trans h.csrOut, k.input.trans h.input⟩

theorem KeepsPacker.trans (h : KeepsPacker s t) (k : KeepsPacker t u) : KeepsPacker s u :=
  ⟨h.toKeepsHistory.trans k.toKeepsHistory, k.bp.trans h.bp, k.epoch.trans h.epoch⟩

theorem KeepsHistory.emit (h : KeepsHistory s t) (e : Event) : KeepsHistory s (emit e t) :=
  ⟨h.cfg, h.trace.trans (List.prefix_append _ _), h.csrOut, h.input⟩

theorem KeepsHistory.emitResult (h : KeepsHistory s t) (c : ResultCode) (v : BitVec 24) :
    KeepsHistory s (emitResult c v t) := h.emit _

theorem KeepsHistory.emitCount (h : KeepsHistory s t) (c : ResultCode) (n : Nat) :
    KeepsHistory s (emitCount c n t) := h.emit _

theorem KeepsPacker.emitResult (h : KeepsPacker s t) (c : ResultCode) (v : BitVec 24) :
    KeepsPacker s (emitResult c v t) := ⟨h.toKeepsHistory.emit _, h.bp, h.epoch⟩

theorem KeepsPacker.emitFrame (h : KeepsPacker s t) (e : Event) (n : Nat) : KeepsPacker s (emitFrame e n t) :=
  ⟨⟨h.cfg, h.trace.trans (by simp), h.csrOut, h.input⟩, h.bp, h.epoch⟩

/-- New contents of the reassemblers are no history and no packer. -/
theorem keepsPacker_of_reassemblers (s : State) (j : Jpeg) (h : H261) :
    KeepsPacker s { s with jpeg := j, h261 := h } :=
  ⟨⟨rfl, List.prefix_rfl, rfl, rfl⟩, rfl, rfl⟩

theorem raiseFault_keepsHistory (c : FaultCode) (hdr p0 : Word) (s : State) :
    KeepsHistory s (raiseFault c hdr p0 s) :=
  ⟨rfl, List.prefix_append _ _, rfl, rfl⟩

theorem performReset_keepsHistory (s : State) : KeepsHistory s (performReset s) :=
  ⟨rfl, List.prefix_rfl, rfl, rfl⟩

/-! The encoder. -/

theorem send_keepsHistory {m : Bool} {nb : Nat} (h : send m s = .ok (nb, t)) : KeepsHistory s t := by
  simp only [send] at h
  split at h
  · cases h
  · split at h
    · cases h
    · cases h; exact ⟨rfl, List.prefix_append _ _, rfl, rfl⟩

theorem gobHdr_keepsHistory (h : gobHdr s = .ok t) : KeepsHistory s t := by
  unfold gobHdr at h
  split at h
  · cases h
  · cases h; exact ⟨rfl, List.prefix_rfl, rfl, rfl⟩

theorem openGob_keepsHistory {gn : BitVec 4} {gq : BitVec 5} (h : openGob gn gq s = .ok t) : KeepsHistory s t :=
  have k := gobHdr_keepsHistory h
  ⟨k.cfg, k.trace, k.csrOut, k.input⟩

theorem execBpPut_keepsHistory {n : BitVec 6} {v : Word} (h : execBpPut n v s = .next t) : KeepsHistory s t := by
  unfold execBpPut at h
  split at h
  · cases h; exact raiseFault_keepsHistory _ _ _ _
  · split at h
    · cases h
    · cases h; exact ⟨rfl, List.prefix_append _ _, rfl, rfl⟩

theorem execBpFlush_keepsHistory {m : Bool} (h : execBpFlush m s = .next t) : KeepsHistory s t := by
  unfold execBpFlush at h
  split at h
  · cases h
  · next hs =>
    cases h
    exact (send_keepsHistory hs).trans ⟨rfl, List.prefix_append _ _, rfl, rfl⟩

theorem execEncGob_keepsHistory {gn : BitVec 4} {gq : BitVec 5} (h : execEncGob gn gq s = .next t) :
    KeepsHistory s t := by
  unfold execEncGob at h
  split at h
  · split at h
    · cases h
    · next hs =>
      split at h
      · cases h
      · next ho => cases h; exact ((send_keepsHistory hs).trans (openGob_keepsHistory ho)).emitCount _ _
  · split at h
    · cases h
    · next ho => cases h; exact (openGob_keepsHistory ho).emitCount _ _

/-- The GOB header emitted again where a GOB is open (41_framer.md R132). -/
theorem reemit_keepsHistory (h : (if s.enc.gobValid then gobHdr s else .ok s) = .ok t) : KeepsHistory s t := by
  split at h
  · exact gobHdr_keepsHistory h
  · cases h; exact ⟨rfl, List.prefix_rfl, rfl, rfl⟩

theorem execEncMb_keepsHistory {nbits : BitVec 16} {data : List Word} (h : execEncMb nbits data s = .next t) :
    KeepsHistory s t := by
  unfold execEncMb at h
  split at h
  · split at h
    · cases h; exact ⟨rfl, List.prefix_append _ _, rfl, rfl⟩
    · split at h
      · cases h
      · next hs =>
        split at h
        · cases h
        · next hr => cases h; exact ((send_keepsHistory hs).trans (reemit_keepsHistory hr)).emitCount _ _
  · split at h
    · cases h
    · cases h; exact ⟨rfl, List.prefix_append _ _, rfl, rfl⟩

/-! The reassemblers. -/

theorem assembleFrame_keepsPacker (b : BufIx) (m : Bool) (seq : BitVec 16) (ts : Word) (off : Nat) (len : BitVec 16)
    (s : State) : KeepsPacker s (assembleFrame b m seq ts off len s) := by
  obtain ⟨j, -, ⟨total, -, -, h⟩ | ⟨-, h⟩⟩ := assembleFrame_cases b m seq ts off len s
  · rw [h]; exact (keepsPacker_of_reassemblers s _ _).emitFrame _ _
  · rw [h]; exact (keepsPacker_of_reassemblers s _ _).emitResult _ _

theorem acceptFragment_keepsPacker {m : Bool} {seq len : BitVec 16} {ts off : Word} {bytes : List Byte}
    (h : acceptFragment m seq ts off len bytes s = .next t) : KeepsPacker s t := by
  unfold acceptFragment at h
  split at h
  split at h
  · cases h; exact (keepsPacker_of_reassemblers s _ _).emitResult _ _
  · split at h
    · cases h
    · cases h
      exact (keepsPacker_of_reassemblers s _ s.h261).trans (assembleFrame_keepsPacker ..)

theorem execJpegFrag_keepsPacker {m : Bool} {seq len : BitVec 16} {ts off : Word} {data : List Word}
    (h : execJpegFrag m seq ts off len data s = .next t) : KeepsPacker s t := by
  unfold execJpegFrag at h
  split at h
  · cases h; exact (keepsPacker_of_reassemblers s _ _).emitResult _ _
  · split at h
    · cases h; exact (keepsPacker_of_reassemblers s _ _).emitResult _ _
    · exact (keepsPacker_of_reassemblers s _ s.h261).trans (acceptFragment_keepsPacker h)

theorem completeFrame_keepsPacker (idx : Nat) (last : RingPkt) (s : State) :
    KeepsPacker s (completeFrame idx last s) := by
  obtain ⟨p0, ps, -, h⟩ | ⟨-, h⟩ := completeFrame_cases idx last s
  · rw [h]; exact (keepsPacker_of_reassemblers s _ _).emitFrame _ _
  · rw [h]; exact (keepsPacker_of_reassemblers s _ _).emitResult _ _

theorem overflowRing_keepsPacker (m : Bool) (s : State) : KeepsPacker s (overflowRing m s) := by
  cases m <;> exact (keepsPacker_of_reassemblers s _ _).emitResult _ _

theorem storePacket_keepsPacker (m : Bool) (idx : Nat) (p : RingPkt) (s : State) :
    KeepsPacker s (storePacket m idx p s) := by
  cases m with
  | false => exact (keepsPacker_of_reassemblers s _ _).emitResult _ _
  | true => exact (keepsPacker_of_reassemblers s s.jpeg _).trans (completeFrame_keepsPacker ..)

theorem acceptPacket_keepsPacker (m : Bool) (seq : BitVec 16) (hdr : Word) (payload : List Byte) (s : State) :
    KeepsPacker s (acceptPacket m seq hdr payload s) := by
  unfold acceptPacket
  simp only
  split
  · exact (keepsPacker_of_reassemblers s s.jpeg _).trans (overflowRing_keepsPacker ..)
  · exact (keepsPacker_of_reassemblers s s.jpeg _).trans (storePacket_keepsPacker ..)

theorem execH261Pkt_keepsPacker {m : Bool} {seq len : BitVec 16} {data : List Word}
    (h : execH261Pkt m seq len data s = .next t) : KeepsPacker s t := by
  unfold execH261Pkt at h
  split at h
  · cases h; exact (keepsPacker_of_reassemblers s _ _).emitResult _ _
  · cases h; exact acceptPacket_keepsPacker ..

/-! Every command, and every step. -/

/-- No command changes the configuration, an answer or a pending action of the host, and each only adds events. -/
theorem exec_keepsHistory {i : Instr} (h : exec i s = .next t) : KeepsHistory s t := by
  cases i with
  | nop => cases h; exact ⟨rfl, List.prefix_append _ _, rfl, rfl⟩
  | srst => cases h; exact ⟨rfl, List.prefix_append _ _, rfl, rfl⟩
  | encBegin => cases h; exact ⟨rfl, List.prefix_append _ _, rfl, rfl⟩
  | bpPut n v => exact execBpPut_keepsHistory h
  | bpFlush m => exact execBpFlush_keepsHistory h
  | encGob gn gq => exact execEncGob_keepsHistory h
  | encMb nbits data => exact execEncMb_keepsHistory h
  | jpegFrag m seq ts off len data => exact (execJpegFrag_keepsPacker h).toKeepsHistory
  | h261Pkt m seq len data => exact (execH261Pkt_keepsPacker h).toKeepsHistory

/-- A consumed word changes the history no more than a command does. -/
theorem discardNext_keepsHistory {w : Word} (h : discardNext w s = .next t) : KeepsHistory s t := by
  obtain ⟨-, e⟩ | ⟨-, e⟩ := discardNext_cases w s <;> rw [e] at h
  · cases h; exact ⟨rfl, List.prefix_rfl, rfl, rfl⟩
  · have k := exec_keepsHistory h
    exact ⟨k.cfg, k.trace, k.csrOut, k.input⟩

theorem decodeNext_keepsHistory {w : Word} (h : decodeNext w s = .next t) : KeepsHistory s t := by
  obtain ⟨-, e⟩ | ⟨c, -, e⟩ | ⟨i, after, -, e⟩ := decodeNext_cases w s <;> rw [e] at h
  · cases h; exact ⟨rfl, List.prefix_rfl, rfl, rfl⟩
  · cases h; exact ⟨rfl, List.prefix_append _ _, rfl, rfl⟩
  · have k := exec_keepsHistory h
    exact ⟨k.cfg, k.trace, k.csrOut, k.input⟩

theorem consumeWord_keepsHistory {w : Word} (h : consumeWord w s = .next t) : KeepsHistory s t := by
  unfold consumeWord at h
  split at h
  · exact discardNext_keepsHistory h
  · exact decodeNext_keepsHistory h

theorem csrWrite_keepsHistory (a : BitVec 8) (v : Word) (s : State) : KeepsHistory s (csrWrite a v s) := by
  obtain ⟨-, -, e⟩ | ⟨-, e⟩ := csrWrite_cases a v s <;> rw [e]
  · exact performReset_keepsHistory s
  · exact ⟨rfl, List.prefix_rfl, rfl, rfl⟩

/-- Settles O22, by the action the step takes: a CSR read adds its answer, and the other actions keep the history of
the state whose queue lost its head. -/
theorem stepKeepsConfigAndHistory : Obligations.StepKeepsConfigAndHistory := by
  intro s t h
  have taken : ∀ {rest}, s.input.drop 1 = rest → KeepsHistory { s with input := rest } t →
      t.cfg = s.cfg ∧ s.trace <+: t.trace ∧ s.csrOut <+: t.csrOut ∧ t.input = s.input.drop 1 :=
    fun hr k => ⟨k.cfg, k.trace, by rw [k.csrOut], k.input.trans hr.symm⟩
  obtain ⟨hi, e⟩ | ⟨a, rest, hi, e⟩ | ⟨a, v, rest, hi, e⟩ | ⟨w, rest, hi, ⟨-, e⟩ | ⟨-, e⟩⟩ := step_cases s
  all_goals rw [e] at h
  · cases h; simp [hi]
  · cases h; exact ⟨rfl, List.prefix_rfl, List.prefix_append _ _, by rw [hi]; rfl⟩
  · cases h; exact taken (by rw [hi]; rfl) (csrWrite_keepsHistory ..)
  · exact taken (by rw [hi]; rfl) (discardNext_keepsHistory h)
  · exact taken (by rw [hi]; rfl) (decodeNext_keepsHistory h)

end Sys2Proof.Machine
end

section
/-! The accumulator width has no effect (00_scope.md R5): a machine and its recast, which holds the same packet in a
packer of another width, answer every command alike. -/

namespace Sys2Proof.Machine

/-! ## Two packers with the same packet -/

/-- The same machine with another configuration, another packer and other answers already given at the CSR port. -/
def State.recast (c : Config) (p : Packer) (o : List CsrAnswer) (s : State) : State :=
  { s with cfg := c, bp := p, csrOut := o }

section Recast

variable (c : Config) (p : Packer) (o : List CsrAnswer) (s : State)

@[simp] theorem recast_cfg : (s.recast c p o).cfg = c := rfl
@[simp] theorem recast_pend : (s.recast c p o).pend = s.pend := rfl
@[simp] theorem recast_flt : (s.recast c p o).flt = s.flt := rfl
@[simp] theorem recast_bp : (s.recast c p o).bp = p := rfl
@[simp] theorem recast_enc : (s.recast c p o).enc = s.enc := rfl
@[simp] theorem recast_jpeg : (s.recast c p o).jpeg = s.jpeg := rfl
@[simp] theorem recast_h261 : (s.recast c p o).h261 = s.h261 := rfl
@[simp] theorem recast_input : (s.recast c p o).input = s.input := rfl
@[simp] theorem recast_csrOut : (s.recast c p o).csrOut = o := rfl

end Recast

/-! The parameters but `W` are the same (00_scope.md R3). -/

namespace sameParamsButWidth

variable {c d : Config} (h : sameParamsButWidth c d)
include h

theorem params : d.params = { c.params with w := d.params.w } := Eq.symm h
theorem mtu : d.params.mtu = c.params.mtu := by rw [h.params]
theorem hdrBytes : d.params.hdrBytes = c.params.hdrBytes := by rw [h.params]
theorem gap : d.params.gap = c.params.gap := by rw [h.params]
theorem ringSize : d.params.ringSize = c.params.ringSize := by rw [h.params]
theorem jpegMax : d.params.jpegMax = c.params.jpegMax := by rw [h.params]
theorem jpegInitCap : d.params.jpegInitCap = c.params.jpegInitCap := by rw [h.params]
theorem decimate : d.params.decimate = c.params.decimate := by rw [h.params]
theorem maxPktBytes : d.params.maxPktBytes = c.params.maxPktBytes := by rw [h.params]

theorem limitBits : d.limitBits = c.limitBits := by
  simp only [Config.limitBits, Config.pktCap, h.mtu, h.hdrBytes]

theorem exceedsLimit (k n : Nat) : Machine.exceedsLimit d k n = Machine.exceedsLimit c k n := by
  simp only [Machine.exceedsLimit, h.limitBits]

end sameParamsButWidth

/-- Two sound packers, of configurations that differ at most in `W`, hold the same bit string. -/
structure SamePacket (epoch : Nat) (c d : Config) (p q : Packer) : Prop where
  params : sameParamsButWidth c d
  soundLeft : Packer.Inv c p
  soundRight : Packer.Inv d q
  bits : p.bits c epoch = q.bits d epoch

/-- `sameButWidth` says that the second machine is a recast of the first, with the same packet and the same answers but
those of `CFG_W`. -/
theorem sameButWidth_iff {s t : State} :
    sameButWidth s t ↔ ∃ c p o, t = s.recast c p o ∧ SamePacket s.epoch s.cfg c s.bp p ∧
      s.csrOut.filter (fun r => r.addr ≠ 0x30) = o.filter (fun r => r.addr ≠ 0x30) := by
  constructor
  · rintro ⟨hparams, hs, ht, hbits, hcsr, heq⟩
    have hrecast : t = s.recast t.cfg t.bp t.csrOut := heq.symm
    have hepoch : t.epoch = s.epoch := by rw [hrecast]; rfl
    exact ⟨t.cfg, t.bp, t.csrOut, hrecast, ⟨hparams, hs, ht, hepoch ▸ hbits⟩, hcsr⟩
  · rintro ⟨c, p, o, rfl, h, hcsr⟩
    exact ⟨h.params, h.soundLeft, h.soundRight, h.bits, hcsr, rfl⟩

/-- The bit string of a packer is as long as its bit count says (40_bitpacker.md R117). -/
theorem length_bits (cfg : Config) (epoch : Nat) (p : Packer) : (p.bits cfg epoch).length = p.bitCount := by
  simp [Packer.bits, Packer.bitCount]

/-- Two sound empty packers hold the same packet. -/
theorem samePacket_of_empty {epoch : Nat} {c d : Config} {p q : Packer} (hcd : sameParamsButWidth c d)
    (hp : Packer.Inv c p) (hq : Packer.Inv d q) (hp0 : p.fill = 0 ∧ p.cursor = 0) (hq0 : q.fill = 0 ∧ q.cursor = 0) :
    SamePacket epoch c d p q :=
  ⟨hcd, hp, hq, by rw [(bits_of_empty hp0.1 hp0.2).1, (bits_of_empty hq0.1 hq0.2).1]⟩

/-- The packer after reset is sound in every configuration. -/
theorem packerReset_inv (cfg : Config) : Packer.Inv cfg Packer.reset :=
  fresh_inv (p := Packer.reset) List.Pairwise.nil nofun

namespace SamePacket

variable {epoch : Nat} {c d : Config} {p q : Packer}

theorem bitCount (h : SamePacket epoch c d p q) : q.bitCount = p.bitCount := by
  rw [← length_bits c epoch p, ← length_bits d epoch q, h.bits]

theorem byteCount (h : SamePacket epoch c d p q) : q.byteCount = p.byteCount := by
  rw [(byteCount_spec h.soundLeft).1, (byteCount_spec h.soundRight).1, h.bitCount]

theorem stuffing (h : SamePacket epoch c d p q) : q.stuffing = p.stuffing := by
  simp only [Packer.stuffing, h.byteCount, h.bitCount]

/-- Emptying both packets leaves them the same. -/
theorem fresh (h : SamePacket epoch c d p q) : SamePacket epoch c d p.fresh q.fresh := by
  obtain ⟨-, -, -, -, -, -, hpwf, hpin, -⟩ := h.soundLeft
  obtain ⟨-, -, -, -, -, -, hqwf, hqin, -⟩ := h.soundRight
  exact samePacket_of_empty h.params (fresh_inv hpwf hpin) (fresh_inv hqwf hqin) ⟨rfl, rfl⟩ ⟨rfl, rfl⟩

/-- After a reset both packers are empty. -/
theorem reset (h : SamePacket epoch c d p q) (epoch' : Nat) :
    SamePacket epoch' c d Packer.reset Packer.reset :=
  samePacket_of_empty h.params (packerReset_inv c) (packerReset_inv d) ⟨rfl, rfl⟩ ⟨rfl, rfl⟩

/-- Codes that fit are appended by both packers, which then hold the same packet again (40_bitpacker.md R110, R117). -/
theorem putCodes (h : SamePacket epoch c d p q) {cs : List (Word × Nat)} (hcs : ∀ x ∈ cs, x.2 ≤ 32)
    (hroom : p.bitCount + codesLength cs ≤ c.limitBits) :
    ∃ p' q', putCodes c cs p = .ok p' ∧ Machine.putCodes d cs q = .ok q' ∧ SamePacket epoch c d p' q' := by
  obtain ⟨p', hp', hpinv, -, hpbits, -⟩ := putCodes_spec (epoch := epoch) hcs h.soundLeft hroom
  obtain ⟨q', hq', hqinv, -, hqbits, -⟩ :=
    putCodes_spec (epoch := epoch) hcs h.soundRight (by rwa [h.bitCount, h.params.limitBits])
  exact ⟨p', q', hp', hq', h.params, hpinv, hqinv, by rw [hpbits, hqbits, h.bits]⟩

end SamePacket

/-- One code appended is a list of one code appended. -/
theorem putCodes_singleton (cfg : Config) (v : Word) (n : Nat) (p : Packer) :
    putCodes cfg [(v, n)] p = put cfg v n p := by
  unfold putCodes
  cases put cfg v n p <;> rfl

/-! ## The encoder's operations -/

variable {s : State} {c : Config} {p : Packer}

/-- Both machines send the same packet, and start an empty one (40_bitpacker.md R115, R117). -/
theorem send_recast (h : SamePacket s.epoch s.cfg c s.bp p) (m : Bool) (o : List CsrAnswer) :
    ∃ nb t q, send m s = .ok (nb, t) ∧ send m (s.recast c p o) = .ok (nb, t.recast c q o) ∧
      SamePacket t.epoch t.cfg c t.bp q ∧ t.bp.bitCount = 0 := by
  obtain ⟨bytes, r, hs, hbits, -, hr, hr0, hr1, -⟩ := send_spec (m := m) h.soundLeft
  obtain ⟨bytes', q, ht, hbits', -, hq, hq0, hq1, -⟩ := send_spec (m := m) (s := s.recast c p o) h.soundRight
  have hsame : bytes' = bytes := flatMap_byteBits_injective <| by
    rw [hbits, hbits', h.bits]
    exact congrArg (fun n => p.bits c s.epoch ++ List.replicate n false) h.stuffing
  refine ⟨_, _, q, hs, ?_, samePacket_of_empty h.params hr hq ⟨hr0, hr1⟩ ⟨hq0, hq1⟩,
    by simp [Packer.bitCount, hr0, hr1]⟩
  rw [ht, hsame, recast_bp, h.byteCount, h.stuffing]
  rfl

/-- Both machines append the same GOB header where it fits (41_framer.md R130). -/
theorem gobHdr_recast (h : SamePacket s.epoch s.cfg c s.bp p) (hroom : s.bp.bitCount + gobHdrBits ≤ s.cfg.limitBits)
    (o : List CsrAnswer) :
    ∃ t q, gobHdr s = .ok t ∧ gobHdr (s.recast c p o) = .ok (t.recast c q o) ∧
      SamePacket t.epoch t.cfg c t.bp q := by
  obtain ⟨r, q, hr, hq, hsame⟩ := h.putCodes (cs := gobHdrCodes s.enc.gobGn s.enc.gobGq) (by simp [gobHdrCodes])
    (by rwa [(codesBits_gobHdr _ _).2])
  exact ⟨{ s with bp := r }, q, by rw [gobHdr, hr], by simp only [gobHdr, State.recast, hq], hsame⟩

/-- An empty packet has room for a GOB header (41_framer.md R133). -/
theorem gobHdr_fits_empty (h : s.bp.bitCount = 0) : s.bp.bitCount + gobHdrBits ≤ s.cfg.limitBits := by
  have := thirty_two_le_limitBits s.cfg
  simp only [h, gobHdrBits]
  omega

/-! ## The commands -/

/-- The width has no effect on `f`: where it answers a state, it answers every recast that holds the same packet with a
recast of its answer that again holds the same packet. -/
def WidthBlind (f : State → Host.Outcome State Fault Refusal) : Prop :=
  ∀ (s s' : State) (c : Config) (p : Packer) (o : List CsrAnswer), SamePacket s.epoch s.cfg c s.bp p →
    f s = .next s' →
    ∃ q, f (s.recast c p o) = .next (s'.recast c q o) ∧ SamePacket s'.epoch s'.cfg c s'.bp q

theorem execBpPut_widthBlind {n : BitVec 6} (hn : n.toNat ≤ 32) (v : Word) : WidthBlind (execBpPut n v) := by
  intro s s' c p o h hs
  cases hx : exceedsLimit s.cfg s.bp.bitCount n.toNat with
  | true =>
    simp only [execBpPut, hx, if_true] at hs
    cases hs
    refine ⟨p, ?_, h⟩
    simp only [execBpPut, recast_cfg, recast_bp, h.params.exceedsLimit, h.bitCount, hx, if_true]
    rfl
  | false =>
    have hroom : s.bp.bitCount + n.toNat ≤ s.cfg.limitBits := by simpa [exceedsLimit] using hx
    obtain ⟨r, q, hr, hq, hsame⟩ := h.putCodes (cs := [(v, n.toNat)]) (by simpa using hn)
      (by simpa [codesLength] using hroom)
    rw [putCodes_singleton] at hr hq
    simp only [execBpPut, hx, hr, Bool.false_eq_true, if_false] at hs
    cases hs
    refine ⟨q, ?_, hsame⟩
    simp only [execBpPut, recast_cfg, recast_bp, h.params.exceedsLimit, h.bitCount, hx, hq, Bool.false_eq_true,
      if_false, hsame.bitCount]
    rfl

theorem execBpFlush_widthBlind (m : Bool) : WidthBlind (execBpFlush m) := by
  intro s s' c p o h hs
  obtain ⟨nb, t, q, hsend, hsend', hsame, -⟩ := send_recast h m o
  simp only [execBpFlush, hsend] at hs
  cases hs
  exact ⟨q, by simp only [execBpFlush, hsend']; rfl, hsame⟩

theorem execEncBegin_widthBlind : WidthBlind execEncBegin := by
  intro s s' c p o h hs
  cases hs
  exact ⟨p.fresh, rfl, h.fresh⟩

/-- Opening a GOB is appending its header, in both machines alike. -/
theorem openGob_recast (h : SamePacket s.epoch s.cfg c s.bp p) (hroom : s.bp.bitCount + gobHdrBits ≤ s.cfg.limitBits)
    (gn : BitVec 4) (gq : BitVec 5) (o : List CsrAnswer) :
    ∃ t q, openGob gn gq s = .ok t ∧ openGob gn gq (s.recast c p o) = .ok (t.recast c q o) ∧
      SamePacket t.epoch t.cfg c t.bp q :=
  gobHdr_recast (s := { s with enc := { s.enc with gobGn := gn, gobGq := gq, gobValid := true } }) h hroom o

theorem execEncGob_widthBlind (gn : BitVec 4) (gq : BitVec 5) : WidthBlind (execEncGob gn gq) := by
  intro s s' c p o h hs
  cases hx : exceedsLimit s.cfg s.bp.bitCount gobHdrBits with
  | true =>
    obtain ⟨nb, t, q, hsend, hsend', hsame, hempty⟩ := send_recast h false o
    obtain ⟨u, r, hopen, hopen', hsame'⟩ := openGob_recast hsame (gobHdr_fits_empty hempty) gn gq o
    simp only [execEncGob, hx, if_true, hsend, hopen] at hs
    cases hs
    refine ⟨r, ?_, hsame'⟩
    simp only [execEncGob, recast_cfg, recast_bp, h.params.exceedsLimit, h.bitCount, hx, if_true, hsend', hopen']
    rfl
  | false =>
    have hroom : s.bp.bitCount + gobHdrBits ≤ s.cfg.limitBits := by simpa [exceedsLimit] using hx
    obtain ⟨u, r, hopen, hopen', hsame'⟩ := openGob_recast h hroom gn gq o
    simp only [execEncGob, hx, Bool.false_eq_true, if_false, hopen] at hs
    cases hs
    refine ⟨r, ?_, hsame'⟩
    simp only [execEncGob, recast_cfg, recast_bp, h.params.exceedsLimit, h.bitCount, hx, Bool.false_eq_true,
      if_false, hopen', hsame'.bitCount]
    rfl

/-- The GOB header is emitted again by both machines alike (41_framer.md R132). -/
theorem reemit_recast (h : SamePacket s.epoch s.cfg c s.bp p) (hempty : s.bp.bitCount = 0) (o : List CsrAnswer) :
    ∃ t q, (if s.enc.gobValid then gobHdr s else .ok s) = .ok t ∧
      (if (s.recast c p o).enc.gobValid then gobHdr (s.recast c p o) else .ok (s.recast c p o)) =
        .ok (t.recast c q o) ∧
      SamePacket t.epoch t.cfg c t.bp q := by
  cases hv : s.enc.gobValid with
  | true => simpa only [recast_enc, hv, if_true] using gobHdr_recast h (gobHdr_fits_empty hempty) o
  | false =>
    simp only [recast_enc, hv, Bool.false_eq_true, if_false]
    exact ⟨s, p, rfl, rfl, h⟩

theorem execEncMb_widthBlind {nbits : BitVec 16} {data : List Word} (hd : data.length = wordsFor 32 nbits.toNat) :
    WidthBlind (execEncMb nbits data) := by
  intro s s' c p o h hs
  have hre : reemitBits (s.recast c p o).enc = reemitBits s.enc := rfl
  cases hx : exceedsLimit s.cfg s.bp.bitCount nbits.toNat with
  | true =>
    cases hy : exceedsLimit s.cfg (reemitBits s.enc) nbits.toNat with
    | true =>
      simp only [execEncMb, hx, hy, if_true] at hs
      cases hs
      refine ⟨p, ?_, h⟩
      simp only [execEncMb, hre, recast_cfg, recast_bp, h.params.exceedsLimit, h.bitCount, hx, hy, if_true]
      rfl
    | false =>
      obtain ⟨nb, t, q, hsend, hsend', hsame, hempty⟩ := send_recast h false o
      obtain ⟨u, r, hgob, hgob', hsame'⟩ := reemit_recast hsame hempty o
      simp only [execEncMb, hx, hy, if_true, Bool.false_eq_true, if_false, hsend, hgob] at hs
      cases hs
      refine ⟨r, ?_, hsame'⟩
      simp only [execEncMb, hre, recast_cfg, recast_bp, h.params.exceedsLimit, h.bitCount, hx, hy, if_true,
        Bool.false_eq_true, if_false, hsend', hgob']
      rfl
  | false =>
    obtain ⟨-, hlen, hcodes⟩ := codesBits_mb hd
    have hroom : s.bp.bitCount + nbits.toNat ≤ s.cfg.limitBits := by simpa [exceedsLimit] using hx
    obtain ⟨r, q, hr, hq, hsame⟩ := h.putCodes hcodes (by rwa [hlen])
    simp only [execEncMb, hx, Bool.false_eq_true, if_false, hr] at hs
    cases hs
    refine ⟨q, ?_, hsame⟩
    simp only [execEncMb, recast_cfg, recast_bp, h.params.exceedsLimit, h.bitCount, hx, Bool.false_eq_true,
      if_false, hq, hsame.bitCount]
    rfl

/-- A reset reads of the configuration the initial JPEG capacity alone. -/
theorem performReset_recast (h : sameParamsButWidth s.cfg c) (p : Packer) (o : List CsrAnswer) :
    performReset (s.recast c p o) = (performReset s).recast c Packer.reset o := by
  have hj : Jpeg.reset c = Jpeg.reset s.cfg := by simp only [Jpeg.reset, h.jpegInitCap]
  simp only [performReset, State.recast, hj]

theorem execSrst_widthBlind : WidthBlind execSrst := by
  intro s s' c p o h hs
  cases hs
  exact ⟨Packer.reset, by rw [execSrst, performReset_recast h.params]; rfl, h.reset _⟩

/-! ## The reassemblers, which read of the packer and of `W` nothing -/

/-- A command that answers every recast of a state by the same recast of its answer, and keeps the packer, is blind to
the width. -/
theorem WidthBlind.of_commutes {f : State → Host.Outcome State Fault Refusal}
    (hf : ∀ (s : State) (c : Config) (p : Packer) (o : List CsrAnswer), sameParamsButWidth s.cfg c →
      f (s.recast c p o) = andThen (f s) fun t => .next (t.recast c p o))
    (hk : ∀ s t, f s = .next t → KeepsPacker s t) : WidthBlind f := by
  intro s s' c p o h hs
  have k := hk s s' hs
  exact ⟨p, by rw [hf s c p o h.params, hs]; rfl, by rw [k.epoch, k.cfg, k.bp]; exact h⟩

theorem assembleFrame_recast (b : BufIx) (m : Bool) (seq : BitVec 16) (ts : Word) (off : Nat) (len : BitVec 16)
    (s : State) (c : Config) (p : Packer) (o : List CsrAnswer) :
    assembleFrame b m seq ts off len (s.recast c p o) = (assembleFrame b m seq ts off len s).recast c p o := by
  simp only [assembleFrame, recast_jpeg]
  split
  · rfl
  · split <;> rfl

theorem acceptFragment_recast {s : State} {c : Config} (h : sameParamsButWidth s.cfg c) (p : Packer)
    (o : List CsrAnswer) (m : Bool) (seq len : BitVec 16) (ts off : Word) (bytes : List Byte) :
    acceptFragment m seq ts off len bytes (s.recast c p o) =
      andThen (acceptFragment m seq ts off len bytes s) fun t => .next (t.recast c p o) := by
  simp only [acceptFragment, recast_jpeg, recast_cfg, h.decimate]
  split
  · rfl
  · split
    · rfl
    · next j _ => exact congrArg Host.Outcome.next (assembleFrame_recast _ m seq ts _ len { s with jpeg := j } c p o)

theorem execJpegFrag_widthBlind (m : Bool) (seq len : BitVec 16) (ts off : Word) (data : List Word) :
    WidthBlind (execJpegFrag m seq ts off len data) := by
  refine .of_commutes (fun s c p o h => ?_) fun s t => execJpegFrag_keepsPacker
  simp only [execJpegFrag, recast_jpeg, recast_cfg, h.jpegMax]
  split
  · rfl
  · split
    · rfl
    · exact acceptFragment_recast (s := { s with jpeg := growFor (off.toNat + len.toNat) s.jpeg }) h ..

theorem completeFrame_recast (idx : Nat) (last : RingPkt) (s : State) (c : Config) (p : Packer)
    (o : List CsrAnswer) :
    completeFrame idx last (s.recast c p o) = (completeFrame idx last s).recast c p o := by
  simp only [completeFrame, recast_h261]
  split <;> rfl

theorem overflowRing_recast (m : Bool) (s : State) (c : Config) (p : Packer) (o : List CsrAnswer) :
    overflowRing m (s.recast c p o) = (overflowRing m s).recast c p o := by
  cases m <;> rfl

theorem storePacket_recast (m : Bool) (idx : Nat) (x : RingPkt) (s : State) (c : Config) (p : Packer)
    (o : List CsrAnswer) : storePacket m idx x (s.recast c p o) = (storePacket m idx x s).recast c p o := by
  cases m with
  | false => rfl
  | true => exact completeFrame_recast idx x { s with h261 := { s.h261 with ring := tableSet s.h261.ring idx x } } c p o

theorem acceptPacket_recast {s : State} {c : Config} (h : sameParamsButWidth s.cfg c) (p : Packer)
    (o : List CsrAnswer) (m : Bool) (seq : BitVec 16) (hdr : Word) (payload : List Byte) :
    acceptPacket m seq hdr payload (s.recast c p o) = (acceptPacket m seq hdr payload s).recast c p o := by
  simp only [acceptPacket, recast_h261, recast_cfg, h.gap, h.ringSize]
  split
  · exact overflowRing_recast m { s with h261 := _ } c p o
  · exact storePacket_recast m _ _ { s with h261 := _ } c p o

theorem execH261Pkt_widthBlind (m : Bool) (seq len : BitVec 16) (data : List Word) :
    WidthBlind (execH261Pkt m seq len data) := by
  refine .of_commutes (fun s c p o h => ?_) fun s t => execH261Pkt_keepsPacker
  unfold execH261Pkt
  split
  · rfl
  · exact congrArg Host.Outcome.next (acceptPacket_recast h ..)

/-! ## Every command, every word, every step -/

/-- The width has no effect on a command the encoding can carry. -/
theorem exec_widthBlind {maxPkt : Nat} {i : Instr} (hi : i.wellFormed maxPkt = true) : WidthBlind (exec i) := by
  cases i with
  | nop => intro s s' c p o h hs; cases hs; exact ⟨p, rfl, h⟩
  | srst => exact execSrst_widthBlind
  | bpPut n v => exact execBpPut_widthBlind (by simpa [Instr.wellFormed] using hi) v
  | bpFlush m => exact execBpFlush_widthBlind m
  | encBegin => exact execEncBegin_widthBlind
  | encGob gn gq => exact execEncGob_widthBlind gn gq
  | encMb nbits data => exact execEncMb_widthBlind (by simpa [Instr.wellFormed] using hi)
  | jpegFrag m seq ts off len data => exact execJpegFrag_widthBlind m seq len ts off data
  | h261Pkt m seq len data => exact execH261Pkt_widthBlind m seq len data

theorem decodeNext_widthBlind (w : Word) : WidthBlind (decodeNext w) := by
  intro s s' c p o h hs
  unfold decodeNext at hs ⊢
  rw [recast_cfg, recast_pend, h.params.maxPktBytes]
  split at hs
  · cases hs; exact ⟨p, rfl, h⟩
  · cases hs; exact ⟨p, rfl, h⟩
  · next i after hi => exact exec_widthBlind (decode_wellFormed hi) { s with cp := s.cp + 1, pend := [] } s' c p o h hs

theorem discardNext_widthBlind (w : Word) : WidthBlind (discardNext w) := by
  intro s s' c p o h hs
  unfold discardNext at hs ⊢
  split at hs
  · next hw =>
    rw [if_pos hw]
    exact execSrst_widthBlind { s with cp := s.cp + 1 } s' c p o h hs
  · next hw =>
    cases hs
    exact ⟨p, by rw [if_neg hw]; rfl, h⟩

theorem consumeWord_widthBlind (w : Word) : WidthBlind (consumeWord w) := by
  intro s s' c p o h hs
  cases hf : s.flt.fault with
  | true =>
    simp only [consumeWord, recast_flt, hf, if_true] at hs ⊢
    exact discardNext_widthBlind w s s' c p o h hs
  | false =>
    simp only [consumeWord, recast_flt, hf, Bool.false_eq_true, if_false] at hs ⊢
    exact decodeNext_widthBlind w s s' c p o h hs

theorem csrWrite_widthBlind (a : BitVec 8) (v : Word) : WidthBlind fun s => .next (csrWrite a v s) := by
  intro s s' c p o h hs
  cases hs
  unfold csrWrite
  split
  · exact ⟨Packer.reset, congrArg Host.Outcome.next (performReset_recast h.params p o), h.reset _⟩
  · exact ⟨p, rfl, h⟩

/-- Every register but `CFG_W` reads alike in both machines (10_state.md R36 to R59). -/
theorem csrValue_recast (h : SamePacket s.epoch s.cfg c s.bp p) (o : List CsrAnswer) {a : BitVec 8} (ha : a ≠ 0x30) :
    csrValue (s.recast c p o) a = csrValue s a := by
  have hn : a.toNat ≠ 0x30 := fun e => ha (BitVec.eq_of_toNat_eq e)
  rw [csrValue, csrValue, State.recast, h.params.params, h.bitCount]
  split
  case h_23 e => exact absurd e hn
  all_goals rfl

/-- The answer to a CSR read leaves the two lists of answers the same but for those of `CFG_W`. -/
theorem csrRead_sameAnswers (h : SamePacket s.epoch s.cfg c s.bp p) {o : List CsrAnswer} (a : BitVec 8)
    (ho : s.csrOut.filter (fun r => r.addr ≠ 0x30) = o.filter (fun r => r.addr ≠ 0x30)) :
    (csrRead a s).csrOut.filter (fun r => r.addr ≠ 0x30) =
      (csrRead a (s.recast c p o)).csrOut.filter (fun r => r.addr ≠ 0x30) := by
  by_cases ha : a = 0x30
  · simpa [csrRead, ha] using ho
  · simpa [csrRead, ha, csrValue_recast h o ha] using ho

/-- A step that `f` makes is made alike by both machines, where `f` is blind to the width and gives no CSR answer. -/
theorem WidthBlind.sameButWidth {f : State → Host.Outcome State Fault Refusal} (hf : WidthBlind f)
    (hk : ∀ t u, f t = .next u → KeepsHistory t u) {s' : State} {o : List CsrAnswer}
    (h : SamePacket s.epoch s.cfg c s.bp p)
    (ho : s.csrOut.filter (fun r => r.addr ≠ 0x30) = o.filter (fun r => r.addr ≠ 0x30)) (hs : f s = .next s') :
    ∃ t', f (s.recast c p o) = .next t' ∧ sameButWidth s' t' := by
  obtain ⟨q, hq, hsame⟩ := hf s s' c p o h hs
  exact ⟨_, hq, sameButWidth_iff.2 ⟨c, q, o, rfl, hsame, by rw [(hk s s' hs).csrOut, ho]⟩⟩

/-- Settles O41, by the action the step takes: a word and a CSR write are blind to the width, and a CSR read answers
alike everywhere but at `CFG_W`. -/
theorem widthHasNoEffect : Obligations.WidthHasNoEffect := by
  intro s t s' hst hs
  obtain ⟨c, p, o, rfl, h, ho⟩ := sameButWidth_iff.1 hst
  unfold step takeAction at hs ⊢
  rw [recast_input]
  split at hs
  · cases hs
    exact ⟨_, rfl, hst⟩
  · next w rest _ =>
    exact (consumeWord_widthBlind w).sameButWidth (s := { s with input := rest })
      (fun _ _ => consumeWord_keepsHistory) h ho hs
  · next a v rest _ =>
    exact (csrWrite_widthBlind a v).sameButWidth (s := { s with input := rest })
      (fun _ _ e => by cases e; exact csrWrite_keepsHistory ..) h ho hs
  · next a rest _ =>
    cases hs
    exact ⟨_, rfl, sameButWidth_iff.2 ⟨c, p, _, rfl, h,
      csrRead_sameAnswers (s := { s with input := rest }) h a ho⟩⟩

end Sys2Proof.Machine
end

section
/-! How the decoder meets the words of a command one by one: it waits on every proper front of them and answers the
command at the last one (30_encoding.md R87, R88). -/

namespace Sys2Proof

variable {maxPkt : Nat} {i : Instr}

/-- A header word without fault sends the decoder to the command's argument words (30_encoding.md R88). -/
theorem decode_cons {h : Word} {op : Opcode} (hf : headerFault h = none) (ho : opcodeOf h = some op)
    (ws : List Word) : decode maxPkt (h :: ws) = decodeArgs maxPkt op h ws := by
  simp only [decode, hf, ho]

/-- Exactly the data words wanted are taken, whatever follows them. -/
theorem takeData_append {k : Nat} {ds : List Word} (hk : ds.length = k) (rest : List Word)
    (make : List Word → Instr) : takeData k (ds ++ rest) make = .cmd (make ds) rest :=
  takeData_eq_cmd.2 ⟨by simp [hk], by rw [← hk, List.take_left], by rw [← hk, List.drop_left]⟩

/-- With fewer data words than wanted the decoder waits. -/
theorem takeData_of_lt {k : Nat} {ws : List Word} (hk : ws.length < k) (make : List Word → Instr) :
    takeData k ws make = .more := if_pos hk

/-- The LENW word of a length in range passes the checks (30_encoding.md R83, R91). -/
theorem lenwFault_lenWord {len : BitVec 16} (h : len.toNat ≤ maxPkt) : lenwFault maxPkt (lenWord len) = none :=
  lenwFault_eq_none.2 ⟨high_lenWord len, by rwa [fieldLow16_lenWord]⟩

theorem wellFormed_jpegFrag {m : Bool} {seq len : BitVec 16} {ts off : Word} {data : List Word} :
    (Instr.jpegFrag m seq ts off len data).wellFormed maxPkt = true ↔
      len.toNat ≤ maxPkt ∧ data.length = wordsFor 4 len.toNat := by simp [Instr.wellFormed]

theorem wellFormed_h261Pkt {m : Bool} {seq len : BitVec 16} {data : List Word} :
    (Instr.h261Pkt m seq len data).wellFormed maxPkt = true ↔
      len.toNat ≤ maxPkt ∧ data.length = wordsFor 4 len.toNat := by simp [Instr.wellFormed]

/-- The words of a well-formed command decode to it, and what follows them is left over (30_encoding.md R80 to R88). -/
theorem decode_encode_append (hw : i.wellFormed maxPkt = true) (rest : List Word) :
    decode maxPkt (encode i ++ rest) = .cmd i rest := by
  have hh := headerFault_header hw
  rw [encode, List.cons_append]
  cases i with
  | nop | srst | encBegin => exact decode_cons hh (opcodeOf_headerWord _ _) rest
  | bpPut n v =>
    rw [decode_cons hh (opcodeOf_headerWord _ _)]
    simp only [decodeArgs, Instr.args, Instr.header, List.cons_append, List.nil_append, fieldN_headerWord]
  | bpFlush m =>
    rw [decode_cons hh (opcodeOf_headerWord _ _)]
    simp only [decodeArgs, Instr.args, Instr.header, List.nil_append, fieldM_headerWord_ff]
  | encGob gn gq =>
    rw [decode_cons hh (opcodeOf_headerWord _ _)]
    simp only [decodeArgs, Instr.args, Instr.header, List.nil_append, fieldGn_headerWord, fieldGq_headerWord]
  | encMb nbits data =>
    rw [decode_cons hh (opcodeOf_headerWord _ _)]
    simp only [decodeArgs, Instr.args, Instr.header, fieldLow16_headerWord]
    exact takeData_append (by simpa [Instr.wellFormed] using hw) _ _
  | jpegFrag m seq ts off len data =>
    obtain ⟨hlen, hdata⟩ := wellFormed_jpegFrag.1 hw
    rw [decode_cons hh (opcodeOf_headerWord _ _)]
    simp only [decodeArgs, Instr.args, Instr.header, List.cons_append, lenwFault_lenWord hlen, fieldLow16_lenWord,
      fieldLow16_headerWord, fieldM_headerWord]
    exact takeData_append hdata _ _
  | h261Pkt m seq len data =>
    obtain ⟨hlen, hdata⟩ := wellFormed_h261Pkt.1 hw
    rw [decode_cons hh (opcodeOf_headerWord _ _)]
    simp only [decodeArgs, Instr.args, Instr.header, List.cons_append, lenwFault_lenWord hlen, fieldLow16_lenWord,
      fieldLow16_headerWord, fieldM_headerWord]
    exact takeData_append hdata _ _

/-- Behind a command's header the decoder waits until the last argument word is there (30_encoding.md R88). -/
theorem decodeArgs_front (hw : i.wellFormed maxPkt = true) {op : Opcode} (ho : opcodeOf i.header = some op)
    {q r : List Word} (hq : q ++ r = i.args) (hr : r ≠ []) : decodeArgs maxPkt op i.header q = .more := by
  have hlen : q.length < i.args.length := by
    have := List.length_pos_iff.2 hr
    rw [← hq, List.length_append]
    omega
  cases i with
  | nop | srst | bpFlush | encBegin | encGob => exact absurd hlen (Nat.not_lt_zero _)
  | bpPut n v =>
    cases Option.some.inj ((opcodeOf_headerWord _ _).symm.trans ho)
    have hq0 : q = [] := List.length_eq_zero_iff.1 (Nat.lt_one_iff.1 hlen)
    simp only [decodeArgs, hq0]
  | encMb nbits data =>
    cases Option.some.inj ((opcodeOf_headerWord _ _).symm.trans ho)
    have hdata : data.length = wordsFor 32 nbits.toNat := by simpa [Instr.wellFormed] using hw
    simp only [decodeArgs, Instr.header, fieldLow16_headerWord]
    exact takeData_of_lt (hdata ▸ hlen) _
  | jpegFrag m seq ts off len data =>
    cases Option.some.inj ((opcodeOf_headerWord _ _).symm.trans ho)
    obtain ⟨hmax, hdata⟩ := wellFormed_jpegFrag.1 hw
    match q, hq with
    | [], _ | [_], _ | [_, _], _ => rfl
    | a :: b :: c :: ds, hq =>
      injection hq with _ hq
      injection hq with _ hq
      injection hq with hc hq
      have hds : ds.length < wordsFor 4 len.toNat := by simpa [Instr.args, hdata] using hlen
      simp only [decodeArgs, Instr.header, hc, lenwFault_lenWord hmax, fieldLow16_lenWord]
      exact takeData_of_lt hds _
  | h261Pkt m seq len data =>
    cases Option.some.inj ((opcodeOf_headerWord _ _).symm.trans ho)
    obtain ⟨hmax, hdata⟩ := wellFormed_h261Pkt.1 hw
    match q, hq with
    | [], _ => rfl
    | c :: ds, hq =>
      injection hq with hc hq
      have hds : ds.length < wordsFor 4 len.toNat := by simpa [Instr.args, hdata] using hlen
      simp only [decodeArgs, Instr.header, hc, lenwFault_lenWord hmax, fieldLow16_lenWord]
      exact takeData_of_lt hds _

/-- The decoder waits on every proper front of a well-formed command's words (30_encoding.md R88). -/
theorem decode_front (hw : i.wellFormed maxPkt = true) {p r : List Word} (hp : p ++ r = encode i) (hr : r ≠ []) :
    decode maxPkt p = .more := by
  cases p with
  | nil => rfl
  | cons h q =>
    injection hp with hh hq
    subst hh
    obtain ⟨op, ho⟩ : ∃ op, opcodeOf i.header = some op := by
      cases i <;> exact ⟨_, opcodeOf_headerWord _ _⟩
    rw [decode_cons (headerFault_header hw) ho]
    exact decodeArgs_front hw ho hq hr

end Sys2Proof

namespace Sys2Proof.Machine

variable {s : State} {w : Word} {rest : List HostAction}

/-- Outside the fault state a step takes the next word to the decoder (30_encoding.md R88; 44_control.md R225). -/
theorem step_word_running (hf : s.flt.fault = false) (hi : s.input = .word w :: rest) :
    step s = decodeNext w { s with input := rest } := by
  simp only [step, takeAction, hi, consumeWord, hf, Bool.false_eq_true, if_false]

/-! What the decoder's answer makes of the word (30_encoding.md R88). -/

theorem decodeNext_of_more (h : decode s.cfg.params.maxPktBytes (s.pend ++ [w]) = .more) :
    decodeNext w s = .next { s with cp := s.cp + 1, pend := s.pend ++ [w] } := by
  simp only [decodeNext, h]

theorem decodeNext_of_bad {c : FaultCode} (h : decode s.cfg.params.maxPktBytes (s.pend ++ [w]) = .bad c) :
    decodeNext w s =
      .next (raiseFault c (s.pend.headD w) (s.cp - BitVec.ofNat 32 s.pend.length) { s with cp := s.cp + 1 }) := by
  simp only [decodeNext, h]

theorem decodeNext_of_cmd {i : Instr} {after : List Word}
    (h : decode s.cfg.params.maxPktBytes (s.pend ++ [w]) = .cmd i after) :
    decodeNext w s = exec i { s with cp := s.cp + 1, pend := [] } := by
  simp only [decodeNext, h]

/-- One step of a run is the step. -/
theorem run_one (s : State) : Host.Core.run Sys2Proof.core 1 s = step s := by
  have h : Sys2Proof.core.step s = step s := rfl
  simp only [Host.Core.run, h]
  cases step s <;> rfl

/-- A run whose first step answers a next state goes on from there. -/
theorem run_succ {n : Nat} {t : State} (h : step s = .next t) :
    Host.Core.run Sys2Proof.core (n + 1) s = Host.Core.run Sys2Proof.core n t := by
  have h' : Sys2Proof.core.step s = .next t := h
  simp only [Host.Core.run, h']

/-- Settles O9, by the decoder's answer. -/
theorem stepRunsDecodedCommand : Obligations.StepRunsDecodedCommand := by
  intro s w rest i after hf hi hd
  rw [step_word_running hf hi]
  exact decodeNext_of_cmd (s := { s with input := rest }) hd

/-- With a front `s.pend` of a command's words pending, its remaining words `ws` are consumed one a step, and the last
one executes it: each word before the last leaves a longer proper front pending. -/
theorem run_remaining_words {i : Instr} {ws : List Word} (hws : ws ≠ [])
    (hw : i.wellFormed s.cfg.params.maxPktBytes = true) (hf : s.flt.fault = false)
    (hp : s.pend ++ ws = encode i) (hi : s.input = ws.map .word ++ rest) :
    Host.Core.run Sys2Proof.core ws.length s =
      exec i { s with input := rest, cp := s.cp + BitVec.ofNat 32 ws.length, pend := [] } := by
  induction ws generalizing s with
  | nil => exact absurd rfl hws
  | cons w ws ih =>
    cases ws with
    | nil =>
      have hd : decode s.cfg.params.maxPktBytes (s.pend ++ [w]) = .cmd i [] := by
        rw [hp, ← List.append_nil (encode i)]
        exact decode_encode_append hw []
      rw [List.length_singleton, run_one]
      exact stepRunsDecodedCommand s w rest i [] hf hi hd
    | cons w' ws =>
      have hp' : (s.pend ++ [w]) ++ w' :: ws = encode i := by rw [← hp]; simp
      have hstep : step s = .next { s with
          input := (w' :: ws).map .word ++ rest, cp := s.cp + 1, pend := s.pend ++ [w] } := by
        rw [step_word_running hf hi]
        exact decodeNext_of_more (s := { s with input := (w' :: ws).map .word ++ rest })
          (decode_front hw hp' (List.cons_ne_nil _ _))
      have hcp : s.cp + BitVec.ofNat 32 (w :: w' :: ws).length = s.cp + 1 + BitVec.ofNat 32 (w' :: ws).length := by
        rw [List.length_cons (a := w), Nat.add_comm, BitVec.ofNat_add, ← BitVec.add_assoc]
        rfl
      rw [hcp, List.length_cons, run_succ hstep]
      exact ih (List.cons_ne_nil _ _) hw hf hp' rfl

/-- Settles O10: with nothing pending all the command's words remain. -/
theorem commandWordsExecuteOnce : Obligations.CommandWordsExecuteOnce := by
  intro i s rest hw hf hp hi
  have h := run_remaining_words (ws := encode i) (rest := rest) (List.cons_ne_nil _ _) hw hf (by rw [hp]; rfl) hi
  rw [h, ← hp]

/-- Settles O11: the fault is entered at the word refused, with the header word that stands first. -/
theorem decodeFaultEntry : Obligations.DecodeFaultEntry := by
  intro s w rest c hf hi hd
  have hhead : s.pend.headD w = (s.pend ++ [w]).headD 0 := by cases s.pend <;> rfl
  have hword : resultWord .fault (c.code.setWidth 24) = 0xFF000000 ||| c.code.setWidth 32 := by
    cases c <;> decide
  rw [step_word_running hf hi, decodeNext_of_bad (s := { s with input := rest }) hd]
  simp only [raiseFault, emitResult, emit, hhead, hword]

end Sys2Proof.Machine
end

section
/-! The CSR port and the words it and the trace carry, bit by bit (10_state.md R31, R34, R36 to R59; 44_control.md R222,
R223). -/

namespace Sys2Proof.Machine

theorem getLsbD_resultWord (c : ResultCode) (v : BitVec 24) (k : Nat) :
    (resultWord c v).getLsbD k = if k < 24 then v.getLsbD k else c.code.getLsbD (k - 24) :=
  BitVec.getLsbD_append

/-- The code of a result word stands in its top byte. -/
@[simp] theorem resultWord_code (c : ResultCode) (v : BitVec 24) : (resultWord c v).extractLsb' 24 8 = c.code := by
  refine BitVec.eq_of_getLsbD_eq fun k hk => ?_
  simp [getLsbD_resultWord, hk]

/-- The value of a result word stands in its low 24 bits. -/
@[simp] theorem resultWord_value (c : ResultCode) (v : BitVec 24) : (resultWord c v).extractLsb' 0 24 = v := by
  refine BitVec.eq_of_getLsbD_eq fun k hk => ?_
  simp [getLsbD_resultWord, hk]

/-- Settles O19, by the two fields and the table of codes. -/
theorem resultWordLayout : Obligations.ResultWordLayout :=
  ⟨fun c v => ⟨resultWord_code c v, resultWord_value c v⟩, rfl⟩

/-! The accesses. -/

/-- A write that does not set bit 0 of `CTRL` changes nothing (44_control.md R223). -/
theorem csrWrite_ignored {a : BitVec 8} {v : Word} (h : ¬ (a = 0x04 ∧ v.getLsbD 0 = true)) (s : State) :
    csrWrite a v s = s := if_neg h

/-- A write that sets bit 0 of `CTRL` is the reset (44_control.md R223). -/
theorem csrWrite_reset {v : Word} (h : v.getLsbD 0 = true) (s : State) : csrWrite 0x04 v s = performReset s :=
  if_pos ⟨rfl, h⟩

/-- Settles O16, by the action at the head of the queue and, for a write, whether it resets. -/
theorem csrPortAccesses : Obligations.CsrPortAccesses := by
  intro s
  refine ⟨fun a rest hi => ?_, fun a v rest hi hno => ?_, fun v rest hi hv => ?_, fun hi => ?_⟩ <;>
    simp only [step, takeAction, hi]
  · rfl
  · rw [csrWrite_ignored hno]
  · rw [csrWrite_reset hv]
    rfl

/-! The registers with fields. -/

theorem getLsbD_flagBit (b : Bool) {i : Nat} (hi : i < 32) (k : Nat) :
    (flagBit b i).getLsbD k = (decide (k = i) && b) := by
  cases b
  · simp [flagBit]
  · simp [flagBit, BitVec.getLsbD_twoPow, hi, eq_comm]

/-- A field of `n` bits placed at bit `i` of a word holds its bits there and nothing elsewhere. -/
theorem getLsbD_placed {n : Nat} (x : BitVec n) {i : Nat} (h : i + n ≤ 32) (k : Nat) :
    (x.setWidth 32 <<< i).getLsbD k = (decide (i ≤ k ∧ k < i + n) && x.getLsbD (k - i)) := by
  by_cases hk : i ≤ k ∧ k < i + n
  · simp [hk, show k < 32 by omega, show ¬ k < i by omega]
  · by_cases hlo : k < i
    · simp [hlo]
    · simp [hk, BitVec.getLsbD_of_ge x (k - i) (by omega)]

theorem getLsbD_statusWord (s : State) (k : Nat) :
    (statusWord s).getLsbD k =
      (if k = 0 then s.flt.fault
       else if 8 ≤ k ∧ k ≤ 15 then s.flt.code.getLsbD (k - 8)
       else if k = 16 then s.h261.rtpBug
       else if k = 17 then decide (s.h261.first ≠ 0xFFFFFFFF)
       else if k = 18 then s.h261.lastValid
       else if k = 19 then s.enc.gobValid
       else if k = 20 then decide (s.pend ≠ [])
       else false) := by
  have hopen : (!noFrameOpen s.h261) = decide (s.h261.first ≠ 0xFFFFFFFF) := by
    rw [decide_not]
    rfl
  have hpend : (!s.pend.isEmpty) = decide (s.pend ≠ []) := by cases s.pend <;> rfl
  simp only [statusWord, BitVec.getLsbD_or, getLsbD_flagBit _ (show 0 < 32 by decide),
    getLsbD_flagBit _ (show 16 < 32 by decide), getLsbD_flagBit _ (show 17 < 32 by decide),
    getLsbD_flagBit _ (show 18 < 32 by decide), getLsbD_flagBit _ (show 19 < 32 by decide),
    getLsbD_flagBit _ (show 20 < 32 by decide), getLsbD_placed _ (show 8 + 8 ≤ 32 by decide), hopen, hpend]
  by_cases h : 8 ≤ k ∧ k ≤ 15
  · simp [show k ≠ 0 ∧ k ≠ 16 ∧ k ≠ 17 ∧ k ≠ 18 ∧ k ≠ 19 ∧ k ≠ 20 by omega, h, show k < 16 by omega]
  · rw [if_neg h, decide_eq_false (show ¬ (8 ≤ k ∧ k < 8 + 8) by omega)]
    split_ifs <;> simp [*]

theorem getLsbD_encGobWord (e : Framer) (k : Nat) :
    (encGobWord e).getLsbD k =
      (if k ≤ 3 then e.gobGn.getLsbD k else if k ≤ 8 then e.gobGq.getLsbD (k - 4) else false) := by
  rw [encGobWord, BitVec.getLsbD_or, getLsbD_placed _ (by decide)]
  have hgn : (e.gobGn.setWidth 32).getLsbD k = (decide (k ≤ 3) && e.gobGn.getLsbD k) := by
    by_cases h : k ≤ 3
    · simp [h, show k < 32 by omega]
    · simp [h, BitVec.getLsbD_of_ge e.gobGn k (by omega)]
  rw [hgn]
  by_cases h3 : k ≤ 3
  · simp [h3, show ¬ 4 ≤ k by omega]
  · by_cases h8 : k ≤ 8
    · simp [h3, h8, show 4 ≤ k ∧ k < 9 by omega]
    · simp [h3, h8, show ¬ k < 9 by omega]

theorem getLsbD_encLastWord (e : Framer) (k : Nat) :
    (encLastWord e).getLsbD k =
      (if k ≤ 15 then e.lastBytes.getLsbD k
       else if k ≤ 18 then e.lastEbit.getLsbD (k - 16)
       else if k = 19 then e.lastM
       else false) := by
  have hbytes : (e.lastBytes.setWidth 32).getLsbD k = (decide (k ≤ 15) && e.lastBytes.getLsbD k) := by
    by_cases h : k ≤ 15
    · simp [h, show k < 32 by omega]
    · simp [h, BitVec.getLsbD_of_ge e.lastBytes k (by omega)]
  rw [encLastWord, BitVec.getLsbD_or, BitVec.getLsbD_or, hbytes, getLsbD_placed _ (by decide),
    getLsbD_flagBit _ (by decide)]
  by_cases h15 : k ≤ 15
  · simp [h15, show ¬ 16 ≤ k by omega, show k ≠ 19 by omega]
  · by_cases h18 : k ≤ 18
    · simp [h15, h18, show 16 ≤ k ∧ k < 19 by omega, show k ≠ 19 by omega]
    · by_cases h19 : k = 19 <;> simp [h15, h18, h19, show ¬ k < 19 by omega]

theorem getLsbD_rbFlagsWord (j : Jpeg) (k : Nat) :
    (rbFlagsWord j).getLsbD k =
      (if k = 0 then j.rb0.valid
       else if k = 1 then j.rb0.drop
       else if k = 2 then j.rb1.valid
       else if k = 3 then j.rb1.drop
       else false) := by
  simp only [rbFlagsWord, BitVec.getLsbD_or, getLsbD_flagBit _ (show 0 < 32 by decide),
    getLsbD_flagBit _ (show 1 < 32 by decide), getLsbD_flagBit _ (show 2 < 32 by decide),
    getLsbD_flagBit _ (show 3 < 32 by decide)]
  split_ifs <;> simp [*]

/-- Settles O17, register by register. -/
theorem csrFieldLayouts : Obligations.CsrFieldLayouts := by
  intro s k
  refine ⟨getLsbD_statusWord s k, getLsbD_encGobWord s.enc k, getLsbD_encLastWord s.enc k,
    getLsbD_rbFlagsWord s.jpeg k, fun a ha => ⟨fun v => csrWrite_ignored ?_ s, fun cfg => ?_⟩⟩
  · rintro ⟨rfl, -⟩
    exact absurd ha (by decide)
  · simp only [List.mem_cons, List.not_mem_nil, or_false] at ha
    obtain rfl | rfl | rfl | rfl := ha
    · simp [csrValue, statusWord, State.powerOn, FaultRegs.reset, H261.reset, Framer.reset, noFrameOpen, flagBit]
    · simp [csrValue, encGobWord, State.powerOn, Framer.reset]
    · simp [csrValue, encLastWord, State.powerOn, Framer.reset, flagBit]
    · simp [csrValue, rbFlagsWord, State.powerOn, Jpeg.reset, JpegBuf.reset, flagBit]

/-! The registers of one value. -/

/-- Every parameter fits a register of 32 bits (00_scope.md R3). -/
theorem params_lt (c : Config) :
    c.params.w < 2 ^ 32 ∧ c.params.mtu < 2 ^ 32 ∧ c.params.hdrBytes < 2 ^ 32 ∧ c.params.gap < 2 ^ 32 ∧
      c.params.ringSize < 2 ^ 32 ∧ c.params.jpegMax < 2 ^ 32 ∧ c.params.jpegInitCap < 2 ^ 32 ∧
      c.params.decimate < 2 ^ 32 ∧ c.params.maxPktBytes < 2 ^ 32 := by
  obtain ⟨hw, hmtu, hgap, hring, hmax, -, hdec, hpkt, -⟩ := c.legal
  omega

/-- The packet limit, and so the bit count of a sound packer, fits a register of 32 bits (10_state.md R42). -/
theorem limitBits_lt (c : Config) : c.limitBits < 2 ^ 32 := by
  have := c.legal.2.1
  unfold Config.limitBits Config.pktCap
  omega

/-- An address at which the map has no register, or `CTRL`, reads 0 (10_state.md R36, R41). -/
theorem csrValue_unmapped (s : State) {a : BitVec 8} (ha : a ∉ [(0x00 : BitVec 8), 0x01, 0x02, 0x03, 0x08, 0x09, 0x0A,
    0x0B, 0x10, 0x11, 0x12, 0x13, 0x14, 0x15, 0x20, 0x21, 0x22, 0x23, 0x24, 0x25, 0x26, 0x27, 0x30, 0x31, 0x32, 0x33,
    0x34, 0x35, 0x36, 0x37, 0x38]) : csrValue s a = 0 := by
  have hne : ∀ n, a.toNat = n → a = BitVec.ofNat 8 n := fun n h => by simp [← h]
  unfold csrValue
  split
  case h_32 => rfl
  all_goals
    next h =>
      rw [hne _ h] at ha
      exact absurd ha (by decide)

/-- A 16-bit field zero-extended is a word with nothing above it (10_state.md R47). -/
theorem setWidth_eq_lenWord (x : BitVec 16) : x.setWidth 32 = lenWord x := by
  refine BitVec.eq_of_getLsbD_eq fun k hk => ?_
  rw [BitVec.getLsbD_setWidth, getLsbD_lenWord]
  by_cases h : k < 16
  · simp [h, hk]
  · simp [h, BitVec.getLsbD_of_ge x k (Nat.not_lt.1 h)]

/-- Settles O18, register by register: the state's own words by definition, the counts and parameters by their
ranges. -/
theorem csrPlainRegisters : Obligations.CsrPlainRegisters := by
  intro s
  refine ⟨?_, fun hp => ?_, ?_, fun cfg => ?_, fun a ha => csrValue_unmapped s ha,
    fun a v ha => csrWrite_ignored (fun h => ha h.1) s⟩
  · have hseq : s.h261.lastSeq.setWidth 32 = 0#16 ++ s.h261.lastSeq := setWidth_eq_lenWord _
    simp [csrValue, hseq]
  · exact Nat.mod_eq_of_lt (Nat.lt_of_le_of_lt hp.2.1 (limitBits_lt s.cfg))
  · simpa [csrValue, Nat.mod_eq_iff_lt] using params_lt s.cfg
  · obtain ⟨-, -, -, -, -, -, hcap, -⟩ := params_lt cfg
    simpa [csrValue, Nat.mod_eq_iff_lt, State.powerOn, FaultRegs.reset, H261.reset, Framer.reset, Jpeg.reset,
      JpegBuf.reset, Packer.reset, Packer.bitCount] using hcap

end Sys2Proof.Machine
end

section
/-! What a command writes and what it answers (10_state.md R34, R35): the encoder's commands write the packer and the
framer alone, each reassembler's command its own reassembler alone, and each appends one result word, after at most one
packet or frame. -/

namespace Sys2Proof.Machine

variable {s t u : State} {P Q : Event → Prop}

/-! ## The answer of a command -/

/-- From `s` to `t` the trace gained one result word, after at most one event, of which `P` holds. -/
def Answers (P : Event → Prop) (s t : State) : Prop :=
  ∃ evs c v, t.trace = s.trace ++ evs ++ [.result (resultWord c v)] ∧ (evs = [] ∨ ∃ e, evs = [e] ∧ P e)

/-- A result word alone is an answer. -/
theorem answers_result {c : ResultCode} {v : BitVec 24} (h : t.trace = s.trace ++ [.result (resultWord c v)]) :
    Answers P s t := ⟨[], c, v, by simpa using h, .inl rfl⟩

/-- An event and a result word are an answer. -/
theorem answers_event {e : Event} {c : ResultCode} {v : BitVec 24} (he : P e)
    (h : t.trace = s.trace ++ [e] ++ [.result (resultWord c v)]) : Answers P s t :=
  ⟨[e], c, v, h, .inr ⟨e, rfl, he⟩⟩

theorem Answers.mono (h : Answers P s t) (hPQ : ∀ e, P e → Q e) : Answers Q s t := by
  obtain ⟨evs, c, v, htr, he⟩ := h
  exact ⟨evs, c, v, htr, he.imp_right fun ⟨e, h1, h2⟩ => ⟨e, h1, hPQ e h2⟩⟩

/-- Every result word the machine makes has a code that 10_state.md R34 lists. -/
theorem legalResultCode_resultWord (c : ResultCode) (v : BitVec 24) :
    legalResultCode ((resultWord c v).extractLsb' 24 8) := by
  rw [resultWord_code]
  cases c <;> decide

/-- An answer with a legal event leaves a trace of legal events legal. -/
theorem Answers.legal {cfg : Config} (h : Answers (Event.Legal cfg) s t) (hs : ∀ e ∈ s.trace, e.Legal cfg) :
    ∀ e ∈ t.trace, e.Legal cfg := by
  obtain ⟨evs, c, v, htr, hevs⟩ := h
  intro e he
  rw [htr, List.append_assoc, List.mem_append, List.mem_append, List.mem_singleton] at he
  obtain he | he | rfl := he
  · exact hs e he
  · obtain rfl | ⟨e', rfl, he'⟩ := hevs
    · cases he
    · exact List.mem_singleton.1 he ▸ he'
  · exact legalResultCode_resultWord c v

/-! ## The part of the state a command writes -/

/-- From `s` to `t` the packer, the framer and the trace alone changed. -/
def OnlyEncoder (s t : State) : Prop := t = { s with bp := t.bp, enc := t.enc, trace := t.trace }

/-- From `s` to `t` the JPEG reassembler, the trace and the draws alone changed. -/
def OnlyJpeg (s t : State) : Prop := t = { s with jpeg := t.jpeg, trace := t.trace, draws := t.draws }

/-- From `s` to `t` the H.261 reassembler, the trace and the draws alone changed. -/
def OnlyH261 (s t : State) : Prop := t = { s with h261 := t.h261, trace := t.trace, draws := t.draws }

theorem OnlyEncoder.cp (h : OnlyEncoder s t) : t.cp = s.cp := by rw [h]
theorem OnlyJpeg.cp (h : OnlyJpeg s t) : t.cp = s.cp := by rw [h]
theorem OnlyH261.cp (h : OnlyH261 s t) : t.cp = s.cp := by rw [h]

/-! ## The encoder's commands -/

/-- A packet of the packet buffer: it is at most `PKT_CAP` bytes (10_state.md R32). -/
def LegalPacket (cfg : Config) (e : Event) : Prop := e.isPacket = true ∧ e.Legal cfg

/-- What `send` leaves, where it answers at all: it hands out one packet, read from the `PKT_CAP` bytes of `PB`, and
writes the packer and the framer (40_bitpacker.md R115). -/
theorem send_eq_ok {m : Bool} {nb : Nat} (h : send m s = .ok (nb, t)) :
    ∃ e p enc, LegalPacket s.cfg e ∧ t = { s with bp := p, enc := enc, trace := s.trace ++ [e] } := by
  simp only [send] at h
  split at h
  · cases h
  · split at h
    · cases h
    · next hread =>
      cases h
      refine ⟨_, _, _, ⟨rfl, ?_⟩, rfl⟩
      unfold readPb at hread
      split at hread
      · next hcap => cases hread; simpa [Event.Legal] using hcap
      · cases hread

/-- A GOB header writes the packer alone. -/
theorem gobHdr_eq_ok (h : gobHdr s = .ok t) : ∃ p, t = { s with bp := p } := by
  unfold gobHdr at h
  split at h
  · cases h
  · cases h; exact ⟨_, rfl⟩

/-- Opening a GOB writes the packer and the framer alone. -/
theorem openGob_eq_ok {gn : BitVec 4} {gq : BitVec 5} (h : openGob gn gq s = .ok t) :
    ∃ p enc, t = { s with bp := p, enc := enc } := by
  obtain ⟨p, rfl⟩ := gobHdr_eq_ok h
  exact ⟨p, _, rfl⟩

/-- The GOB header emitted again, where a GOB is open, writes the packer alone (41_framer.md R132). -/
theorem reemit_eq_ok (h : (if s.enc.gobValid then gobHdr s else .ok s) = .ok t) : ∃ p, t = { s with bp := p } := by
  split at h
  · exact gobHdr_eq_ok h
  · cases h; exact ⟨_, rfl⟩

/-- BP.PUT faults, or writes the packer, with no event (40_bitpacker.md R112). -/
theorem execBpPut_outcome {n : BitVec 6} {v : Word} (h : execBpPut n v s = .next t) :
    t.cp = s.cp ∧ Answers (fun _ => False) s t := by
  unfold execBpPut at h
  split at h
  · cases h; exact ⟨rfl, answers_result rfl⟩
  · split at h
    · cases h
    · cases h; exact ⟨rfl, answers_result rfl⟩

theorem execBpFlush_outcome {m : Bool} (h : execBpFlush m s = .next t) :
    OnlyEncoder s t ∧ Answers (LegalPacket s.cfg) s t := by
  unfold execBpFlush at h
  split at h
  · cases h
  · next hs =>
    obtain ⟨e, p, enc, he, rfl⟩ := send_eq_ok hs
    cases h
    exact ⟨rfl, answers_event he rfl⟩

theorem execEncGob_outcome {gn : BitVec 4} {gq : BitVec 5} (h : execEncGob gn gq s = .next t) :
    OnlyEncoder s t ∧ Answers (LegalPacket s.cfg) s t := by
  unfold execEncGob at h
  split at h
  · split at h
    · cases h
    · next hs =>
      obtain ⟨e, p, enc, he, rfl⟩ := send_eq_ok hs
      split at h
      · cases h
      · next ho =>
        obtain ⟨q, enc', rfl⟩ := openGob_eq_ok ho
        cases h
        exact ⟨rfl, answers_event he rfl⟩
  · split at h
    · cases h
    · next ho =>
      obtain ⟨q, enc', rfl⟩ := openGob_eq_ok ho
      cases h
      exact ⟨rfl, answers_result rfl⟩

theorem execEncMb_outcome {nbits : BitVec 16} {data : List Word} (h : execEncMb nbits data s = .next t) :
    OnlyEncoder s t ∧ Answers (LegalPacket s.cfg) s t := by
  unfold execEncMb at h
  split at h
  · split at h
    · cases h; exact ⟨rfl, answers_result rfl⟩
    · split at h
      · cases h
      · next hs =>
        obtain ⟨e, p, enc, he, rfl⟩ := send_eq_ok hs
        split at h
        · cases h
        · next hr =>
          obtain ⟨q, rfl⟩ := reemit_eq_ok hr
          cases h
          exact ⟨rfl, answers_event he rfl⟩
  · split at h
    · cases h
    · cases h; exact ⟨rfl, answers_result rfl⟩

/-! ## The JPEG reassembler -/

/-- A frame within the bounds of 10_state.md R33. -/
def LegalFrame (cfg : Config) (e : Event) : Prop := e.isFrame = true ∧ e.Legal cfg

theorem assembleFrame_outcome (b : BufIx) (m : Bool) (seq : BitVec 16) (ts : Word) (off : Nat) (len : BitVec 16)
    (s : State) :
    OnlyJpeg s (assembleFrame b m seq ts off len s) ∧
      Answers (LegalFrame s.cfg) s (assembleFrame b m seq ts off len s) := by
  obtain ⟨j, -, ⟨total, -, -, h⟩ | ⟨-, h⟩⟩ := assembleFrame_cases b m seq ts off len s
  · rw [h]; exact ⟨rfl, answers_event (e := .frameJpeg ts _) ⟨rfl, trivial⟩ rfl⟩
  · rw [h]; exact ⟨rfl, answers_result rfl⟩

/-- A fragment that steps 1 and 2 let through is discarded in its buffer, or copied there (42_jpeg_reassembler.md R167,
R168). -/
theorem acceptFragment_cases {m : Bool} {seq len : BitVec 16} {ts off : Word} {bytes : List Byte}
    (h : acceptFragment m seq ts off len bytes s = .next t) :
    ∃ b j, select s.cfg.params.decimate ts (recordSlot seq off ts s.jpeg) = (b, j) ∧
      (t = emitResult .dropDecimated 0 { s with jpeg := j } ∨
        ∃ j', copyFragment b off.toNat bytes j = .ok j' ∧
          t = assembleFrame b m seq ts off.toNat len { s with jpeg := j' }) := by
  unfold acceptFragment at h
  split at h
  next b j hsel =>
    refine ⟨b, j, hsel, ?_⟩
    split at h
    · cases h; exact .inl rfl
    · split at h
      · cases h
      · next j' hcopy => cases h; exact .inr ⟨j', hcopy, rfl⟩

/-- JPEG.FRAG drops its fragment and counts it, or goes on to step 3 (42_jpeg_reassembler.md R162, R163). -/
theorem execJpegFrag_cases {m : Bool} {seq len : BitVec 16} {ts off : Word} {data : List Word}
    (h : execJpegFrag m seq ts off len data s = .next t) :
    t = emitResult .dropBadOffset 0 { s with jpeg := { s.jpeg with badoffCnt := s.jpeg.badoffCnt + 1 } } ∨
    t = emitResult .dropHuge 0 { s with jpeg := { s.jpeg with hugeCnt := s.jpeg.hugeCnt + 1 } } ∨
    (0 ≤ off.toInt ∧
      (off.toNat + len.toNat ≤ s.jpeg.jcap.toNat ∨ off.toNat + len.toNat ≤ s.cfg.params.jpegMax) ∧
      acceptFragment m seq ts off len (payloadBytes len data)
        { s with jpeg := growFor (off.toNat + len.toNat) s.jpeg } = .next t) := by
  unfold execJpegFrag at h
  split at h
  · cases h; exact .inl rfl
  · next hoff =>
    split at h
    · cases h; exact .inr (.inl rfl)
    · next hend => exact .inr (.inr ⟨Int.not_lt.1 hoff, by omega, h⟩)

theorem execJpegFrag_outcome {m : Bool} {seq len : BitVec 16} {ts off : Word} {data : List Word}
    (h : execJpegFrag m seq ts off len data s = .next t) :
    OnlyJpeg s t ∧ Answers (LegalFrame s.cfg) s t := by
  obtain rfl | rfl | ⟨-, -, h⟩ := execJpegFrag_cases h
  · exact ⟨rfl, answers_result rfl⟩
  · exact ⟨rfl, answers_result rfl⟩
  · obtain ⟨b, j, -, rfl | ⟨j', -, rfl⟩⟩ := acceptFragment_cases h
    · exact ⟨rfl, answers_result rfl⟩
    · obtain ⟨hframe, hans⟩ := assembleFrame_outcome b m seq ts off.toNat len { s with jpeg := j' }
      exact ⟨hframe, hans⟩

/-! ## The H.261 reassembler: a packet at its place in the ring -/

section Ring

variable (s) (seq : BitVec 16) (hdr : Word)

/-- The reassembler once a packet's header is parsed and its frame is open (43_h261_reassembler.md R191, R195). -/
def openedRing : H261 :=
  { s.h261 with
    ring := ringAfter s seq
    first := firstAfter s seq
    lastSeq := seq
    lastValid := true
    rtpBug := toggleAfter s.h261.rtpBug hdr }

/-- The packet as the ring stores it (43_h261_reassembler.md R199). -/
def ringPacket (payload : List Byte) : RingPkt := ⟨seq, hdr, (parseHeader s.h261.rtpBug hdr).1, payload⟩

/-- Frame start opens the frame and the ring that `firstAfter` and `ringAfter` name (43_h261_reassembler.md R195). -/
theorem frameStart_eq :
    frameStart s.cfg.params.gap seq s.h261 =
      { s.h261 with
        ring := ringAfter s seq, first := firstAfter s seq, lastSeq := seq, lastValid := true } := by
  obtain ⟨h, e⟩ | ⟨⟨hv, hg, hf⟩, e⟩ | ⟨⟨hv, hg, hf⟩, e⟩ := frameStart_cases s.cfg.params.gap seq s.h261
  · have hr : frameRestarts s seq := h.imp_right isGap_iff.1
    rw [e, ringAfter, firstAfter, if_pos hr, if_pos (.inl hr)]
    rfl
  · have hr : ¬ frameRestarts s seq := by simp [frameRestarts, hv, ← isGap_iff, hg]
    rw [e, ringAfter, firstAfter, if_neg hr, if_pos (.inr hf)]
    rfl
  · have hr : ¬ frameRestarts s seq := by simp [frameRestarts, hv, ← isGap_iff, hg]
    rw [e, ringAfter, firstAfter, if_neg hr, if_neg (not_or.2 ⟨hr, hf⟩)]

/-- The toggle flips exactly where the layout it names gives an implausible GOB number (43_h261_reassembler.md R191). -/
theorem parseHeader_snd (bug : Bool) (hdr : Word) : (parseHeader bug hdr).2 = toggleAfter bug hdr := by
  cases bug with
  | false =>
    exact apply_ite Prod.snd (gobMax < (stdFields hdr).gob.toNat) (swpFields hdr, true) (stdFields hdr, false)
  | true =>
    exact apply_ite Prod.snd (gobMax < (swpFields hdr).gob.toNat) (stdFields hdr, false) (swpFields hdr, true)

/-- A packet with a whole header is stored at its index, or lies past the ring's end (43_h261_reassembler.md R196,
R198, R199). -/
theorem acceptPacket_eq (m : Bool) (payload : List Byte) :
    acceptPacket m seq hdr payload s =
      if s.cfg.params.ringSize ≤ ringIndex seq (firstAfter s seq) then
        overflowRing m { s with h261 := openedRing s seq hdr }
      else
        storePacket m (ringIndex seq (firstAfter s seq)) (ringPacket s seq hdr payload)
          { s with h261 := openedRing s seq hdr } := by
  simp only [acceptPacket, frameStart_eq, openedRing, ringPacket, parseHeader_snd]

/-- A packet opens a frame with an empty ring, or goes on with the open one (43_h261_reassembler.md R195). -/
theorem frameAfter_cases (h : H261.Inv s.cfg s.h261) :
    (ringAfter s seq = [] ∧ firstAfter s seq = firstOf seq) ∨
      (ringAfter s seq = s.h261.ring ∧ firstAfter s seq = s.h261.first ∧ s.h261.first ≠ 0xFFFFFFFF) := by
  obtain ⟨-, -, hclosed, -⟩ := h
  unfold ringAfter firstAfter
  by_cases hr : frameRestarts s seq
  · exact .inl ⟨if_pos hr, if_pos (.inl hr)⟩
  · by_cases hf : s.h261.first = 0xFFFFFFFF
    · exact .inl ⟨by rw [if_neg hr, hclosed hf], if_pos (.inr hf)⟩
    · exact .inr ⟨if_neg hr, if_neg (not_or.2 ⟨hr, hf⟩), hf⟩

end Ring

/-- The first sequence number of a frame that is open (10_state.md R30). -/
theorem firstAfter_spec (seq : BitVec 16) (h : H261.Inv s.cfg s.h261) :
    (firstAfter s seq).toNat < 65536 ∧ firstAfter s seq ≠ 0xFFFFFFFF := by
  obtain ⟨-, hf⟩ | ⟨-, hf, hopen⟩ := frameAfter_cases s seq h
  · rw [hf]
    refine ⟨?_, firstOf_ne seq⟩
    have := seq.isLt
    rw [firstOf, BitVec.toNat_setWidth]
    omega
  · obtain ⟨-, -, -, h4⟩ := h
    rw [hf]
    exact ⟨(h4 hopen).1, hopen⟩

/-- The ring of a frame that is open holds sound packets, and the first one too unless this packet is it
(43_h261_reassembler.md R195, R199). -/
theorem ringAfter_spec (seq : BitVec 16) (h : H261.Inv s.cfg s.h261) :
    Rising (ringAfter s seq) ∧
      (∀ e ∈ ringAfter s seq, RingPkt.Inv s.cfg (firstAfter s seq) e.1 e.2) ∧
      (ringIndex seq (firstAfter s seq) = 0 ∨ (tableGet (ringAfter s seq) 0).isSome = true) := by
  obtain ⟨hr, hf⟩ | ⟨hr, hf, hopen⟩ := frameAfter_cases s seq h
  · rw [hr, hf]
    exact ⟨List.Pairwise.nil, nofun, .inl (ringIndex_self seq)⟩
  · obtain ⟨h1, h2, -, h4⟩ := h
    rw [hr, hf]
    exact ⟨h1, h2, .inr (h4 hopen).2.2⟩

/-- A closed frame is sound whatever it was (43_h261_reassembler.md R197). -/
theorem h261_inv_of_closed {cfg : Config} {h : H261} (hr : h.ring = []) (hf : h.first = 0xFFFFFFFF) :
    H261.Inv cfg h :=
  ⟨by rw [hr]; exact List.Pairwise.nil, by rw [hr]; exact nofun, fun _ => hr, fun hne => absurd hf hne⟩

/-- A packet stored at its index leaves the ring sound (43_h261_reassembler.md R199). -/
theorem stored_inv {seq : BitVec 16} {hdr : Word} {payload : List Byte} (h : H261.Inv s.cfg s.h261)
    (hidx : ringIndex seq (firstAfter s seq) < s.cfg.params.ringSize)
    (hlen : payload.length ≤ s.cfg.params.maxPktBytes - 4) :
    H261.Inv s.cfg { openedRing s seq hdr with
      ring := tableSet (ringAfter s seq) (ringIndex seq (firstAfter s seq)) (ringPacket s seq hdr payload) } := by
  obtain ⟨hrise, hpkts, hzero⟩ := ringAfter_spec seq h
  obtain ⟨hf, hne⟩ := firstAfter_spec seq h
  refine ⟨rising_tableSet hrise, fun e he => ?_, fun e => absurd e hne, fun _ => ⟨hf, rfl, ?_⟩⟩
  · obtain rfl | he := mem_tableSet he
    · exact ⟨hidx, rfl, parseHeader_fields _ _, hlen⟩
    · exact hpkts e he
  · by_cases h0 : ringIndex seq (firstAfter s seq) = 0
    · rw [h0, tableGet_tableSet_same]; rfl
    · rw [tableGet_tableSet_other hrise (Ne.symm h0)]
      exact hzero.resolve_left h0

/-- A packet past the ring's end finds a frame that was open before it (43_h261_reassembler.md R198). -/
theorem overflowed_inv {seq : BitVec 16} {hdr : Word} (h : H261.Inv s.cfg s.h261)
    (hidx : s.cfg.params.ringSize ≤ ringIndex seq (firstAfter s seq)) :
    H261.Inv s.cfg (openedRing s seq hdr) := by
  obtain ⟨hrise, hpkts, hzero⟩ := ringAfter_spec seq h
  obtain ⟨hf, hne⟩ := firstAfter_spec seq h
  obtain ⟨-, -, -, ⟨hring, -⟩, -⟩ := s.cfg.legal
  exact ⟨hrise, hpkts, fun e => absurd e hne, fun _ => ⟨hf, rfl, hzero.resolve_left (by omega)⟩⟩

/-- The packets collected from a sound ring are at most `RING_SIZE`, and their payloads together at most `DEC_CAP` bytes
(43_h261_reassembler.md R197; 00_scope.md R3). -/
theorem length_collected_le {cfg : Config} {h : H261} (hinv : H261.Inv cfg h) {n : Nat} {ps : List RingPkt}
    (hn : n ≤ cfg.params.ringSize) (hc : collect h.ring n = some ps) :
    (ps.flatMap (·.payload)).length ≤ cfg.decCap := by
  obtain ⟨hrise, hpkts, -, -⟩ := hinv
  obtain ⟨hl, hget⟩ := collect_eq_some.1 hc
  have hbound : ∀ p ∈ ps, p.payload.length ≤ cfg.params.maxPktBytes - 4 := by
    intro p hp
    obtain ⟨k, hk, rfl⟩ := List.mem_iff_getElem.1 hp
    have hmem : (k, ps[k]) ∈ h.ring := by
      rw [← tableGet_eq_some_iff hrise, hget k (hl ▸ hk), List.getElem?_eq_getElem hk]
    obtain ⟨-, -, -, hlen⟩ := hpkts _ hmem
    exact hlen
  calc (ps.flatMap (·.payload)).length
      = (ps.map (·.payload.length)).sum := by rw [List.length_flatMap]
    _ ≤ (ps.map (·.payload.length)).length * (cfg.params.maxPktBytes - 4) :=
        List.sum_le_card_nsmul _ _ (by simpa using hbound)
    _ ≤ cfg.decCap := by rw [List.length_map, hl]; exact Nat.mul_le_mul_right _ hn

/-- Completion answers once, with a legal frame where the ring is sound (43_h261_reassembler.md R197; 10_state.md
R33). -/
theorem completeFrame_outcome (idx : Nat) (last : RingPkt) (s : State) :
    OnlyH261 s (completeFrame idx last s) ∧
      Answers (fun e => e.isFrame = true ∧ (H261.Inv s.cfg s.h261 → idx < s.cfg.params.ringSize → e.Legal s.cfg)) s
        (completeFrame idx last s) := by
  obtain ⟨p0, ps, hc, h⟩ | ⟨-, h⟩ := completeFrame_cases idx last s
  · rw [h]
    exact ⟨rfl, answers_event (e := .frameH261 _)
      ⟨rfl, fun hinv hidx => ⟨by simp [frameOf], length_collected_le hinv hidx hc⟩⟩ rfl⟩
  · rw [h]; exact ⟨rfl, answers_result rfl⟩

/-- The frames a packet can complete are legal where the ring was sound and the packet is in range. -/
def LegalRingFrame (s : State) (payload : List Byte) (e : Event) : Prop :=
  e.isFrame = true ∧
    (H261.Inv s.cfg s.h261 → payload.length ≤ s.cfg.params.maxPktBytes - 4 → e.Legal s.cfg)

theorem acceptPacket_outcome (m : Bool) (seq : BitVec 16) (hdr : Word) (payload : List Byte) (s : State) :
    OnlyH261 s (acceptPacket m seq hdr payload s) ∧
      Answers (LegalRingFrame s payload) s (acceptPacket m seq hdr payload s) := by
  rw [acceptPacket_eq]
  split
  · cases m <;> exact ⟨rfl, answers_result rfl⟩
  · next hidx =>
    cases m with
    | false => exact ⟨rfl, answers_result rfl⟩
    | true =>
      obtain ⟨honly, hans⟩ := completeFrame_outcome (ringIndex seq (firstAfter s seq)) (ringPacket s seq hdr payload)
        { s with h261 := { openedRing s seq hdr with
          ring := tableSet (ringAfter s seq) (ringIndex seq (firstAfter s seq)) (ringPacket s seq hdr payload) } }
      exact ⟨honly, hans.mono fun e he =>
        ⟨he.1, fun hinv hlen => he.2 (stored_inv hinv (Nat.not_le.1 hidx) hlen) (Nat.not_le.1 hidx)⟩⟩

/-- A packet with a payload header goes on to frame start; a shorter one is a runt (43_h261_reassembler.md R194). -/
theorem execH261Pkt_cases {m : Bool} {seq len : BitVec 16} {data : List Word}
    (h : execH261Pkt m seq len data s = .next t) :
    t = emitResult .dropRunt 0 { s with h261 := { s.h261 with runtCnt := s.h261.runtCnt + 1 } } ∨
    ∃ hdr payload, payload.length + 4 ≤ len.toNat ∧ t = acceptPacket m seq hdr payload s := by
  unfold execH261Pkt at h
  split at h
  · cases h; exact .inl rfl
  · next hdr payload hsplit =>
    cases h
    refine .inr ⟨hdr, payload, ?_, rfl⟩
    rw [← (splitHeader_eq_some hsplit).2]
    exact length_payloadBytes_le len data

theorem execH261Pkt_outcome {m : Bool} {seq len : BitVec 16} {data : List Word}
    (h : execH261Pkt m seq len data s = .next t) :
    OnlyH261 s t ∧ Answers (fun e => e.isFrame = true ∧
      (H261.Inv s.cfg s.h261 → len.toNat ≤ s.cfg.params.maxPktBytes → e.Legal s.cfg)) s t := by
  obtain rfl | ⟨hdr, payload, hlen, rfl⟩ := execH261Pkt_cases h
  · exact ⟨rfl, answers_result rfl⟩
  · obtain ⟨honly, hans⟩ := acceptPacket_outcome m seq hdr payload s
    exact ⟨honly, hans.mono fun e he => ⟨he.1, fun hinv hmax => he.2 hinv (by omega)⟩⟩

/-! ## Every command -/

/-- The kind of event a command can hand out before its result word (10_state.md R35). -/
def HandsOut (i : Instr) (e : Event) : Prop :=
  match i with
  | .bpFlush _ | .encGob _ _ | .encMb _ _ => e.isPacket = true
  | .jpegFrag _ _ _ _ _ _ | .h261Pkt _ _ _ _ => e.isFrame = true
  | .nop | .srst | .bpPut _ _ | .encBegin => False

/-- Every command that completes answers once, with an event of its kind at most (10_state.md R35). -/
theorem exec_answers {i : Instr} (h : exec i s = .next t) : Answers (HandsOut i) s t := by
  cases i with
  | nop | srst | encBegin => cases h; exact answers_result rfl
  | bpPut n v => exact (execBpPut_outcome h).2
  | bpFlush m => exact (execBpFlush_outcome h).2.mono fun _ he => he.1
  | encGob gn gq => exact (execEncGob_outcome h).2.mono fun _ he => he.1
  | encMb nbits data => exact (execEncMb_outcome h).2.mono fun _ he => he.1
  | jpegFrag m seq ts off len data => exact (execJpegFrag_outcome h).2.mono fun _ he => he.1
  | h261Pkt m seq len data => exact (execH261Pkt_outcome h).2.mono fun _ he => he.1

/-- Settles O20, by the answer of each command. -/
theorem commandAnswersOnce : Obligations.CommandAnswersOnce := by
  intro i s t h
  obtain ⟨evs, c, v, htr, hevs⟩ := exec_answers h
  refine ⟨evs, _, htr, legalResultCode_resultWord c v, hevs.imp_right fun ⟨e, he, hk⟩ => ⟨e, he, ?_⟩⟩
  cases i <;> exact hk

/-- A well-formed command on a sound H.261 ring answers with a legal event at most (10_state.md R32, R33). -/
theorem exec_answers_legal {i : Instr} (hw : i.wellFormed s.cfg.params.maxPktBytes = true)
    (hinv : H261.Inv s.cfg s.h261) (h : exec i s = .next t) : Answers (Event.Legal s.cfg) s t := by
  cases i with
  | nop | srst | encBegin => cases h; exact answers_result rfl
  | bpPut n v => exact (execBpPut_outcome h).2.mono fun _ he => he.elim
  | bpFlush m => exact (execBpFlush_outcome h).2.mono fun _ he => he.2
  | encGob gn gq => exact (execEncGob_outcome h).2.mono fun _ he => he.2
  | encMb nbits data => exact (execEncMb_outcome h).2.mono fun _ he => he.2
  | jpegFrag m seq ts off len data => exact (execJpegFrag_outcome h).2.mono fun _ he => he.2
  | h261Pkt m seq len data =>
    obtain ⟨hlen, -⟩ := wellFormed_h261Pkt.1 hw
    exact (execH261Pkt_outcome h).2.mono fun _ he => he.2 hinv hlen

/-- SRST sets the command pointer to 1, and no other command moves it (10_state.md R21; 44_control.md R221). -/
theorem exec_cp {i : Instr} (h : exec i s = .next t) : t.cp = if i = .srst then 1 else s.cp := by
  cases i with
  | nop | srst | encBegin => cases h; rfl
  | bpPut n v => exact (execBpPut_outcome h).1
  | bpFlush m => exact (execBpFlush_outcome h).1.cp
  | encGob gn gq => exact (execEncGob_outcome h).1.cp
  | encMb nbits data => exact (execEncMb_outcome h).1.cp
  | jpegFrag m seq ts off len data => exact (execJpegFrag_outcome h).1.cp
  | h261Pkt m seq len data => exact (execH261Pkt_outcome h).1.cp

end Sys2Proof.Machine
end

section
/-! The H.261 frame a marker packet completes (43_h261_reassembler.md R191, R196, R197; 10_state.md R33). -/

namespace Sys2Proof.Machine

variable {s : State} {seq : BitVec 16} {hdr : Word} {payload : List Byte}

/-- The bytes of a word, most significant first, make it again (20_memory.md R62, R64). -/
theorem append_bytes_eq (w : Word) :
    w.extractLsb' 24 8 ++ (w.extractLsb' 16 8 ++ (w.extractLsb' 8 8 ++ w.extractLsb' 0 8)) = w := by
  refine BitVec.eq_of_getLsbD_eq fun k hk => ?_
  simp only [BitVec.getLsbD_append, BitVec.getLsbD_extractLsb']
  by_cases h16 : k < 16
  · by_cases h8 : k < 8
    · simp [h8, h16, show k < 24 by omega]
    · simp [h8, h16, show k < 24 by omega, show k - 8 < 8 by omega, show 8 + (k - 8) = k by omega]
  · by_cases h24 : k < 24
    · simp [h16, h24, show k - 16 < 8 by omega, show 16 + (k - 16) = k by omega]
    · simp [h24, show k - 24 < 8 by omega, show 24 + (k - 24) = k by omega]

/-- A whole packet splits into its first data word and the bytes after it (20_memory.md R64; 43_h261_reassembler.md
R190). -/
theorem splitHeader_payloadBytes {len : BitVec 16} {d : List Word} (h4 : 4 ≤ len.toNat) (hd : d ≠ []) :
    splitHeader (payloadBytes len d) = some (d.getD 0 0, (payloadBytes len d).drop 4) := by
  obtain ⟨w, ws, rfl⟩ := List.exists_cons_of_ne_nil hd
  obtain ⟨n, hn⟩ : ∃ n, len.toNat = n + 4 := ⟨len.toNat - 4, by omega⟩
  have hp : payloadBytes len (w :: ws) = w.extractLsb' 24 8 :: w.extractLsb' 16 8 :: w.extractLsb' 8 8 ::
      w.extractLsb' 0 8 :: (ws.flatMap wordBytes).take n := by
    rw [payloadBytes, hn]
    rfl
  rw [hp]
  simp only [splitHeader, append_bytes_eq]
  rfl

/-- With every index before its own stored, a packet stored completes the front of the ring (43_h261_reassembler.md
R197). -/
theorem collect_tableSet {ring : List (Nat × RingPkt)} {before : List RingPkt} {p : RingPkt} (hr : Rising ring)
    (hb : ∀ k < before.length, tableGet ring k = before[k]?) :
    collect (tableSet ring before.length p) (before.length + 1) = some (before ++ [p]) := by
  refine collect_eq_some.2 ⟨by simp, fun k hk => ?_⟩
  by_cases hlast : k = before.length
  · rw [hlast, tableGet_tableSet_same, List.getElem?_concat_length]
  · rw [tableGet_tableSet_other hr hlast, hb k (by omega), List.getElem?_append_left (by omega)]

/-- A sound ring's front has a length the result word can hold (00_scope.md R3; log entry 8). -/
theorem lengthField_of_le_decCap {cfg : Config} {n : Nat} (h : n ≤ cfg.decCap) (draw : Nat) :
    lengthField draw n = BitVec.ofNat 24 n := by
  obtain ⟨-, -, -, -, -, -, -, -, hmax⟩ := cfg.legal
  unfold Config.decCap at h
  exact if_pos (by omega)

/-- What a marker packet in range does to a sound ring whose earlier indices are all stored: it hands out the frame and
closes it (43_h261_reassembler.md R197). -/
theorem acceptPacket_completes {before : List RingPkt} (hinv : H261.Inv s.cfg s.h261)
    (hlen : payload.length ≤ s.cfg.params.maxPktBytes - 4)
    (hidx : ringIndex seq (firstAfter s seq) < s.cfg.params.ringSize)
    (hcount : before.length = ringIndex seq (firstAfter s seq))
    (hbefore : ∀ k < before.length, tableGet (ringAfter s seq) k = before[k]?) :
    ∃ p0 ps, before ++ [ringPacket s seq hdr payload] = p0 :: ps ∧
      acceptPacket true seq hdr payload s = { s with
        h261 := { closeFrame (openedRing s seq hdr) with hframeCnt := s.h261.hframeCnt + 1 }
        trace := s.trace ++ [.frameH261 (frameOf (firstAfter s seq) p0 (ringPacket s seq hdr payload) (p0 :: ps)),
          .result (resultWord .frameReady (BitVec.ofNat 24 ((p0 :: ps).flatMap (·.payload)).length))]
        draws := s.draws + 1 } := by
  have hstored := stored_inv (hdr := hdr) hinv hidx hlen
  have hcollect := collect_tableSet (p := ringPacket s seq hdr payload) (ringAfter_spec seq hinv).1 hbefore
  rw [hcount] at hcollect
  rw [acceptPacket_eq, if_neg (Nat.not_le.2 hidx)]
  simp only [storePacket, if_true]
  obtain ⟨p0, ps, hc, h⟩ | ⟨hnone, -⟩ := completeFrame_cases (ringIndex seq (firstAfter s seq))
    (ringPacket s seq hdr payload) { s with h261 := { openedRing s seq hdr with
      ring := tableSet (ringAfter s seq) (ringIndex seq (firstAfter s seq)) (ringPacket s seq hdr payload) } }
  · have hfits := length_collected_le hstored hidx hc
    refine ⟨p0, ps, Option.some.inj (hcollect.symm.trans hc), h.trans ?_⟩
    simp only [emitFrame, emitResult, emit, lengthField_of_le_decCap hfits, List.append_assoc]
    rfl
  · exact absurd (hcollect.symm.trans hnone) nofun

/-- Settles O57: the packet splits into header and payload, and completes the ring's front. -/
theorem h261MarkerHandsOutFrame : Obligations.H261MarkerHandsOutFrame := by
  intro seq len d before s hinv h4 hmax hd hidx hcount hbefore
  have hsplit := splitHeader_payloadBytes (d := d) h4 (List.ne_nil_of_length_pos (by omega))
  have hlen : ((payloadBytes len d).drop 4).length ≤ s.cfg.params.maxPktBytes - 4 := by
    have := length_payloadBytes_le len d
    rw [List.length_drop]
    omega
  obtain ⟨p0, ps, hall, hs⟩ := acceptPacket_completes (hdr := d.getD 0 0) hinv hlen hidx hcount hbefore
  have hnpkt : (p0 :: ps).length = ringIndex seq (firstAfter s seq) + 1 := by simp [← hall, hcount]
  refine ⟨_, p0, _, _, rfl, rfl, ?_, rfl, ?_⟩
  · exact hall ▸ rfl
  · show execH261Pkt true seq len d s = _
    have hall' : before ++ [⟨seq, d.getD 0 0, (parseHeader s.h261.rtpBug (d.getD 0 0)).1,
        (payloadBytes len d).drop 4⟩] = p0 :: ps := hall
    rw [execH261Pkt, hsplit, hall', ← hnpkt]
    exact congrArg Host.Outcome.next hs

end Sys2Proof.Machine
end

section
/-! What a step does to the command pointer and to the trace (10_state.md R21, R31 to R35; 30_encoding.md R88, R95). -/

namespace Sys2Proof

variable {maxPkt : Nat}

/-- A header word that passes the checks has the reserved bits of its format clear (30_encoding.md R89). -/
theorem reserved_of_headerFault {h : Word} {op : Opcode} (hf : headerFault h = none) (ho : opcodeOf h = some op) :
    h &&& op.format.reserved = 0 := by
  simp only [headerFault, ho] at hf
  by_contra hne
  rw [if_pos hne] at hf
  cases hf

/-- A word that passes the checks with SRST's opcode is SRST's header word (30_encoding.md R82, R89). -/
theorem eq_srst_header {h : Word} (hf : headerFault h = none) (ho : opcodeOf h = some .srst) :
    h = Instr.srst.header := by
  have hfields : h.setWidth 24 = 0 := by
    refine BitVec.eq_of_getLsbD_eq fun k hk => ?_
    have hbit : Format.f0.reserved.getLsbD k = true := by
      have all : ∀ j : Fin 24, Format.f0.reserved.getLsbD j = true := by decide
      exact all ⟨k, hk⟩
    simpa [hk] using reserved_clear_iff.1 (reserved_of_headerFault hf ho) k hbit
  rw [eq_headerWord_of_opcodeOf ho, hfields]
  rfl

/-- The decoder answers SRST behind SRST's header alone. -/
theorem decodeArgs_eq_srst {op : Opcode} {h : Word} {ws rest : List Word}
    (hd : decodeArgs maxPkt op h ws = .cmd .srst rest) : op = .srst ∧ ws = rest := by
  cases op with
  | srst => cases hd; exact ⟨rfl, rfl⟩
  | nop | bpFlush | encBegin | encGob => cases hd
  | bpPut => cases ws <;> cases hd
  | encMb => exact nomatch (takeData_eq_cmd.1 hd).2.1
  | jpegFrag | h261Pkt =>
    simp only [decodeArgs] at hd
    split at hd
    · split at hd
      · cases hd
      · exact nomatch (takeData_eq_cmd.1 hd).2.1
    · cases hd

/-- The words that decode to SRST are its header word and what follows it. -/
theorem eq_of_decode_eq_srst {ws rest : List Word} (hd : decode maxPkt ws = .cmd .srst rest) :
    ws = Instr.srst.header :: rest := by
  unfold decode at hd
  split at hd
  · cases hd
  · split at hd
    · cases hd
    · next hf =>
      split at hd
      · cases hd
      · next op ho =>
        obtain ⟨rfl, rfl⟩ := decodeArgs_eq_srst hd
        rw [eq_srst_header hf ho]

/-- SRST's header word is a whole command (30_encoding.md R87). -/
theorem decode_srst_header (maxPkt : Nat) (rest : List Word) :
    decode maxPkt (Instr.srst.header :: rest) = .cmd .srst rest :=
  decode_encode_append (i := .srst) rfl rest

/-- With words pending on which the decoder waits, the next word makes an SRST exactly where nothing is pending and it
is SRST's header. -/
theorem decode_eq_srst_iff {pend after : List Word} {w : Word} {i : Instr} (hp : decode maxPkt pend = .more)
    (hd : decode maxPkt (pend ++ [w]) = .cmd i after) : i = .srst ↔ w = Instr.srst.header ∧ pend = [] := by
  constructor
  · rintro rfl
    have hws := eq_of_decode_eq_srst hd
    cases pend with
    | nil => exact ⟨(List.cons.inj hws).1, rfl⟩
    | cons h ws =>
      rw [(List.cons.inj hws).1, decode_srst_header] at hp
      cases hp
  · rintro ⟨rfl, rfl⟩
    rw [List.nil_append, decode_srst_header] at hd
    cases hd
    rfl

end Sys2Proof

namespace Sys2Proof.Machine

variable {s t : State} {w : Word} {P : Event → Prop}

/-- A word outside the fault state moves the command pointer by one, or to 1 where it is an SRST (10_state.md R21;
44_control.md R221). -/
theorem decodeNext_cp (hp : decode s.cfg.params.maxPktBytes s.pend = .more) (h : decodeNext w s = .next t) :
    t.cp = if w = Instr.srst.header ∧ s.pend = [] then 1 else s.cp + 1 := by
  have hno : (∀ after, decode s.cfg.params.maxPktBytes (s.pend ++ [w]) ≠ .cmd .srst after) →
      ¬ (w = Instr.srst.header ∧ s.pend = []) := by
    rintro hne ⟨rfl, hnil⟩
    exact hne [] (by rw [hnil]; exact decode_srst_header _ [])
  obtain ⟨hd, e⟩ | ⟨c, hd, e⟩ | ⟨i, after, hd, e⟩ := decodeNext_cases w s <;> rw [e] at h
  · cases h
    rw [if_neg (hno fun _ e => nomatch hd.symm.trans e)]
  · cases h
    rw [if_neg (hno fun _ e => nomatch hd.symm.trans e)]
    rfl
  · rw [exec_cp h]
    exact if_congr (decode_eq_srst_iff hp hd) rfl rfl

/-- A word in the fault state moves the command pointer so too (30_encoding.md R95). -/
theorem discardNext_cp (h : discardNext w s = .next t) :
    t.cp = if w = Instr.srst.header then 1 else s.cp + 1 := by
  rw [srst_header]
  obtain ⟨hw, e⟩ | ⟨hw, e⟩ := discardNext_cases w s <;> rw [e] at h
  · cases h
    rw [if_neg hw]
  · rw [if_pos hw, exec_cp h]
    rfl

/-- Settles O15, by the action the step takes; in the fault state of a sound machine nothing is pending. -/
theorem commandPointerMoves : Obligations.CommandPointerMoves := by
  rintro s t ⟨-, -, -, ⟨hfault, -⟩, hpend, -⟩ h
  rw [← srst_header]
  obtain ⟨hi, e⟩ | ⟨a, rest, hi, e⟩ | ⟨a, v, rest, hi, e⟩ | ⟨w, rest, hi, ⟨hf, e⟩ | ⟨-, e⟩⟩ := step_cases s
  all_goals rw [e] at h; simp only [hi]
  · cases h; rfl
  · cases h; rfl
  · cases h
    obtain ⟨ha, hv, e⟩ | ⟨hno, e⟩ := csrWrite_cases a v { s with input := rest } <;> rw [e]
    · rw [if_pos ⟨ha, hv⟩]; rfl
    · rw [if_neg hno]
  · rw [discardNext_cp h]
    exact if_congr (by simp [(hfault hf).1]) rfl rfl
  · exact decodeNext_cp (s := { s with input := rest }) hpend h

/-- A word consumed outside the fault state adds nothing to the trace, or a legal answer. -/
theorem decodeNext_answers (hinv : H261.Inv s.cfg s.h261) (h : decodeNext w s = .next t) :
    t.trace = s.trace ∨ Answers (Event.Legal s.cfg) s t := by
  obtain ⟨-, e⟩ | ⟨c, -, e⟩ | ⟨i, after, hd, e⟩ := decodeNext_cases w s <;> rw [e] at h
  · cases h; exact .inl rfl
  · cases h; exact .inr (answers_result rfl)
  · exact .inr (exec_answers_legal (s := { s with cp := s.cp + 1, pend := [] }) (decode_wellFormed hd) hinv h)

/-- A word consumed in the fault state adds nothing to the trace, or the answer of SRST. -/
theorem discardNext_answers (h : discardNext w s = .next t) :
    t.trace = s.trace ∨ Answers P s t := by
  obtain ⟨-, e⟩ | ⟨-, e⟩ := discardNext_cases w s <;> rw [e] at h
  · cases h; exact .inl rfl
  · cases h; exact .inr (answers_result rfl)

/-- A step of a machine with a sound H.261 ring adds nothing to the trace, or a legal answer. -/
theorem step_answers (hinv : H261.Inv s.cfg s.h261) (h : step s = .next t) :
    t.trace = s.trace ∨ Answers (Event.Legal s.cfg) s t := by
  obtain ⟨-, e⟩ | ⟨a, rest, -, e⟩ | ⟨a, v, rest, -, e⟩ | ⟨w, rest, -, ⟨-, e⟩ | ⟨-, e⟩⟩ := step_cases s
  all_goals rw [e] at h
  · cases h; exact .inl rfl
  · cases h; exact .inl rfl
  · cases h
    obtain ⟨-, -, e⟩ | ⟨-, e⟩ := csrWrite_cases a v { s with input := rest } <;> rw [e] <;> exact .inl rfl
  · exact discardNext_answers (s := { s with input := rest }) h
  · exact decodeNext_answers (s := { s with input := rest }) hinv h

/-- Settles O28: the events that were there stay, and a step's answer is legal. -/
theorem traceEventsStayLegal : Obligations.TraceEventsStayLegal := by
  rintro s t ⟨-, -, hinv, -⟩ htr h
  obtain ⟨hcfg, -⟩ := stepKeepsConfigAndHistory s t h
  rw [hcfg]
  obtain hsame | hans := step_answers hinv h
  · rwa [hsame]
  · exact hans.legal htr

end Sys2Proof.Machine
end

section
/-! The JPEG reassembler stays sound, operation by operation (10_state.md R26 to R28; 42_jpeg_reassembler.md R163 to
R169). -/

namespace Sys2Proof.Machine

variable {cfg : Config} {j : Jpeg}

/-- The JPEG reassembler after reset is sound. -/
theorem jpegReset_inv (cfg : Config) : Jpeg.Inv cfg (Jpeg.reset cfg) := by
  obtain ⟨-, -, -, -, -, -, hlt, -⟩ := params_lt cfg
  have hcap : (Jpeg.reset cfg).jcap.toNat = cfg.params.jpegInitCap := Nat.mod_eq_of_lt hlt
  have hbuf : JpegBuf.Inv (Jpeg.reset cfg).jcap.toNat JpegBuf.reset := ⟨List.Pairwise.nil, nofun, fun _ => rfl⟩
  have hslot : ∀ k, slotAt (Jpeg.reset cfg).slots k = Slot.reset := fun k => by simp [slotAt, Jpeg.reset]
  exact ⟨hcap.ge, .inl hcap, hbuf, hbuf, nofun, fun k => by rw [hslot k]; exact ⟨nofun, fun _ => rfl⟩,
    Int.le_refl 0, Int.natCast_nonneg _⟩

/-- A buffer sound for a capacity is sound for every larger one. -/
theorem jpegBuf_inv_mono {cap cap' : Nat} {b : JpegBuf} (h : JpegBuf.Inv cap b) (hle : cap ≤ cap') :
    JpegBuf.Inv cap' b :=
  ⟨h.1, fun c hc => Nat.lt_of_lt_of_le (h.2.1 c hc) hle, h.2.2⟩

/-- Each of the two buffers of a sound reassembler is sound. -/
theorem rb_inv (h : Jpeg.Inv cfg j) (b : BufIx) : JpegBuf.Inv j.jcap.toNat (j.rb b) := by
  obtain ⟨-, -, h0, h1, -⟩ := h
  cases b
  · exact h0
  · exact h1

/-- Growth to an end inside `JPEG_MAX` keeps the reassembler sound (42_jpeg_reassembler.md R163). -/
theorem growFor_inv {fin : Nat} (h : Jpeg.Inv cfg j) (hfin : fin ≤ j.jcap.toNat ∨ fin ≤ cfg.params.jpegMax) :
    Jpeg.Inv cfg (growFor fin j) := by
  have ⟨hinit, hcap, h0, h1, hts, hslots, hdec⟩ := h
  unfold growFor
  split
  · next hlt =>
    obtain ⟨-, -, -, -, ⟨-, hmax⟩, hpos, -⟩ := cfg.legal
    obtain ⟨-, k, -, hk, hreach, hbound, -⟩ := grow_spec (by omega) hlt (by omega)
    have hle : j.jcap.toNat ≤ (grow fin j).jcap.toNat := by omega
    exact ⟨by omega, .inr (by omega), jpegBuf_inv_mono h0 hle, jpegBuf_inv_mono h1 hle, hts, hslots, hdec⟩
  · exact h

/-- A sound slot put at its index keeps the slots sound. -/
theorem putSlot_inv {v : Vector Slot 64} {k : Fin 64} {t : Slot} (hv : ∀ i, Slot.Inv i (slotAt v i))
    (ht : Slot.Inv k t) (i : Fin 64) : Slot.Inv i (slotAt (putSlot v k t) i) := by
  by_cases hi : i = k
  · subst hi; rwa [slotAt_putSlot_same]
  · rw [slotAt_putSlot_other hi]; exact hv i

/-- New slots, each sound, keep the reassembler sound. -/
theorem slots_inv {v : Vector Slot 64} (h : Jpeg.Inv cfg j) (hv : ∀ k, Slot.Inv k (slotAt v k)) :
    Jpeg.Inv cfg { j with slots := v } := by
  obtain ⟨hinit, hcap, h0, h1, hts, -, hdec⟩ := h
  exact ⟨hinit, hcap, h0, h1, hts, hv, hdec⟩

/-- Step 3 records a fragment whose offset is not negative (42_jpeg_reassembler.md R162, R164). -/
theorem recordSlot_inv {off : Word} (h : Jpeg.Inv cfg j) (hoff : 0 ≤ off.toInt) (seq : BitVec 16) (ts : Word) :
    Jpeg.Inv cfg (recordSlot seq off ts j) := by
  have ⟨_, _, _, _, _, hslots, _⟩ := h
  refine slots_inv h (putSlot_inv hslots ⟨fun _ => ⟨rfl, ?_⟩, nofun⟩)
  have := off.isLt
  rw [BitVec.toInt_eq_toNat_cond] at hoff
  show off.toNat < 2 ^ 31
  split at hoff <;> omega

/-- Step 7 writes the end-of-frame length of a slot that is in use (42_jpeg_reassembler.md R169). -/
theorem setEof_inv {k : Fin 64} (h : Jpeg.Inv cfg j) (hk : (slotAt j.slots k).valid = true) (eof : BitVec 16) :
    Jpeg.Inv cfg (setEof k eof j) := by
  have ⟨_, _, _, _, _, hslots, _⟩ := h
  exact slots_inv h (putSlot_inv hslots ⟨(hslots k).1, fun hinvalid => nomatch hk.symm.trans hinvalid⟩)

/-- A sound buffer in the place of one, its frame not that of the other, keeps the reassembler sound. -/
theorem setRb_inv {b : BufIx} {x : JpegBuf} (h : Jpeg.Inv cfg j) (hx : JpegBuf.Inv j.jcap.toNat x)
    (hts : x.valid = true → (j.rb b.other).valid = true → (j.rb b.other).ts ≠ x.ts) :
    Jpeg.Inv cfg (j.setRb b x) := by
  obtain ⟨hinit, hcap, h0, h1, -, hslots, hdec⟩ := h
  cases b
  · exact ⟨hinit, hcap, hx, h1, fun hv0 hv1 => (hts hv0 hv1).symm, hslots, hdec⟩
  · exact ⟨hinit, hcap, h0, hx, fun hv0 hv1 => hts hv1 hv0, hslots, hdec⟩

/-- The two buffers of a sound reassembler hold different frames (42_jpeg_reassembler.md R165). -/
theorem rb_ts_ne (h : Jpeg.Inv cfg j) (b : BufIx) (hb : (j.rb b).valid = true) (ho : (j.rb b.other).valid = true) :
    (j.rb b.other).ts ≠ (j.rb b).ts := by
  obtain ⟨-, -, -, -, hts, -⟩ := h
  cases b
  · exact (hts hb ho).symm
  · exact hts ho hb

/-- A buffer in use with another payload or drop flag keeps the reassembler sound. -/
theorem setRb_inv_of_same_frame {b : BufIx} {x : JpegBuf} (h : Jpeg.Inv cfg j) (hb : (j.rb b).valid = true)
    (hx : JpegBuf.Inv j.jcap.toNat x) (hts : x.ts = (j.rb b).ts) : Jpeg.Inv cfg (j.setRb b x) :=
  setRb_inv h hx fun _ ho => hts ▸ rb_ts_ne h b hb ho

/-- A buffer taken for a frame that neither buffer holds (42_jpeg_reassembler.md R165). -/
theorem claim_inv {ts : Word} (h : Jpeg.Inv cfg j) (ht : takesBuffer j ts) (b : BufIx) :
    Jpeg.Inv cfg (claim b ts j) := by
  obtain ⟨hwf, hin, -⟩ := rb_inv h b
  refine setRb_inv h ⟨hwf, hin, nofun⟩ fun _ ho he => ?_
  cases b
  · exact ht.2 ⟨ho, he⟩
  · exact ht.1 ⟨ho, he⟩

/-- A counter of kept frames in its range keeps the reassembler sound (42_jpeg_reassembler.md R166). -/
theorem decCnt_inv {n : Word} (h : Jpeg.Inv cfg j) (h0 : 0 ≤ n.toInt) (hn : n.toInt ≤ cfg.params.decimate) :
    Jpeg.Inv cfg { j with decCnt := n } := by
  obtain ⟨hinit, hcap, hb0, hb1, hts, hslots, -⟩ := h
  exact ⟨hinit, hcap, hb0, hb1, hts, hslots, h0, hn⟩

/-- Counting down from a positive count. -/
theorem toInt_sub_one {n : Word} (h : 0 < n.toInt) : (n - 1).toInt = n.toInt - 1 := by
  have := n.isLt
  rw [BitVec.toInt_eq_toNat_cond] at h
  rw [BitVec.toInt_eq_toNat_cond, BitVec.toInt_eq_toNat_cond, BitVec.toNat_sub]
  have h1 : (1 : Word).toNat = 1 := rfl
  omega

/-- Decimation for a buffer in use (42_jpeg_reassembler.md R166). -/
theorem decimate_inv {b : BufIx} (h : Jpeg.Inv cfg j) (hb : (j.rb b).valid = true) :
    Jpeg.Inv cfg (decimate cfg.params.decimate b j) ∧ ((decimate cfg.params.decimate b j).rb b).valid = true := by
  have ⟨_, _, _, _, _, _, h0, hle⟩ := h
  obtain ⟨-, e⟩ | ⟨-, -, e⟩ | ⟨-, hpos, e⟩ := decimate_spec cfg.params.decimate b j <;> rw [e]
  · exact ⟨h, hb⟩
  · have hn : (BitVec.ofNat 32 cfg.params.decimate).toInt = cfg.params.decimate := by
      obtain ⟨-, -, -, -, -, -, hmax, -⟩ := cfg.legal
      have hnat : (BitVec.ofNat 32 cfg.params.decimate).toNat = cfg.params.decimate := Nat.mod_eq_of_lt (by omega)
      rw [BitVec.toInt_eq_toNat_of_lt (by omega), hnat]
    refine ⟨decCnt_inv h (by omega) (by omega), ?_⟩
    cases b <;> exact hb
  · have hn := toInt_sub_one (n := j.decCnt) (by omega)
    have hj := decCnt_inv (n := j.decCnt - 1) h (by omega) (by omega)
    have hb' : (Jpeg.rb { j with decCnt := j.decCnt - 1 } b) = j.rb b := by cases b <;> rfl
    obtain ⟨hwf, hin, -⟩ := rb_inv h b
    refine ⟨setRb_inv_of_same_frame hj (hb' ▸ hb) ⟨hwf, hin, fun hv => nomatch hb.symm.trans hv⟩ (by rw [hb']), ?_⟩
    rwa [Jpeg.rb_setRb_same]

/-- Step 4 selects a buffer in use (42_jpeg_reassembler.md R165). -/
theorem select_inv {ts : Word} {b : BufIx} {j' : Jpeg} (h : Jpeg.Inv cfg j)
    (hsel : select cfg.params.decimate ts j = (b, j')) : Jpeg.Inv cfg j' ∧ (j'.rb b).valid = true := by
  obtain ⟨h0, e⟩ | ⟨-, h1, e⟩ | ⟨h0, h1, e⟩ := select_spec cfg.params.decimate ts j <;> cases e.symm.trans hsel
  · exact ⟨h, h0.1⟩
  · exact ⟨h, h1.1⟩
  · exact decimate_inv (claim_inv h ⟨h0, h1⟩ _) (by rw [claim, Jpeg.rb_setRb_same])

/-- Step 6 writes inside the capacity of a buffer in use (42_jpeg_reassembler.md R168). -/
theorem copyFragment_inv {b : BufIx} {off : Nat} {bytes : List Byte} {j' : Jpeg} (h : Jpeg.Inv cfg j)
    (hb : (j.rb b).valid = true) (hcopy : copyFragment b off bytes j = .ok j') :
    Jpeg.Inv cfg j' ∧ j'.slots = j.slots := by
  unfold copyFragment at hcopy
  split at hcopy
  · next hfit =>
    cases hcopy
    obtain ⟨hwf, hin, -⟩ := rb_inv h b
    refine ⟨setRb_inv_of_same_frame h hb
      ⟨Memory.wf_writeBytes hwf, fun c hc => ?_, fun hv => nomatch hb.symm.trans hv⟩ rfl, Jpeg.setRb_slots ..⟩
    obtain hc | hc := Memory.mem_writeBytes hc
    · omega
    · exact hin c hc
  · cases hcopy

/-- Steps 7 to 9, where the fragment's slot is in use (42_jpeg_reassembler.md R169 to R171). -/
theorem assembleFrame_inv {s : State} {seq : BitVec 16} (h : Jpeg.Inv s.cfg s.jpeg)
    (hslot : (slotAt s.jpeg.slots (slotOf seq)).valid = true) (b : BufIx) (m : Bool) (ts : Word) (off : Nat)
    (len : BitVec 16) : Jpeg.Inv s.cfg (assembleFrame b m seq ts off len s).jpeg := by
  obtain ⟨j, rfl, ⟨total, -, -, e⟩ | ⟨-, e⟩⟩ := assembleFrame_cases b m seq ts off len s <;> rw [e]
  · exact setEof_inv h hslot _
  · exact setEof_inv h hslot _

/-- Steps 3 to 9 for a fragment whose offset is not negative. -/
theorem acceptFragment_inv {s t : State} {m : Bool} {seq len : BitVec 16} {ts off : Word} {bytes : List Byte}
    (h : Jpeg.Inv s.cfg s.jpeg) (hoff : 0 ≤ off.toInt) (hs : acceptFragment m seq ts off len bytes s = .next t) :
    Jpeg.Inv s.cfg t.jpeg := by
  obtain ⟨b, j, hsel, hcases⟩ := acceptFragment_cases hs
  obtain ⟨hj, hvalid⟩ := select_inv (recordSlot_inv h hoff seq ts) hsel
  obtain rfl | ⟨j', hcopy, rfl⟩ := hcases
  · exact hj
  · obtain ⟨hj', hslots⟩ := copyFragment_inv hj hvalid hcopy
    have hsel' : j.slots = (recordSlot seq off ts s.jpeg).slots := by
      rw [← select_slots s.cfg.params.decimate ts (recordSlot seq off ts s.jpeg), hsel]
    refine assembleFrame_inv (s := { s with jpeg := j' }) hj' ?_ ..
    show (slotAt j'.slots (slotOf seq)).valid = true
    rw [hslots, hsel', recordSlot_self]

/-- JPEG.FRAG keeps the reassembler sound. -/
theorem execJpegFrag_inv {s t : State} {m : Bool} {seq len : BitVec 16} {ts off : Word} {data : List Word}
    (h : Jpeg.Inv s.cfg s.jpeg) (hs : execJpegFrag m seq ts off len data s = .next t) : Jpeg.Inv s.cfg t.jpeg := by
  obtain rfl | rfl | ⟨hoff, hend, hs⟩ := execJpegFrag_cases hs
  · exact h
  · exact h
  · exact acceptFragment_inv (s := { s with jpeg := growFor (off.toNat + len.toNat) s.jpeg })
      (growFor_inv h hend) hoff hs

end Sys2Proof.Machine
end

section
/-! Every step keeps the machine sound (10_state.md R21 to R30): the encoder's part, the H.261 reassembler's, and then
every command, every word and every step. -/

namespace Sys2Proof.Machine

variable {s t : State}

/-! ## The encoder -/

/-- The packer is sound, and the last packet was inside `PKT_CAP` (10_state.md R24, R32). -/
def EncoderSound (s : State) : Prop := Packer.Inv s.cfg s.bp ∧ s.enc.lastBytes.toNat ≤ s.cfg.pktCap

/-- A result word touches no part of the encoder. -/
theorem EncoderSound.emitCount (h : EncoderSound t) (c : ResultCode) (n : Nat) :
    EncoderSound (Machine.emitCount c n t) := h

/-- A command that writes the encoder alone keeps the machine sound where it keeps the encoder so. -/
theorem OnlyEncoder.inv (h : OnlyEncoder s t) (hs : State.Inv s) (ht : EncoderSound t) : State.Inv t := by
  obtain ⟨hp, he⟩ := ht
  have hcfg : t.cfg = s.cfg := by rw [h]
  rw [hcfg] at hp he
  obtain ⟨-, hjpeg, hh261, hflt, hpend, -⟩ := hs
  rw [h]
  exact ⟨hp, hjpeg, hh261, hflt, hpend, he⟩

/-- `send` leaves a sound, empty packer and records a packet inside `PKT_CAP` (40_bitpacker.md R115). -/
theorem send_sound {m : Bool} {nb : Nat} (h : EncoderSound s) (hs : send m s = .ok (nb, t)) :
    EncoderSound t ∧ t.bp.bitCount = 0 := by
  obtain ⟨bytes, q, he, -, -, hq, hfill, hcursor, -⟩ := send_spec (m := m) h.1
  cases hs.symm.trans he
  obtain ⟨-, -, -, hcap⟩ := byteCount_spec h.1
  refine ⟨⟨hq, ?_⟩, by simp [Packer.bitCount, hfill, hcursor]⟩
  calc (BitVec.ofNat 16 s.bp.byteCount).toNat
      ≤ s.bp.byteCount := by rw [BitVec.toNat_ofNat]; exact Nat.mod_le _ _
    _ ≤ s.cfg.pktCap := hcap

/-- A GOB header that fits keeps the encoder sound (41_framer.md R130). -/
theorem gobHdr_sound (h : EncoderSound s) (hroom : s.bp.bitCount + gobHdrBits ≤ s.cfg.limitBits)
    (hs : gobHdr s = .ok t) : EncoderSound t := by
  obtain ⟨q, hput, hq, -⟩ := putGobHdr_spec (epoch := s.epoch) s.enc.gobGn s.enc.gobGq h.1 hroom
  simp only [gobHdr, hput] at hs
  cases hs
  exact ⟨hq, h.2⟩

theorem openGob_sound {gn : BitVec 4} {gq : BitVec 5} (h : EncoderSound s)
    (hroom : s.bp.bitCount + gobHdrBits ≤ s.cfg.limitBits) (hs : openGob gn gq s = .ok t) : EncoderSound t :=
  gobHdr_sound (s := { s with enc := { s.enc with gobGn := gn, gobGq := gq, gobValid := true } }) h hroom hs

theorem reemit_sound (h : EncoderSound s) (hempty : s.bp.bitCount = 0)
    (hs : (if s.enc.gobValid then gobHdr s else .ok s) = .ok t) : EncoderSound t := by
  split at hs
  · exact gobHdr_sound h (gobHdr_fits_empty hempty) hs
  · cases hs; exact h

/-- Codes that fit keep the encoder sound (40_bitpacker.md R110, R113). -/
theorem putCodes_sound {cs : List (Word × Nat)} {q : Packer} (h : EncoderSound s) (hcs : ∀ c ∈ cs, c.2 ≤ 32)
    (hroom : s.bp.bitCount + codesLength cs ≤ s.cfg.limitBits) (hq : putCodes s.cfg cs s.bp = .ok q) :
    EncoderSound { s with bp := q } := by
  obtain ⟨q', hq', hinv, -⟩ := putCodes_spec (epoch := s.epoch) hcs h.1 hroom
  cases hq.symm.trans hq'
  exact ⟨hinv, h.2⟩

/-- Where the limit test does not fire, the bits fit (41_framer.md R135). -/
theorem fits_of_not_exceedsLimit {cfg : Config} {count n : Nat} (h : ¬ exceedsLimit cfg count n = true) :
    count + n ≤ cfg.limitBits := Nat.not_lt.1 (mt exceedsLimit_eq_true.2 h)

theorem execBpFlush_sound {m : Bool} (h : EncoderSound s) (hs : execBpFlush m s = .next t) : EncoderSound t := by
  unfold execBpFlush at hs
  split at hs
  · cases hs
  · next hsend => cases hs; exact (send_sound h hsend).1

theorem execEncBegin_sound (h : EncoderSound s) (hs : execEncBegin s = .next t) : EncoderSound t := by
  cases hs
  obtain ⟨⟨-, -, -, -, -, -, hwf, hin, -⟩, he⟩ := h
  exact ⟨fresh_inv hwf hin, he⟩

theorem execEncGob_sound {gn : BitVec 4} {gq : BitVec 5} (h : EncoderSound s) (hs : execEncGob gn gq s = .next t) :
    EncoderSound t := by
  unfold execEncGob at hs
  split at hs
  · split at hs
    · cases hs
    · next hsend =>
      obtain ⟨hu, hempty⟩ := send_sound h hsend
      split at hs
      · cases hs
      · next hopen => cases hs; exact (openGob_sound hu (gobHdr_fits_empty hempty) hopen).emitCount _ _
  · next hfits =>
    split at hs
    · cases hs
    · next hopen => cases hs; exact (openGob_sound h (fits_of_not_exceedsLimit hfits) hopen).emitCount _ _

theorem execEncMb_sound {nbits : BitVec 16} {data : List Word} (hd : data.length = wordsFor 32 nbits.toNat)
    (h : EncoderSound s) (hs : execEncMb nbits data s = .next t) : EncoderSound t := by
  unfold execEncMb at hs
  split at hs
  · split at hs
    · cases hs; exact h
    · split at hs
      · cases hs
      · next hsend =>
        obtain ⟨hu, hempty⟩ := send_sound h hsend
        split at hs
        · cases hs
        · next hre => cases hs; exact (reemit_sound hu hempty hre).emitCount _ _
  · next hfits =>
    obtain ⟨-, hlen, hcodes⟩ := codesBits_mb hd
    split at hs
    · cases hs
    · next hput =>
      cases hs
      exact (putCodes_sound h hcodes (by rw [hlen]; exact fits_of_not_exceedsLimit hfits) hput).emitCount _ _

/-! ## The fault state and the reset -/

/-- The fault codes are 1 to 5 (60_exceptions.md R240). -/
theorem faultCode_range (c : FaultCode) : 1 ≤ c.code.toNat ∧ c.code.toNat ≤ 5 := by cases c <;> decide

/-- Fault entry keeps the machine sound (60_exceptions.md R240, R241). -/
theorem raiseFault_inv (h : State.Inv s) (c : FaultCode) (hdr p0 : Word) : State.Inv (raiseFault c hdr p0 s) := by
  obtain ⟨hp, hj, hh, -, -, he⟩ := h
  exact ⟨hp, hj, hh, ⟨fun _ => ⟨rfl, faultCode_range c⟩, nofun⟩, rfl, he⟩

/-- The machine after a reset is sound, whatever it was (70_reset_and_hazards.md R270). -/
theorem performReset_inv (s : State) : State.Inv (performReset s) :=
  ⟨packerReset_inv s.cfg, jpegReset_inv s.cfg, h261_inv_of_closed rfl rfl, ⟨nofun, fun _ => rfl⟩, rfl, Nat.zero_le _⟩

/-- BP.PUT faults, or appends a code that fits (40_bitpacker.md R112). -/
theorem execBpPut_inv {n : BitVec 6} {v : Word} (hn : n.toNat ≤ 32) (h : State.Inv s)
    (hs : execBpPut n v s = .next t) : State.Inv t := by
  unfold execBpPut at hs
  split at hs
  · cases hs; exact raiseFault_inv h _ _ _
  · next hfits =>
    split at hs
    · cases hs
    · next q hput =>
      cases hs
      obtain ⟨hp, hrest⟩ := h
      exact ⟨(put_spec (epoch := s.epoch) hn hp (fits_of_not_exceedsLimit hfits) hput).1, hrest⟩

/-! ## The H.261 reassembler -/

/-- Completion closes the frame, handed out or void (43_h261_reassembler.md R197, R200). -/
theorem completeFrame_closed (idx : Nat) (last : RingPkt) (s : State) :
    (completeFrame idx last s).h261.ring = [] ∧ (completeFrame idx last s).h261.first = 0xFFFFFFFF := by
  obtain ⟨p0, ps, -, e⟩ | ⟨-, e⟩ := completeFrame_cases idx last s <;> rw [e] <;> exact ⟨rfl, rfl⟩

/-- A packet with a whole header leaves the ring sound, stored or past the ring's end (43_h261_reassembler.md R197 to
R199). -/
theorem acceptPacket_inv (m : Bool) {seq : BitVec 16} {hdr : Word} {payload : List Byte}
    (h : H261.Inv s.cfg s.h261) (hlen : payload.length ≤ s.cfg.params.maxPktBytes - 4) :
    H261.Inv s.cfg (acceptPacket m seq hdr payload s).h261 := by
  rw [acceptPacket_eq]
  split
  · next hidx =>
    cases m with
    | false => exact overflowed_inv (hdr := hdr) h hidx
    | true => exact h261_inv_of_closed rfl rfl
  · next hidx =>
    cases m with
    | false => exact stored_inv h (Nat.not_le.1 hidx) hlen
    | true =>
      obtain ⟨hring, hfirst⟩ := completeFrame_closed (ringIndex seq (firstAfter s seq))
        (ringPacket s seq hdr payload) { s with h261 := { openedRing s seq hdr with
          ring := tableSet (ringAfter s seq) (ringIndex seq (firstAfter s seq)) (ringPacket s seq hdr payload) } }
      exact h261_inv_of_closed hring hfirst

/-- H261.PKT keeps the reassembler sound. -/
theorem execH261Pkt_inv {m : Bool} {seq len : BitVec 16} {data : List Word}
    (hmax : len.toNat ≤ s.cfg.params.maxPktBytes) (h : H261.Inv s.cfg s.h261)
    (hs : execH261Pkt m seq len data s = .next t) : H261.Inv s.cfg t.h261 := by
  obtain rfl | ⟨hdr, payload, hlen, rfl⟩ := execH261Pkt_cases hs
  · exact h
  · exact acceptPacket_inv m h (by omega)

/-! ## Every command, every word, every step -/

theorem OnlyJpeg.inv (h : OnlyJpeg s t) (hs : State.Inv s) (ht : Jpeg.Inv s.cfg t.jpeg) : State.Inv t := by
  obtain ⟨hp, -, hrest⟩ := hs
  rw [h]
  exact ⟨hp, ht, hrest⟩

theorem OnlyH261.inv (h : OnlyH261 s t) (hs : State.Inv s) (ht : H261.Inv s.cfg t.h261) : State.Inv t := by
  obtain ⟨hp, hj, -, hrest⟩ := hs
  rw [h]
  exact ⟨hp, hj, ht, hrest⟩

/-- Every command the encoding can carry keeps the machine sound. -/
theorem exec_inv {i : Instr} (hw : i.wellFormed s.cfg.params.maxPktBytes = true) (h : State.Inv s)
    (hs : exec i s = .next t) : State.Inv t := by
  have ⟨hp, hj, hh, _, _, he⟩ := h
  have henc : EncoderSound s := ⟨hp, he⟩
  cases i with
  | nop => cases hs; exact h
  | srst => cases hs; exact performReset_inv s
  | bpPut n v => exact execBpPut_inv (by simpa [Instr.wellFormed] using hw) h hs
  | bpFlush m => exact (execBpFlush_outcome hs).1.inv h (execBpFlush_sound henc hs)
  | encBegin =>
    have honly : OnlyEncoder s t := by cases hs; rfl
    exact honly.inv h (execEncBegin_sound henc hs)
  | encGob gn gq => exact (execEncGob_outcome hs).1.inv h (execEncGob_sound henc hs)
  | encMb nbits data =>
    exact (execEncMb_outcome hs).1.inv h (execEncMb_sound (by simpa [Instr.wellFormed] using hw) henc hs)
  | jpegFrag m seq ts off len data =>
    exact (execJpegFrag_outcome hs).1.inv h (execJpegFrag_inv hj hs)
  | h261Pkt m seq len data =>
    exact (execH261Pkt_outcome hs).1.inv h (execH261Pkt_inv (wellFormed_h261Pkt.1 hw).1 hh hs)

/-- A word consumed in the fault state keeps the machine sound (30_encoding.md R95). -/
theorem discardNext_inv {w : Word} (h : State.Inv s) (hs : discardNext w s = .next t) : State.Inv t := by
  obtain ⟨-, e⟩ | ⟨-, e⟩ := discardNext_cases w s <;> rw [e] at hs
  · cases hs; exact h
  · exact exec_inv (s := { s with cp := s.cp + 1 }) rfl h hs

/-- A word consumed outside the fault state keeps the machine sound: it waits with the others as the front of a command,
or nothing is pending after it (30_encoding.md R88). -/
theorem decodeNext_inv {w : Word} (h : State.Inv s) (hf : s.flt.fault = false) (hs : decodeNext w s = .next t) :
    State.Inv t := by
  have ⟨hp, hj, hh, ⟨_, hclear⟩, _, he⟩ := h
  have hflt : ∀ pend, FaultRegs.Inv pend s.flt := fun _ =>
    ⟨fun hfault => (nomatch hf.symm.trans hfault), hclear⟩
  obtain ⟨hd, e⟩ | ⟨c, -, e⟩ | ⟨i, after, hd, e⟩ := decodeNext_cases w s <;> rw [e] at hs
  · cases hs; exact ⟨hp, hj, hh, hflt _, hd, he⟩
  · cases hs; exact raiseFault_inv (s := { s with cp := s.cp + 1 }) h _ _ _
  · exact exec_inv (s := { s with cp := s.cp + 1, pend := [] }) (decode_wellFormed hd)
      ⟨hp, hj, hh, hflt _, rfl, he⟩ hs

/-- Settles O26, by the action the step takes: an access at the CSR port changes no part of the state or resets it, and
a word keeps it sound in and outside the fault state. -/
theorem stepKeepsSound : Obligations.StepKeepsSound := by
  intro s t h hs
  obtain ⟨-, e⟩ | ⟨a, rest, -, e⟩ | ⟨a, v, rest, -, e⟩ | ⟨w, rest, -, ⟨-, e⟩ | ⟨hf, e⟩⟩ := step_cases s
  all_goals rw [e] at hs
  · cases hs; exact h
  · cases hs; exact h
  · cases hs
    obtain ⟨-, -, e⟩ | ⟨-, e⟩ := csrWrite_cases a v { s with input := rest } <;> rw [e]
    · exact performReset_inv _
    · exact h
  · exact discardNext_inv (s := { s with input := rest }) h hs
  · exact decodeNext_inv (s := { s with input := rest }) h hf hs

end Sys2Proof.Machine
end

section
/-! The four functions share no state (20_memory.md R60, R61; 60_exceptions.md R241): the part each command writes, put
together from the frames of the commands. -/

namespace Sys2Proof.Machine

variable {s t : State}

/-- BP.PUT faults, which writes the fault registers and drops the pending words, or appends its code, which writes the
packer; either way it answers (40_bitpacker.md R112; 60_exceptions.md R241). -/
theorem execBpPut_frame {n : BitVec 6} {v : Word} (h : execBpPut n v s = .next t) :
    t = { s with bp := t.bp, trace := t.trace, flt := t.flt, pend := t.pend } := by
  unfold execBpPut at h
  split at h
  · cases h; rfl
  · split at h
    · cases h
    · cases h; rfl

/-- Settles O21, by the part of the state each command writes: NOP, SRST and ENC.BEGIN each have one outcome, and the
other commands' frames are their lemmas'. -/
theorem commandsTouchTheirOwnState : Obligations.CommandsTouchTheirOwnState := by
  intro i s t h
  cases i with
  | nop => cases h; rfl
  | srst => cases h; exact ⟨rfl, rfl, rfl, rfl⟩
  | bpPut n v => exact execBpPut_frame h
  | bpFlush m => exact (execBpFlush_outcome h).1
  | encBegin => cases h; rfl
  | encGob gn gq => exact (execEncGob_outcome h).1
  | encMb nbits data => exact (execEncMb_outcome h).1
  | jpegFrag m seq ts off len data => exact (execJpegFrag_outcome h).1
  | h261Pkt m seq len data => exact (execH261Pkt_outcome h).1

end Sys2Proof.Machine
end

section
/-! The decoder's answers exactly (30_encoding.md R80 to R91): the words that decode to a command, the words that are
refused, and how many words a command has. -/

namespace Sys2Proof

variable {maxPkt : Nat} {h : Word} {op : Opcode}

/-- Settles O1: behind its header each command's argument words are read back. -/
theorem decodeOfEncode : Obligations.DecodeOfEncode := fun _ _ rest hw => decode_encode_append hw rest

/-! The number of words (30_encoding.md R87). -/

theorem wordsFor_thirtyTwo (n : Nat) : wordsFor 32 n = (n + 31) / 32 := rfl

theorem wordsFor_four (n : Nat) : wordsFor 4 n = (n + 3) / 4 := rfl

/-- Settles O3: the argument words of each constructor counted, and every proper front waited on. -/
theorem commandLengthAndWaiting : Obligations.CommandLengthAndWaiting := by
  intro maxPkt i hw
  refine ⟨?_, fun k hk => decode_front hw (List.take_append_drop k _) ?_⟩
  · cases i with
    | nop | srst | bpPut | bpFlush | encBegin | encGob => rfl
    | encMb nbits data =>
      have hdata : data.length = wordsFor 32 nbits.toNat := by simpa [Instr.wellFormed] using hw
      simp [encode, Instr.args, hdata, wordsFor_thirtyTwo, Nat.add_comm]
    | jpegFrag m seq ts off len data =>
      simp [encode, Instr.args, (wellFormed_jpegFrag.1 hw).2, wordsFor_four]
      omega
    | h261Pkt m seq len data =>
      simp [encode, Instr.args, (wellFormed_h261Pkt.1 hw).2, wordsFor_four]
      omega
  · exact List.ne_nil_of_length_pos (by rw [List.length_drop]; omega)

/-- Words that are a well-formed command's encoding decode to it. -/
theorem decode_of_encode_eq {i : Instr} {ws : List Word} (hw : i.wellFormed maxPkt = true) (he : encode i = ws) :
    decode maxPkt ws = .cmd i [] := by
  rw [← he, ← List.append_nil (encode i)]
  exact decode_encode_append hw []

/-- Settles O4: each sample is the encoding of its command. -/
theorem sampleWordsDecode : Obligations.SampleWordsDecode :=
  ⟨decode_of_encode_eq rfl rfl, decode_of_encode_eq rfl rfl, decode_of_encode_eq rfl rfl, decode_of_encode_eq rfl rfl,
    decode_of_encode_eq rfl rfl, decode_of_encode_eq rfl rfl, decode_of_encode_eq rfl rfl, decode_of_encode_eq rfl rfl⟩

/-! The reserved bits of each format are one range of bits (30_encoding.md R82). -/

/-- The lowest reserved bit of a format. -/
def Format.reservedLow : Format → Nat
  | .f0 | .ff => 0
  | .fp => 6
  | .fg => 9
  | .fm | .fs => 16

/-- The number of reserved bits of a format. -/
def Format.reservedWidth : Format → Nat
  | .f0 => 24
  | .fp => 18
  | .ff => 23
  | .fg => 15
  | .fm => 8
  | .fs => 7

theorem getLsbD_reserved (f : Format) (k : Nat) :
    f.reserved.getLsbD k = decide (f.reservedLow ≤ k ∧ k < f.reservedLow + f.reservedWidth) := by
  by_cases hk : k < 32
  · have all : ∀ j : Fin 32, f.reserved.getLsbD j =
        decide (f.reservedLow ≤ j.1 ∧ j.1 < f.reservedLow + f.reservedWidth) := by cases f <;> decide
    exact all ⟨k, hk⟩
  · have hmax : f.reservedLow + f.reservedWidth ≤ 32 := by cases f <;> decide
    rw [BitVec.getLsbD_of_ge _ _ (Nat.not_lt.1 hk)]
    exact (decide_eq_false (by omega)).symm

/-- The reserved bits are clear exactly where their field is 0 (30_encoding.md R82, R89). -/
theorem reserved_eq_zero_iff {f : Format} :
    h &&& f.reserved = 0 ↔ h.extractLsb' f.reservedLow f.reservedWidth = 0 := by
  rw [reserved_clear_iff]
  constructor
  · intro hclear
    refine BitVec.eq_of_getLsbD_eq fun k hk => ?_
    have := hclear (f.reservedLow + k) (by rw [getLsbD_reserved]; exact decide_eq_true (by omega))
    simp [hk, this]
  · intro hzero k hk
    rw [getLsbD_reserved, decide_eq_true_eq] at hk
    have := congrArg (·.getLsbD (k - f.reservedLow)) hzero
    simpa [show k - f.reservedLow < f.reservedWidth by omega, show f.reservedLow + (k - f.reservedLow) = k by omega]
      using this

/-! A checked header word is the one its fields make (30_encoding.md R82, R89). -/

/-- A checked word is the header word of 24 field bits which are 0 at the reserved bits and the word's own elsewhere. -/
theorem headerWord_of_fields {g : BitVec 24} (hf : headerFault h = none) (ho : opcodeOf h = some op)
    (hg : ∀ k < 24, g.getLsbD k = (!op.format.reserved.getLsbD k && h.getLsbD k)) : headerWord op g = h := by
  have hclear := reserved_clear_iff.1 (reserved_of_headerFault hf ho)
  have hfields : h.setWidth 24 = g := by
    refine BitVec.eq_of_getLsbD_eq fun k hk => ?_
    rw [hg k hk, BitVec.getLsbD_setWidth, decide_eq_true hk]
    cases hr : op.format.reserved.getLsbD k with
    | true => simp [hclear k hr]
    | false => simp
  rw [← hfields]
  exact (eq_headerWord_of_opcodeOf ho).symm

theorem headerWord_zero (hf : headerFault h = none) (ho : opcodeOf h = some op) (hfmt : op.format = .f0) :
    headerWord op 0 = h :=
  headerWord_of_fields hf ho fun k hk => by
    simp [hfmt, getLsbD_reserved, Format.reservedLow, Format.reservedWidth, hk]

theorem headerWord_fieldN (hf : headerFault h = none) (ho : opcodeOf h = some op) (hfmt : op.format = .fp) :
    headerWord op (0#18 ++ fieldN h) = h :=
  headerWord_of_fields hf ho fun k hk => by
    rw [hfmt, getLsbD_reserved, getLsbD_nFields]
    simp only [Format.reservedLow, Format.reservedWidth, fieldN, BitVec.getLsbD_extractLsb', Nat.zero_add]
    by_cases h6 : k < 6
    · simp [h6, show ¬ 6 ≤ k by omega]
    · simp [h6, hk, Nat.not_lt.1 h6]

theorem headerWord_fieldM (hf : headerFault h = none) (ho : opcodeOf h = some op) (hfmt : op.format = .ff) :
    headerWord op (BitVec.ofBool (fieldM h) ++ 0#23) = h :=
  headerWord_of_fields hf ho fun k hk => by
    rw [hfmt, getLsbD_reserved, getLsbD_mFields]
    simp only [Format.reservedLow, Format.reservedWidth, fieldM]
    by_cases h23 : k = 23
    · simp [h23]
    · simp [h23, show k < 23 by omega]

theorem headerWord_fieldGnGq (hf : headerFault h = none) (ho : opcodeOf h = some op) (hfmt : op.format = .fg) :
    headerWord op (0#15 ++ (fieldGq h ++ fieldGn h)) = h :=
  headerWord_of_fields hf ho fun k hk => by
    rw [hfmt, getLsbD_reserved, getLsbD_gobFields]
    simp only [Format.reservedLow, Format.reservedWidth, fieldGn, fieldGq, BitVec.getLsbD_extractLsb', Nat.zero_add]
    by_cases h4 : k < 4
    · simp [h4, show ¬ 9 ≤ k by omega]
    · by_cases h9 : k < 9
      · simp [h4, h9, show k - 4 < 5 by omega, show 4 + (k - 4) = k by omega, show ¬ 9 ≤ k by omega]
      · simp [h4, h9, hk, Nat.not_lt.1 h9]

theorem headerWord_fieldNbits (hf : headerFault h = none) (ho : opcodeOf h = some op) (hfmt : op.format = .fm) :
    headerWord op (fieldsM16 false (fieldLow16 h)) = h :=
  headerWord_of_fields hf ho fun k hk => by
    rw [hfmt, getLsbD_reserved, getLsbD_fieldsM16]
    simp only [Format.reservedLow, Format.reservedWidth, fieldLow16, BitVec.getLsbD_extractLsb', Nat.zero_add]
    by_cases h16 : k < 16
    · simp [h16, show ¬ 16 ≤ k by omega]
    · simp [h16, hk, Nat.not_lt.1 h16]

theorem headerWord_fieldMSeq (hf : headerFault h = none) (ho : opcodeOf h = some op) (hfmt : op.format = .fs) :
    headerWord op (fieldsM16 (fieldM h) (fieldLow16 h)) = h :=
  headerWord_of_fields hf ho fun k hk => by
    rw [hfmt, getLsbD_reserved, getLsbD_fieldsM16]
    simp only [Format.reservedLow, Format.reservedWidth, fieldM, fieldLow16, BitVec.getLsbD_extractLsb', Nat.zero_add]
    by_cases h16 : k < 16
    · simp [h16, show ¬ 16 ≤ k by omega]
    · by_cases h23 : k = 23
      · simp [h23]
      · simp [h16, h23, show k < 23 by omega, Nat.not_lt.1 h16]

/-! The words that decode to a command (30_encoding.md R80, R88). -/

/-- Words that give a command behind a checked header are, with that header, the command's words and what follows. -/
theorem encode_of_decodeArgs {ws rest : List Word} {i : Instr} (hf : headerFault h = none) (ho : opcodeOf h = some op)
    (hd : decodeArgs maxPkt op h ws = .cmd i rest) : h :: ws = encode i ++ rest := by
  have words (hh : i.header = h) (ha : i.args ++ rest = ws) : h :: ws = encode i ++ rest := by
    rw [encode, hh, List.cons_append, ha]
  cases op with
  | nop | srst | encBegin => cases hd; exact words (headerWord_zero hf ho rfl) rfl
  | bpPut =>
    cases ws with
    | nil => cases hd
    | cons v ws => cases hd; exact words (headerWord_fieldN hf ho rfl) rfl
  | bpFlush => cases hd; exact words (headerWord_fieldM hf ho rfl) rfl
  | encGob => cases hd; exact words (headerWord_fieldGnGq hf ho rfl) rfl
  | encMb =>
    obtain ⟨-, rfl, rfl⟩ := takeData_eq_cmd.1 hd
    exact words (headerWord_fieldNbits hf ho rfl) (List.take_append_drop _ _)
  | jpegFrag | h261Pkt =>
    simp only [decodeArgs] at hd
    split at hd
    · split at hd
      · cases hd
      · next hl =>
        obtain ⟨-, rfl, rfl⟩ := takeData_eq_cmd.1 hd
        refine words (headerWord_fieldMSeq hf ho rfl) ?_
        simp only [Instr.args, ← eq_lenWord (lenwFault_eq_none.1 hl).1, List.cons_append, List.take_append_drop]
    · cases hd

/-- Settles O2: the header word is the one its fields make, and the words behind it are the command's own. -/
theorem encodeOfDecode : Obligations.EncodeOfDecode := by
  intro maxPkt ws i rest hd
  refine ⟨?_, decode_wellFormed hd⟩
  unfold decode at hd
  split at hd
  · cases hd
  · split at hd
    · cases hd
    · next hf =>
      split at hd
      · cases hd
      · next op ho => exact encode_of_decodeArgs hf ho hd

/-! The header words the decoder refuses (30_encoding.md R81, R82, R89 to R91; 60_exceptions.md R243). -/

/-- A word has a mapped opcode exactly where its top byte is that opcode's code (30_encoding.md R81). -/
theorem opcodeOf_eq_some : opcodeOf h = some op ↔ h.extractLsb' 24 8 = op.code := by
  refine ⟨code_of_opcodeOf, fun hc => ?_⟩
  cases op <;> simp [opcodeOf, hc, opcodeMap, Opcode.code]

theorem headerFault_eq_illegalOpcode : headerFault h = some .illegalOpcode ↔ opcodeOf h = none := by
  unfold headerFault
  cases opcodeOf h with
  | none => simp
  | some op => simp only; split_ifs <;> simp

theorem headerFault_eq_reservedNonzero :
    headerFault h = some .reservedNonzero ↔ ∃ op, opcodeOf h = some op ∧ h &&& op.format.reserved ≠ 0 := by
  unfold headerFault
  cases opcodeOf h with
  | none => simp
  | some op => simp only; split_ifs <;> simp_all

theorem headerFault_eq_badNbits :
    headerFault h = some .badNbits ↔
      opcodeOf h = some .bpPut ∧ h &&& Format.fp.reserved = 0 ∧ 32 < (fieldN h).toNat := by
  unfold headerFault
  cases opcodeOf h with
  | none => simp
  | some op =>
    simp only
    split_ifs with hres hput
    · refine ⟨nofun, fun ⟨ho, hzero, _⟩ => ?_⟩
      cases Option.some.inj ho
      exact absurd hzero hres
    · obtain ⟨rfl, hn⟩ := hput
      exact ⟨fun _ => ⟨rfl, not_not.1 hres, hn⟩, fun _ => rfl⟩
    · exact ⟨nofun, fun ⟨ho, _, hn⟩ => absurd ⟨Option.some.inj ho, hn⟩ hput⟩

/-- A header word that passes the checks has a mapped opcode. -/
theorem opcodeOf_of_headerFault (hf : headerFault h = none) : ∃ op, opcodeOf h = some op := by
  refine Option.ne_none_iff_exists'.1 fun ho => ?_
  rw [headerFault_eq_illegalOpcode.2 ho] at hf
  cases hf

/-- A refused header word is refused whatever follows it (30_encoding.md R88). -/
theorem decode_of_headerFault {c : FaultCode} (hf : headerFault h = some c) (ws : List Word) :
    decode maxPkt (h :: ws) = .bad c := by
  simp only [decode, hf]

/-- Behind a header word alone nothing is refused: the LENW word is not there yet. -/
theorem decodeArgs_nil_ne_bad (maxPkt : Nat) (op : Opcode) (h : Word) (c : FaultCode) :
    decodeArgs maxPkt op h [] ≠ .bad c := by
  cases op with
  | encMb =>
    simp only [decodeArgs, takeData]
    split <;> exact nofun
  | nop | srst | bpPut | bpFlush | encBegin | encGob | jpegFrag | h261Pkt => exact nofun

/-- A header word alone is refused exactly with the fault its checks find. -/
theorem decode_header_eq_bad {c : FaultCode} : decode maxPkt [h] = .bad c ↔ headerFault h = some c := by
  refine ⟨fun hd => ?_, fun hf => decode_of_headerFault hf []⟩
  cases hf : headerFault h with
  | some c' =>
    rw [decode_of_headerFault hf] at hd
    cases hd
    rfl
  | none =>
    obtain ⟨op, ho⟩ := opcodeOf_of_headerFault hf
    rw [decode_cons hf ho] at hd
    exact absurd hd (decodeArgs_nil_ne_bad _ _ _ _)

/-- The codes of the opcode map, as numbers (30_encoding.md R81). -/
theorem mem_opcodes_iff {b : BitVec 8} :
    b ∈ [(0x00 : BitVec 8), 0x01, 0x10, 0x11, 0x12, 0x13, 0x14, 0x20, 0x30] ↔ ∃ op : Opcode, b = op.code := by
  constructor
  · intro hb
    obtain ⟨op, -, ho⟩ := List.mem_map.1 (show b ∈ opcodeMap.map Opcode.code from hb)
    exact ⟨op, ho.symm⟩
  · rintro ⟨op, rfl⟩
    cases op <;> decide

/-- Settles O5: a header word alone is refused by the header's checks, and those read the opcode's byte, the reserved
range of its format, and `N`. -/
theorem headerWordsRefused : Obligations.HeaderWordsRefused := by
  intro maxPkt h
  simp only [decode_header_eq_bad]
  refine ⟨?_, ?_, ?_, fun c ws hf => decode_of_headerFault hf ws⟩
  · rw [headerFault_eq_illegalOpcode, opcodeOf_eq_none, mem_opcodes_iff, not_exists]
  · simp only [headerFault_eq_reservedNonzero, opcodeOf_eq_some, ne_eq, reserved_eq_zero_iff]
    constructor
    · rintro ⟨op, hc, hres⟩
      cases op with
      | nop | srst | encBegin => exact .inl ⟨hc ▸ by decide, hres⟩
      | bpPut => exact .inr (.inl ⟨hc, hres⟩)
      | bpFlush => exact .inr (.inr (.inl ⟨hc, hres⟩))
      | encGob => exact .inr (.inr (.inr (.inl ⟨hc, hres⟩)))
      | encMb => exact .inr (.inr (.inr (.inr (.inl ⟨hc, hres⟩))))
      | jpegFrag | h261Pkt => exact .inr (.inr (.inr (.inr (.inr ⟨hc ▸ by decide, hres⟩))))
    · simp only [List.mem_cons, List.not_mem_nil, or_false]
      rintro (⟨hc | hc | hc, hres⟩ | ⟨hc, hres⟩ | ⟨hc, hres⟩ | ⟨hc, hres⟩ | ⟨hc, hres⟩ | ⟨hc | hc, hres⟩)
      · exact ⟨.nop, hc, hres⟩
      · exact ⟨.srst, hc, hres⟩
      · exact ⟨.encBegin, hc, hres⟩
      · exact ⟨.bpPut, hc, hres⟩
      · exact ⟨.bpFlush, hc, hres⟩
      · exact ⟨.encGob, hc, hres⟩
      · exact ⟨.encMb, hc, hres⟩
      · exact ⟨.jpegFrag, hc, hres⟩
      · exact ⟨.h261Pkt, hc, hres⟩
  · rw [headerFault_eq_badNbits, opcodeOf_eq_some, reserved_eq_zero_iff]
    rfl

/-! The LENW words the decoder refuses (30_encoding.md R83, R88, R91; 60_exceptions.md R243). -/

theorem lenwFault_eq_reservedNonzero {lw : Word} :
    lenwFault maxPkt lw = some .reservedNonzero ↔ lw.extractLsb' 16 16 ≠ 0 := by
  unfold lenwFault
  split_ifs <;> simp_all

theorem lenwFault_eq_badLength {lw : Word} :
    lenwFault maxPkt lw = some .badLength ↔ lw.extractLsb' 16 16 = 0 ∧ maxPkt < (fieldLow16 lw).toNat := by
  unfold lenwFault
  split_ifs <;> simp_all

/-- `front` holds the words before LENW of a packet command whose header passes the checks: the decoder waits on it,
refuses the LENW word as its checks say, and behind a good one takes the data words, unchecked. -/
structure ReadsLenw (maxPkt : Nat) (front : List Word) : Prop where
  waits : decode maxPkt front = .more
  refuses {lw : Word} {c : FaultCode} (hl : lenwFault maxPkt lw = some c) (ws : List Word) :
    decode maxPkt (front ++ lw :: ws) = .bad c
  takes {lw : Word} (hl : lenwFault maxPkt lw = none) :
    ∃ make, ∀ ws, decode maxPkt (front ++ lw :: ws) = takeData (wordsFor 4 (fieldLow16 lw).toNat) ws make

theorem readsLenw_jpegFrag (hf : headerFault h = none) (ho : opcodeOf h = some .jpegFrag) (ts off : Word) :
    ReadsLenw maxPkt [h, ts, off] where
  waits := decode_cons hf ho _
  refuses hl ws := by
    simp only [List.cons_append, List.nil_append, decode_cons hf ho, decodeArgs, hl]
  takes {lw} hl := ⟨.jpegFrag (fieldM h) (fieldLow16 h) ts off (fieldLow16 lw), fun ws => by
    simp only [List.cons_append, List.nil_append, decode_cons hf ho, decodeArgs, hl]⟩

theorem readsLenw_h261Pkt (hf : headerFault h = none) (ho : opcodeOf h = some .h261Pkt) :
    ReadsLenw maxPkt [h] where
  waits := decode_cons hf ho _
  refuses hl ws := by
    simp only [List.cons_append, List.nil_append, decode_cons hf ho, decodeArgs, hl]
  takes {lw} hl := ⟨.h261Pkt (fieldM h) (fieldLow16 h) (fieldLow16 lw), fun ws => by
    simp only [List.cons_append, List.nil_append, decode_cons hf ho, decodeArgs, hl]⟩

/-- The LENW word is refused exactly with the fault its checks find. -/
theorem ReadsLenw.eq_bad {front : List Word} (hr : ReadsLenw maxPkt front) {lw : Word} {c : FaultCode} :
    decode maxPkt (front ++ [lw]) = .bad c ↔ lenwFault maxPkt lw = some c := by
  refine ⟨fun hd => ?_, fun hl => hr.refuses hl []⟩
  cases hl : lenwFault maxPkt lw with
  | some c' =>
    rw [hr.refuses hl []] at hd
    cases hd
    rfl
  | none =>
    obtain ⟨make, htakes⟩ := hr.takes hl
    rw [htakes, takeData] at hd
    split at hd <;> cases hd

/-- Settles O6: the words in front of LENW are waited on and LENW is checked; behind it the data words are counted. -/
theorem lenwWordsRefused : Obligations.LenwWordsRefused := by
  intro maxPkt h ts off lw front hmore hfront
  have hf : headerFault h = none := Option.eq_none_iff_forall_ne_some.2 fun c hc => by
    rw [decode_of_headerFault hc] at hmore
    cases hmore
  have hr : ReadsLenw maxPkt front := by
    obtain ⟨hc, rfl⟩ | ⟨hc, rfl⟩ := hfront
    · exact readsLenw_jpegFrag hf (opcodeOf_eq_some.2 hc) ts off
    · exact readsLenw_h261Pkt hf (opcodeOf_eq_some.2 hc)
  refine ⟨hr.waits, hr.eq_bad.trans lenwFault_eq_reservedNonzero, hr.eq_bad.trans lenwFault_eq_badLength,
    fun ws hzero hlen => ?_⟩
  obtain ⟨make, htakes⟩ := hr.takes (lenwFault_eq_none.2 ⟨hzero, hlen⟩)
  rw [htakes]
  exact ⟨fun hfew => takeData_of_lt hfew make, fun henough => ⟨_, takeData_eq_cmd.2 ⟨henough, rfl, rfl⟩⟩⟩

end Sys2Proof
end

section
/-! What a command does not read of its words, and what the encoder appends of them (30_encoding.md R84, R85, R97;
40_bitpacker.md R110, R112; 41_framer.md R137). -/

namespace Sys2Proof.Machine

variable {s : State}

/-! The bits and bytes that count (30_encoding.md R84, R85, R89). -/

/-- `put` reads the low `n` bits of the code alone (40_bitpacker.md R110). -/
theorem put_congr {v v' : Word} {n : Nat} (h : ∀ k < n, v.getLsbD k = v'.getLsbD k) (cfg : Config) (p : Packer) :
    put cfg v n p = put cfg v' n p := by
  have hkeep : keepBits n (v.setWidth 64) = keepBits n (v'.setWidth 64) := by
    refine BitVec.eq_of_getLsbD_eq fun k hk => ?_
    rw [getLsbD_keepBits, getLsbD_keepBits]
    by_cases hn : k < n
    · simp [h k hn]
    · simp [hn]
  simp only [put, hkeep]

/-- The codes of a macroblock hold the `n` bits of its bit string alone (30_encoding.md R85). -/
theorem mbCodes_congr {n : Nat} {d d' : List Word} (hlen : d.length = d'.length)
    (h : ∀ k < n, (d.getD (k / 32) 0).getLsbD (31 - k % 32) = (d'.getD (k / 32) 0).getLsbD (31 - k % 32)) :
    mbCodes n d = mbCodes n d' := by
  induction d generalizing n d' with
  | nil => rw [List.length_eq_zero_iff.1 hlen.symm]
  | cons w ws ih =>
    obtain _ | ⟨w', ws'⟩ := d'
    · cases hlen
    · have hword : w >>> (32 - min 32 n) = w' >>> (32 - min 32 n) := by
        refine BitVec.eq_of_getLsbD_eq fun k _ => ?_
        rw [BitVec.getLsbD_ushiftRight, BitVec.getLsbD_ushiftRight]
        by_cases hk : 32 - min 32 n + k < 32
        · have := h (31 - (32 - min 32 n + k)) (by omega)
          rwa [show (31 - (32 - min 32 n + k)) / 32 = 0 by omega,
            show 31 - (31 - (32 - min 32 n + k)) % 32 = 32 - min 32 n + k by omega] at this
        · rw [BitVec.getLsbD_of_ge _ _ (Nat.not_lt.1 hk), BitVec.getLsbD_of_ge _ _ (Nat.not_lt.1 hk)]
      have hrest : mbCodes (n - 32) ws = mbCodes (n - 32) ws' := by
        refine ih (Nat.succ.inj hlen) fun k hk => ?_
        have := h (k + 32) (by omega)
        rwa [show (k + 32) / 32 = k / 32 + 1 by omega, show (k + 32) % 32 = k % 32 by omega] at this
      simp only [mbCodes, hword, hrest]

/-- Byte `k` of the data words is byte `k % 4` of word `k / 4`, most significant first (30_encoding.md R84;
20_memory.md R62). -/
theorem getElem?_flatMap_wordBytes {d : List Word} {k : Nat} (hk : k / 4 < d.length) :
    (d.flatMap wordBytes)[k]? = some ((d.getD (k / 4) 0).extractLsb' (24 - 8 * (k % 4)) 8) := by
  induction d generalizing k with
  | nil => exact absurd hk (Nat.not_lt_zero _)
  | cons w ws ih =>
    match k with
    | 0 | 1 | 2 | 3 => rfl
    | k + 4 =>
      have hnext : (k + 4) / 4 = k / 4 + 1 := by omega
      have := ih (k := k) (by simpa [hnext] using hk)
      rw [hnext, Nat.add_mod_right]
      exact this

/-- The payload is the first `LEN` bytes of the data words alone (30_encoding.md R84). -/
theorem payloadBytes_congr {len : BitVec 16} {d d' : List Word} (hd : d.length = wordsFor 4 len.toNat)
    (hd' : d'.length = wordsFor 4 len.toNat)
    (h : ∀ k < len.toNat, (d.getD (k / 4) 0).extractLsb' (24 - 8 * (k % 4)) 8 =
      (d'.getD (k / 4) 0).extractLsb' (24 - 8 * (k % 4)) 8) :
    payloadBytes len d = payloadBytes len d' := by
  refine List.ext_getElem? fun k => ?_
  unfold payloadBytes
  rw [List.getElem?_take, List.getElem?_take]
  split
  · next hk =>
    have hword : k / 4 < wordsFor 4 len.toNat := by rw [wordsFor_four]; omega
    rw [getElem?_flatMap_wordBytes (hd ▸ hword), getElem?_flatMap_wordBytes (hd' ▸ hword), h k hk]
  · rfl

/-- Settles O7: each command hands its operation the bits or bytes that count, and its header no others. -/
theorem paddingHasNoEffect : Obligations.PaddingHasNoEffect := by
  intro s
  refine ⟨fun n v v' h => ?_, fun n d d' hd hd' h => ?_, fun m seq len ts off d d' hd hd' h => ?_⟩
  · show execBpPut n v s = execBpPut n v' s
    have hheader : (Instr.bpPut n v).header = (Instr.bpPut n v').header := rfl
    simp only [execBpPut, put_congr h, hheader]
  · show execEncMb n d s = execEncMb n d' s
    simp only [execEncMb, mbCodes_congr (hd.trans hd'.symm) h]
  · show execJpegFrag m seq ts off len d s = execJpegFrag m seq ts off len d' s ∧
      execH261Pkt m seq len d s = execH261Pkt m seq len d' s
    simp only [execJpegFrag, execH261Pkt, payloadBytes_congr hd hd' h, and_self]

/-! The encoder's appends (40_bitpacker.md R112; 41_framer.md R135, R137). -/

/-- A code that ends at the limit at most does not exceed it (41_framer.md R135). -/
theorem exceedsLimit_of_fits {cfg : Config} {count n : Nat} (h : count + n ≤ cfg.limitBits) :
    exceedsLimit cfg count n = false := decide_eq_false (Nat.not_lt.2 h)

/-- Settles O35: the codes of the macroblock are its bit string, and the packer has room for them. -/
theorem encMbAppendsMacroblock : Obligations.EncMbAppendsMacroblock := by
  intro n d s hd hp hroom
  obtain ⟨hbits, hlen, hcodes⟩ := codesBits_mb (n := n.toNat) (data := d) hd
  obtain ⟨q, hput, -, hcount, hqbits, -, hframe⟩ :=
    putCodes_spec (epoch := s.epoch) hcodes hp (by rwa [hlen])
  rw [hlen] at hcount hframe
  rw [hbits] at hqbits
  refine ⟨q, ?_, hcount, hqbits, hframe⟩
  show execEncMb n d s = _
  simp only [execEncMb, exceedsLimit_of_fits hroom, hput, ← hcount]
  rfl

/-- BP.PUT delivered where the code fits: its bits follow the packet's bits, and of the rest of the state only `cp`,
by its two words, and the trace move (40_bitpacker.md R110, R112). -/
theorem deliver_bpPut_of_fits {n : BitVec 6} (hn : n.toNat ≤ 32) (v : Word) (hp : Packer.Inv s.cfg s.bp)
    (hroom : s.bp.bitCount + n.toNat ≤ s.cfg.limitBits) :
    ∃ t, deliver (.bpPut n v) s = .next t ∧ t = { s with cp := s.cp + 2, bp := t.bp, trace := t.trace } ∧
      Packer.Inv s.cfg t.bp ∧ t.bp.bitCount = s.bp.bitCount + n.toNat ∧
      t.bp.bits s.cfg s.epoch = s.bp.bits s.cfg s.epoch ++ codeBits v n.toNat := by
  obtain ⟨q, hput⟩ := put_ok (v := v) hroom
  obtain ⟨hq, hcount, hbits, -⟩ := put_spec (epoch := s.epoch) hn hp hroom hput
  refine ⟨emitCount .ok q.bitCount { s with cp := s.cp + 2, bp := q }, ?_, rfl, hq, hcount, hbits⟩
  show execBpPut n v { s with cp := s.cp + 2 } = _
  simp only [execBpPut, exceedsLimit_of_fits hroom, hput]
  rfl

/-- A 64-bit value's low `n + 32` bits are `n` bits of its high word and its whole low word (30_encoding.md R97). -/
theorem codeBits_halves {n : Nat} (hn : n ≤ 32) (v : BitVec 64) :
    codeBits (v.extractLsb' 32 32) n ++ codeBits (v.extractLsb' 0 32) 32 =
      (List.range (n + 32)).map fun k => v.getLsbD (n + 32 - 1 - k) := by
  rw [List.range_add, List.map_append, List.map_map]
  congr 1
  · refine List.map_congr_left fun k hk => ?_
    have hk := List.mem_range.1 hk
    simp [show n - 1 - k < 32 by omega, show 32 + (n - 1 - k) = n + 32 - 1 - k by omega]
  · refine List.map_congr_left fun k hk => ?_
    have hk := List.mem_range.1 hk
    simp [show 31 - k < 32 by omega, show n + 31 - (n + k) = 31 - k by omega]

/-- Settles O8: the two BP.PUT commands, one after the other, append the two halves. -/
theorem put64AppendsItsBits : Obligations.Put64AppendsItsBits := by
  intro n v s hn hn' hp hroom
  obtain ⟨m, rfl⟩ : ∃ m, n = m + 32 := ⟨n - 32, by omega⟩
  have hm : (BitVec.ofNat 6 m).toNat = m := by rw [BitVec.toNat_ofNat]; omega
  obtain ⟨t, hfirst, ht, htinv, htcount, htbits⟩ := deliver_bpPut_of_fits (n := BitVec.ofNat 6 m) (by omega)
    (v.extractLsb' 32 32) hp (by omega)
  have hcfg : t.cfg = s.cfg := by rw [ht]
  have hepoch : t.epoch = s.epoch := by rw [ht]
  rw [hm] at htcount htbits
  rw [← hcfg] at htinv hroom
  obtain ⟨u, hsecond, hu, -, hucount, hubits⟩ := deliver_bpPut_of_fits (n := 32) (Nat.le_refl _)
    (v.extractLsb' 0 32) htinv (by rw [htcount]; exact Nat.add_assoc _ m 32 ▸ hroom)
  have hframe : u = { s with cp := s.cp + 4, bp := u.bp, trace := u.trace } := by
    rw [ht, BitVec.add_assoc] at hu
    exact hu
  have hucfg : u.cfg = s.cfg := by rw [hframe]
  have huepoch : u.epoch = s.epoch := by rw [hframe]
  refine ⟨u, ?_, ?_, ?_, hframe⟩
  · rw [pseudoBpPut64, Nat.add_sub_cancel]
    simp only [deliverAll, andThen, hfirst, hsecond]
  · rw [hcfg, hepoch, htbits, List.append_assoc] at hubits
    rw [hucfg, huepoch, hubits, ← codeBits_halves (by omega)]
    rfl
  · rw [hucount, htcount, Nat.add_assoc]
    rfl

end Sys2Proof.Machine
end

section
/-! How the fault state is entered and left (30_encoding.md R95; 60_exceptions.md R240 to R245). -/

namespace Sys2Proof.Machine

variable {s t : State} {w : Word} {rest : List HostAction}

/-- In the fault state a step takes the next word to be discarded, SRST apart (30_encoding.md R95). -/
theorem step_word_faulted (hf : s.flt.fault = true) (hi : s.input = .word w :: rest) :
    step s = discardNext w { s with input := rest } := by
  simp only [step, takeAction, hi, consumeWord, hf, if_true]

/-- Settles O12, by whether the word is SRST's header. -/
theorem faultStateDiscardsWords : Obligations.FaultStateDiscardsWords := by
  intro s w rest hf hi
  rw [step_word_faulted hf hi]
  obtain ⟨hw, e⟩ | ⟨hw, e⟩ := discardNext_cases w { s with input := rest }
  · exact ⟨fun _ => e, fun h => absurd h hw⟩
  · exact ⟨fun h => absurd hw h, fun _ => e⟩

/-- Settles O13, by the action the step takes: the SRST word and a resetting write clear the fault registers, and
nothing else touches them or what they hold still. -/
theorem faultLeftOnlyByReset : Obligations.FaultLeftOnlyByReset := by
  intro s t hf h
  obtain ⟨-, e⟩ | ⟨a, rest, -, e⟩ | ⟨a, v, rest, hi, e⟩ | ⟨w, rest, hi, ⟨-, e⟩ | ⟨hrun, -⟩⟩ := step_cases s
  · rw [e] at h
    cases h
    exact .inl ⟨rfl, rfl, rfl, rfl, rfl, rfl, rfl⟩
  · rw [e] at h
    cases h
    exact .inl ⟨rfl, rfl, rfl, rfl, rfl, rfl, rfl⟩
  · rw [e] at h
    cases h
    obtain ⟨rfl, hv, e⟩ | ⟨-, e⟩ := csrWrite_cases a v { s with input := rest } <;> rw [e]
    · exact .inr ⟨rfl, .inr ⟨v, rest, hi, hv⟩⟩
    · exact .inl ⟨rfl, rfl, rfl, rfl, rfl, rfl, rfl⟩
  · rw [e] at h
    obtain ⟨-, e⟩ | ⟨rfl, e⟩ := discardNext_cases w { s with input := rest } <;> rw [e] at h <;> cases h
    · exact .inl ⟨rfl, rfl, rfl, rfl, rfl, rfl, rfl⟩
    · exact .inr ⟨rfl, .inl ⟨rest, hi⟩⟩
  · exact absurd (hrun.symm.trans hf) nofun

/-- A BP.PUT that leaves the fault state entered found no room for its code (40_bitpacker.md R112). -/
theorem execBpPut_faults {n : BitVec 6} {v : Word} (hf : s.flt.fault = false) (h : execBpPut n v s = .next t)
    (ht : t.flt.fault = true) : s.cfg.limitBits < s.bp.bitCount + n.toNat ∧ t.flt.code = 5 := by
  unfold execBpPut at h
  split at h
  · next hover =>
    cases h
    exact ⟨exceedsLimit_eq_true.1 hover, rfl⟩
  · split at h
    · cases h
    · cases h
      exact absurd (hf.symm.trans ht) nofun

/-- Of all commands only BP.PUT raises a fault (60_exceptions.md R240, R242). -/
theorem exec_faults {i : Instr} (hf : s.flt.fault = false) (h : exec i s = .next t) (ht : t.flt.fault = true) :
    ∃ n v, i = .bpPut n v ∧ s.cfg.limitBits < s.bp.bitCount + n.toNat ∧ t.flt.code = 5 := by
  have kept : t.flt = s.flt → False := fun e => by rw [e, hf] at ht; cases ht
  have hframe := commandsTouchTheirOwnState i s t h
  cases i with
  | srst => cases h; cases ht
  | bpPut n v => exact ⟨n, v, rfl, execBpPut_faults hf h ht⟩
  | nop | bpFlush | encBegin | encGob | encMb | jpegFrag | h261Pkt => exact (kept (by rw [hframe])).elim

/-- Settles O14, by the action the step takes: only a word can enter the fault state, refused by the decoder or as the
last one of a command. -/
theorem faultEnteredOnlySo : Obligations.FaultEnteredOnlySo := by
  intro s t hf h ht
  have kept : t.flt = s.flt → False := fun e => by rw [e, hf] at ht; cases ht
  obtain ⟨-, e⟩ | ⟨a, rest, -, e⟩ | ⟨a, v, rest, hi, e⟩ | ⟨w, rest, hi, ⟨hfault, -⟩ | ⟨-, e⟩⟩ := step_cases s
  · rw [e] at h
    cases h
    exact (kept rfl).elim
  · rw [e] at h
    cases h
    exact (kept rfl).elim
  · rw [e] at h
    cases h
    obtain ⟨-, -, e⟩ | ⟨-, e⟩ := csrWrite_cases a v { s with input := rest } <;> rw [e] at ht
    · cases ht
    · exact (kept (by rw [e])).elim
  · exact absurd (hf.symm.trans hfault) nofun
  · rw [e] at h
    refine ⟨w, rest, hi, ?_⟩
    obtain ⟨-, e⟩ | ⟨c, hd, e⟩ | ⟨i, after, hd, e⟩ := decodeNext_cases w { s with input := rest } <;> rw [e] at h
    · cases h
      exact (kept rfl).elim
    · cases h
      exact .inl ⟨c, hd, rfl⟩
    · obtain ⟨n, v, rfl, hover, hcode⟩ :=
        exec_faults (s := { s with input := rest, cp := s.cp + 1, pend := [] }) hf h ht
      exact .inr ⟨n, v, after, hd, hover, hcode⟩

end Sys2Proof.Machine
end

section
/-! The bit packer's commands and the packets they send, on a sound packer (40_bitpacker.md R110 to R117; 41_framer.md
R132, R133, R137). -/

namespace Sys2Proof.Machine

variable {s t : State}

/-! ## BP.PUT -/

/-- BP.PUT where the code fits, said once: the packer stays sound, its packet gains the code's bits, and of the rest of
the state only the trace moves (40_bitpacker.md R110, R112). -/
theorem exec_bpPut_of_fits {n : BitVec 6} (hn : n.toNat ≤ 32) (v : Word) (hp : Packer.Inv s.cfg s.bp)
    (hroom : s.bp.bitCount + n.toNat ≤ s.cfg.limitBits) :
    ∃ q, exec (.bpPut n v) s = .next { s with
        bp := q
        trace := s.trace ++ [.result (resultWord .ok (BitVec.ofNat 24 (s.bp.bitCount + n.toNat)))] } ∧
      Packer.Inv s.cfg q ∧ q.bitCount = s.bp.bitCount + n.toNat ∧
      q.bits s.cfg s.epoch = s.bp.bits s.cfg s.epoch ++ codeBits v n.toNat ∧
      ∀ a, ¬ (s.bp.cursor ≤ a ∧ a < s.bp.cursor + spilledBytes s.cfg s.bp.fill n.toNat) →
        q.pb.read a = s.bp.pb.read a := by
  obtain ⟨q, hput⟩ := put_ok (v := v) hroom
  obtain ⟨hq, hcount, hbits, -, hframe⟩ := put_spec (epoch := s.epoch) hn hp hroom hput
  refine ⟨q, ?_, hq, hcount, hbits, hframe⟩
  show execBpPut n v s = _
  simp only [execBpPut, exceedsLimit_of_fits hroom, hput, ← hcount]
  rfl

/-- Settles O29, by the two facts about `put` as `exec_bpPut_of_fits` puts them together. -/
theorem bpPutAppendsCode : Obligations.BpPutAppendsCode := by
  intro n v s hn hp hroom
  obtain ⟨q, hexec, -, hcount, hbits, hframe⟩ := exec_bpPut_of_fits hn v hp hroom
  exact ⟨q, hexec, hcount, hbits, hframe⟩

/-- The header word of BP.PUT: the opcode over `N` (30_encoding.md R82). -/
theorem bpPut_header (n : BitVec 6) (v : Word) : (Instr.bpPut n v).header = 0x10000000 ||| n.setWidth 32 := by
  have hword : (0x10000000 : Word) = BitVec.twoPow 32 28 := by decide
  have hcode : Opcode.bpPut.code = BitVec.twoPow 8 4 := by decide
  refine BitVec.eq_of_getLsbD_eq fun k hk => ?_
  rw [Instr.header, getLsbD_headerWord, getLsbD_nFields, hcode, hword, BitVec.getLsbD_or, BitVec.getLsbD_setWidth,
    BitVec.getLsbD_twoPow, BitVec.getLsbD_twoPow]
  by_cases h6 : k < 6
  · simp [h6, hk, show k < 24 by omega, show 28 ≠ k by omega]
  · have hn : n.getLsbD k = false := BitVec.getLsbD_of_ge n k (Nat.not_lt.1 h6)
    by_cases h24 : k < 24
    · simp [h6, h24, hn, show 28 ≠ k by omega]
    · simp [h24, hn, show 4 = k - 24 ↔ 28 = k by omega]

/-- Settles O30: the limit test fires, and the fault registers and the result word are those of BP_OVERFLOW. -/
theorem bpPutOverflowFaults : Obligations.BpPutOverflowFaults := by
  intro n v s hover
  have hresult : resultWord .fault (FaultCode.bpOverflow.code.setWidth 24) = 0xFF000005 := by decide
  show execBpPut n v s = _
  rw [execBpPut, if_pos (exceedsLimit_eq_true.2 hover), bpPut_header, raiseFault, emitResult, hresult]
  rfl

/-! ## Sending -/

/-- The stuffing bits fill the last byte (40_bitpacker.md R114). -/
theorem stuffing_eq (p : Packer) : p.stuffing = 8 * p.byteCount - p.bitCount := by
  rw [Packer.stuffing, Nat.mul_comm]

/-- The state in which `send` leaves the machine: the packet of these bytes handed out and recorded, and the packer `q`
(40_bitpacker.md R115). -/
def State.sent (m : Bool) (bytes : List Byte) (q : Packer) (s : State) : State :=
  { s with
    bp := q
    enc := { s.enc with
      pktCnt := s.enc.pktCnt + 1
      lastBytes := BitVec.ofNat 16 s.bp.byteCount
      lastEbit := BitVec.ofNat 3 s.bp.stuffing
      lastM := m }
    trace := s.trace ++ [.pktOut m (BitVec.ofNat 3 s.bp.stuffing) bytes] }

/-- What `send_spec` says, in terms of `State.sent`. -/
theorem send_eq_sent (m : Bool) (hp : Packer.Inv s.cfg s.bp) :
    ∃ bytes q, send m s = .ok (s.bp.byteCount, s.sent m bytes q) ∧
      bytes.flatMap byteBits = s.bp.bits s.cfg s.epoch ++ List.replicate s.bp.stuffing false ∧
      bytes.length = s.bp.byteCount ∧
      Packer.Inv s.cfg q ∧ q.fill = 0 ∧ q.cursor = 0 ∧ q.acc = 0 ∧
      ∀ a, ¬ (s.bp.cursor ≤ a ∧ a < s.bp.byteCount) → q.pb.read a = s.bp.pb.read a := send_spec hp

/-- Settles O31: BP.FLUSH is `send`, and then the GOB flag. -/
theorem bpFlushSendsPacket : Obligations.BpFlushSendsPacket := by
  intro m s hp
  obtain ⟨bytes, q, hsend, hbits, hlen, -, hfill, hcursor, hacc, hframe⟩ := send_eq_sent m hp
  refine ⟨_, _, bytes, q, (byteCount_spec hp).1, stuffing_eq s.bp, ?_, hlen, hbits, hacc, hfill, hcursor, hframe⟩
  have hgob : (if m then false else s.enc.gobValid) = (s.enc.gobValid && !m) := by cases m <;> simp
  show execBpFlush m s = _
  rw [execBpFlush, hsend]
  simp [emitCount, emitResult, emit, State.sent, hgob]

/-- A GOB header where it fits, said once: it writes the packer alone (41_framer.md R130). -/
theorem gobHdr_of_fits (hp : Packer.Inv s.cfg s.bp) (hroom : s.bp.bitCount + gobHdrBits ≤ s.cfg.limitBits) :
    ∃ r, gobHdr s = .ok { s with bp := r } ∧ r.bitCount = s.bp.bitCount + gobHdrBits ∧
      r.bits s.cfg s.epoch = s.bp.bits s.cfg s.epoch ++ gobHdrBitString s.enc.gobGn s.enc.gobGq ∧
      ∀ a, ¬ (s.bp.cursor ≤ a ∧ a < s.bp.cursor + spilledBytes s.cfg s.bp.fill gobHdrBits) →
        r.pb.read a = s.bp.pb.read a := by
  obtain ⟨r, hput, -, hcount, hbits, hframe⟩ :=
    putGobHdr_spec (epoch := s.epoch) s.enc.gobGn s.enc.gobGq hp hroom
  exact ⟨r, by rw [gobHdr, hput], hcount, hbits, hframe⟩

/-- On an empty packet the GOB header always fits, is all the packet holds, and stores no byte (41_framer.md R133). -/
theorem gobHdr_of_empty (hp : Packer.Inv s.cfg s.bp) (hfill : s.bp.fill = 0) (hcursor : s.bp.cursor = 0) :
    ∃ r, gobHdr s = .ok { s with bp := r } ∧ r.bitCount = gobHdrBits ∧
      r.bits s.cfg s.epoch = gobHdrBitString s.enc.gobGn s.enc.gobGq ∧ ∀ a, r.pb.read a = s.bp.pb.read a := by
  obtain ⟨hnone, hzero⟩ := bits_of_empty (cfg := s.cfg) (epoch := s.epoch) hfill hcursor
  obtain ⟨r, hgob, hcount, hbits, hframe⟩ := gobHdr_of_fits hp (gobHdr_fits_empty hzero)
  rw [hfill, spilledBytes_fresh_gobHdr] at hframe
  exact ⟨r, hgob, by rw [hcount, hzero, Nat.zero_add], by rw [hbits, hnone, List.nil_append],
    fun a => hframe a (by omega)⟩

/-- On an empty packet a GOB is always opened (41_framer.md R133). -/
theorem openGob_of_empty (gn : BitVec 4) (gq : BitVec 5) (hp : Packer.Inv s.cfg s.bp) (hfill : s.bp.fill = 0)
    (hcursor : s.bp.cursor = 0) :
    ∃ r, openGob gn gq s =
        .ok { s with bp := r, enc := { s.enc with gobGn := gn, gobGq := gq, gobValid := true } } ∧
      r.bitCount = gobHdrBits ∧ r.bits s.cfg s.epoch = gobHdrBitString gn gq ∧
      ∀ a, r.pb.read a = s.bp.pb.read a :=
  gobHdr_of_empty (s := { s with enc := { s.enc with gobGn := gn, gobGq := gq, gobValid := true } }) hp hfill hcursor

/-- What a fresh packet starts with after an overflow: the open GOB's header, or nothing (41_framer.md R132). -/
theorem reemit_of_empty (hp : Packer.Inv s.cfg s.bp) (hfill : s.bp.fill = 0) (hcursor : s.bp.cursor = 0) :
    ∃ r, (if s.enc.gobValid then gobHdr s else .ok s) = .ok { s with bp := r } ∧
      r.bits s.cfg s.epoch = (if s.enc.gobValid then gobHdrBitString s.enc.gobGn s.enc.gobGq else []) ∧
      ∀ a, r.pb.read a = s.bp.pb.read a := by
  split
  · obtain ⟨r, hgob, -, hbits, hframe⟩ := gobHdr_of_empty hp hfill hcursor
    exact ⟨r, hgob, hbits, hframe⟩
  · exact ⟨s.bp, rfl, (bits_of_empty hfill hcursor).1, fun _ => rfl⟩

/-- Settles O34: the packet is sent, and the GOB is opened on the empty packet left. -/
theorem encGobSplitsPacket : Obligations.EncGobSplitsPacket := by
  intro gn gq s hp hover
  obtain ⟨bytes, q, hsend, hbits, hlen, hq, hfill, hcursor, -, hframe⟩ := send_eq_sent false hp
  obtain ⟨r, hopen, hcount, hhdr, hkeep⟩ := openGob_of_empty (s := s.sent false bytes q) gn gq hq hfill hcursor
  refine ⟨_, _, bytes, r, (byteCount_spec hp).1, stuffing_eq s.bp, ?_, hlen, hbits, hcount, hhdr,
    fun a ha => (hkeep a).trans (hframe a ha)⟩
  have hsplit : exceedsLimit s.cfg s.bp.bitCount gobHdrBits = true := exceedsLimit_eq_true.2 hover
  show execEncGob gn gq s = _
  simp only [execEncGob, hsplit, if_true, hsend, hopen]
  simp [emitCount, emitResult, emit, State.sent]

/-- Settles O37: the packet is sent, and the empty packet left starts as R132 says. -/
theorem encMbRetries : Obligations.EncMbRetries := by
  intro n d s hp hover hfresh
  obtain ⟨bytes, q, hsend, hbits, hlen, hq, hfill, hcursor, -, hframe⟩ := send_eq_sent false hp
  obtain ⟨r, hre, hhdr, hkeep⟩ := reemit_of_empty (s := s.sent false bytes q) hq hfill hcursor
  refine ⟨_, _, bytes, r, (byteCount_spec hp).1, stuffing_eq s.bp, ?_, hlen, hbits, hhdr,
    fun a ha => (hkeep a).trans (hframe a ha)⟩
  have hretry : exceedsLimit s.cfg s.bp.bitCount n.toNat = true := exceedsLimit_eq_true.2 hover
  have hfits : exceedsLimit s.cfg (reemitBits s.enc) n.toNat = false := exceedsLimit_of_fits hfresh
  show execEncMb n d s = _
  simp only [execEncMb, hretry, hfits, if_true, Bool.false_eq_true, if_false, hsend, hre]
  simp [emitCount, emitResult, emit, State.sent]

/-! ## Codes, and then the packet -/

/-- The first of a list of commands delivered, the rest follow from the state it left. -/
theorem deliverAll_cons {i : Instr} {is : List Instr} (h : deliver i s = .next t) :
    deliverAll (i :: is) s = deliverAll is t := by
  rw [deliverAll, h, andThen]

/-- Settles O40, by induction on the codes: each BP.PUT leaves a sound packer with room for the rest, and BP.FLUSH sends
what they left. -/
theorem putsThenFlushSendTheirBits : Obligations.PutsThenFlushSendTheirBits := by
  intro codes m s hp hcodes hroom
  induction codes generalizing s with
  | nil =>
    obtain ⟨nbytes, ebit, bytes, q, hnbytes, hebit, hexec, hlen, hbits, -⟩ :=
      bpFlushSendsPacket m { s with cp := s.cp + 1 } hp
    exact ⟨_, [], bytes, ebit, deliverAll_cons hexec, by simp [hlen], rfl, nofun, by omega, by simpa using hbits⟩
  | cons c codes ih =>
    obtain ⟨n, v⟩ := c
    rw [List.map_cons, List.sum_cons] at hroom
    obtain ⟨q, hexec, hq, hcount, hqbits, -⟩ := exec_bpPut_of_fits (s := { s with cp := s.cp + 2 })
      (hcodes _ List.mem_cons_self) v hp (by show s.bp.bitCount + _ ≤ s.cfg.limitBits; omega)
    obtain ⟨t, pre, bytes, ebit, hrun, htrace, hlen, hres, hebit, hbits⟩ := ih
      { s with
        cp := s.cp + 2
        bp := q
        trace := s.trace ++ [.result (resultWord .ok (BitVec.ofNat 24 (s.bp.bitCount + n.toNat)))] }
      hq (fun c hc => hcodes c (List.mem_cons_of_mem _ hc))
      (by show q.bitCount + _ ≤ s.cfg.limitBits; rw [hcount, Nat.add_assoc]; exact hroom)
    refine ⟨t, .result (resultWord .ok (BitVec.ofNat 24 (s.bp.bitCount + n.toNat))) :: pre, bytes, ebit,
      (deliverAll_cons hexec).trans hrun, by rw [htrace]; simp, by simp [hlen],
      List.forall_mem_cons.2 ⟨rfl, hres⟩, hebit, ?_⟩
    rw [hbits, hqbits]
    simp

/-! ## The marker bit -/

/-- `send` hands out one packet, with the marker bit it was given (40_bitpacker.md R115). -/
theorem send_trace {m : Bool} {nb : Nat} (h : send m s = .ok (nb, t)) :
    ∃ e bytes, t.trace = s.trace ++ [.pktOut m e bytes] := by
  simp only [send] at h
  split at h
  · cases h
  · split at h
    · cases h
    · cases h; exact ⟨_, _, rfl⟩

/-- A packet without the marker bit and a result word are an unmarked answer. -/
theorem answers_send_false {u : State} {nb : Nat} {c : ResultCode} {v : BitVec 24} (h : send false s = .ok (nb, u))
    (ht : t.trace = u.trace ++ [.result (resultWord c v)]) : Answers (fun e => e.isMarkerPacket = false) s t := by
  obtain ⟨e, bytes, hu⟩ := send_trace h
  exact answers_event (e := .pktOut false e bytes) rfl (by rw [ht, hu])

/-- ENC.GOB sends with `M = 0` (41_framer.md R133). -/
theorem execEncGob_unmarked {gn : BitVec 4} {gq : BitVec 5} (h : execEncGob gn gq s = .next t) :
    Answers (fun e => e.isMarkerPacket = false) s t := by
  unfold execEncGob at h
  split at h
  · split at h
    · cases h
    · next hsend =>
      split at h
      · cases h
      · next hopen =>
        obtain ⟨q, enc, rfl⟩ := openGob_eq_ok hopen
        cases h
        exact answers_send_false hsend rfl
  · split at h
    · cases h
    · next hopen =>
      obtain ⟨q, enc, rfl⟩ := openGob_eq_ok hopen
      cases h
      exact answers_result rfl

/-- ENC.MB sends with `M = 0` (41_framer.md R137). -/
theorem execEncMb_unmarked {nbits : BitVec 16} {data : List Word} (h : execEncMb nbits data s = .next t) :
    Answers (fun e => e.isMarkerPacket = false) s t := by
  unfold execEncMb at h
  split at h
  · split at h
    · cases h; exact answers_result rfl
    · split at h
      · cases h
      · next hsend =>
        split at h
        · cases h
        · next hre =>
          obtain ⟨q, rfl⟩ := reemit_eq_ok hre
          cases h
          exact answers_send_false hsend rfl
  · split at h
    · cases h
    · cases h; exact answers_result rfl

/-- BP.FLUSH with `M = 0` sends with `M = 0` (40_bitpacker.md R116). -/
theorem execBpFlush_unmarked (h : execBpFlush false s = .next t) : Answers (fun e => e.isMarkerPacket = false) s t := by
  unfold execBpFlush at h
  split at h
  · cases h
  · next hsend => cases h; exact answers_send_false hsend rfl

/-- A frame is no packet. -/
theorem isMarkerPacket_of_isFrame {e : Event} (h : e.isFrame = true) : e.isMarkerPacket = false := by
  cases e with
  | pktOut => cases h
  | result | frameJpeg | frameH261 => rfl

/-- Every command but BP.FLUSH with `M = 1` answers without a marked packet (41_framer.md R141). -/
theorem exec_unmarked {i : Instr} (hi : i ≠ .bpFlush true) (h : exec i s = .next t) :
    Answers (fun e => e.isMarkerPacket = false) s t := by
  have hans := exec_answers h
  cases i with
  | nop | srst | bpPut | encBegin => exact hans.mono fun _ he => he.elim
  | jpegFrag | h261Pkt => exact hans.mono fun _ => isMarkerPacket_of_isFrame
  | encGob gn gq => exact execEncGob_unmarked h
  | encMb nbits data => exact execEncMb_unmarked h
  | bpFlush m =>
    cases m with
    | false => exact execBpFlush_unmarked h
    | true => exact absurd rfl hi

/-- Settles O39: the events of any other command are an unmarked one at most, and a result word. -/
theorem onlyFlushMarksPackets : Obligations.OnlyFlushMarksPackets := by
  intro i s t evs e bytes h htrace hmem
  by_contra hi
  obtain ⟨front, c, v, hans, hfront⟩ := exec_unmarked hi h
  rw [htrace, List.append_assoc, List.append_cancel_left_eq] at hans
  rw [hans, List.mem_append, List.mem_singleton] at hmem
  obtain hmem | hmem := hmem
  · obtain rfl | ⟨e', rfl, he'⟩ := hfront
    · cases hmem
    · rw [← List.mem_singleton.1 hmem] at he'
      cases he'
  · cases hmem

end Sys2Proof.Machine
end

section
/-! A sound machine never stops (44_control.md R225; 60_exceptions.md R242): every command the encoding can carry
completes on a sound state, and so every step has a next state. -/

namespace Sys2Proof.Machine

variable {s : State}

/-- BP.PUT appends its code or enters RRF's own fault state, and completes either way (40_bitpacker.md R111, R112). -/
theorem bpPut_completes {n : BitVec 6} (hn : n.toNat ≤ 32) (v : Word) (hp : Packer.Inv s.cfg s.bp) :
    ∃ t, exec (.bpPut n v) s = .next t := by
  by_cases hroom : s.bp.bitCount + n.toNat ≤ s.cfg.limitBits
  · obtain ⟨q, hexec, -⟩ := exec_bpPut_of_fits hn v hp hroom
    exact ⟨_, hexec⟩
  · exact ⟨_, bpPutOverflowFaults n v s (Nat.not_le.1 hroom)⟩

/-- ENC.GOB appends its header or splits the packet (41_framer.md R133). -/
theorem encGob_completes (gn : BitVec 4) (gq : BitVec 5) (hp : Packer.Inv s.cfg s.bp) :
    ∃ t, exec (.encGob gn gq) s = .next t := by
  by_cases hroom : s.bp.bitCount + gobHdrBits ≤ s.cfg.limitBits
  · obtain ⟨r, hgob, -⟩ := gobHdr_of_fits
      (s := { s with enc := { s.enc with gobGn := gn, gobGq := gq, gobValid := true } }) hp hroom
    show ∃ t, execEncGob gn gq s = .next t
    simp only [execEncGob, exceedsLimit_of_fits hroom, Bool.false_eq_true, if_false, openGob, hgob]
    exact ⟨_, rfl⟩
  · obtain ⟨_, _, _, _, -, -, hexec, -⟩ := encGobSplitsPacket gn gq s hp (Nat.not_le.1 hroom)
    exact ⟨_, hexec⟩

/-- ENC.MB appends its macroblock, finds it too large, or asks for a retry (41_framer.md R137). -/
theorem encMb_completes {nbits : BitVec 16} {data : List Word} (hd : data.length = wordsFor 32 nbits.toNat)
    (hp : Packer.Inv s.cfg s.bp) : ∃ t, exec (.encMb nbits data) s = .next t := by
  by_cases hroom : s.bp.bitCount + nbits.toNat ≤ s.cfg.limitBits
  · obtain ⟨q, hexec, -⟩ := encMbAppendsMacroblock nbits data s hd hp hroom
    exact ⟨_, hexec⟩
  · have hover := Nat.not_le.1 hroom
    by_cases hfresh : reemitBits s.enc + nbits.toNat ≤ s.cfg.limitBits
    · obtain ⟨_, _, _, _, -, -, hexec, -⟩ := encMbRetries nbits data s hp hover hfresh
      exact ⟨_, hexec⟩
    · refine ⟨emitCount .mbTooLarge nbits.toNat s, ?_⟩
      show execEncMb nbits data s = _
      rw [execEncMb, if_pos (exceedsLimit_eq_true.2 hover), if_pos (exceedsLimit_eq_true.2 (Nat.not_le.1 hfresh))]

/-- Steps 3 to 9 complete where the fragment ends inside the capacity (42_jpeg_reassembler.md R168). -/
theorem acceptFragment_completes {m : Bool} {seq len : BitVec 16} {ts off : Word} {bytes : List Byte}
    (hfit : off.toNat + bytes.length ≤ s.jpeg.jcap.toNat) :
    ∃ t, acceptFragment m seq ts off len bytes s = .next t := by
  unfold acceptFragment
  split
  next b j hsel =>
    have hcap : j.jcap = s.jpeg.jcap := by
      have := select_jcap s.cfg.params.decimate ts (recordSlot seq off ts s.jpeg)
      rwa [hsel] at this
    split
    · exact ⟨_, rfl⟩
    · rw [copyFragment, if_pos (by rwa [hcap])]
      exact ⟨_, rfl⟩

/-- JPEG.FRAG drops its fragment, or has grown the capacity to hold it (42_jpeg_reassembler.md R162, R163, R168). -/
theorem jpegFrag_completes (m : Bool) (seq len : BitVec 16) (ts off : Word) (data : List Word)
    (hj : Jpeg.Inv s.cfg s.jpeg) : ∃ t, exec (.jpegFrag m seq ts off len data) s = .next t := by
  show ∃ t, execJpegFrag m seq ts off len data s = .next t
  unfold execJpegFrag
  split
  · exact ⟨_, rfl⟩
  · next hoff =>
    split
    · exact ⟨_, rfl⟩
    · next hend =>
      obtain ⟨hinit, -⟩ := hj
      obtain ⟨-, -, -, -, -, hpos, -⟩ := s.cfg.legal
      have htaken : FragmentTaken s off len := ⟨Int.not_lt.1 hoff, by omega, by omega⟩
      exact acceptFragment_completes
        (Nat.le_trans (Nat.add_le_add_left (length_payloadBytes_le len data) _) (growFor_spec htaken).1)

/-- Every command the encoding can carry completes on a sound state. -/
theorem exec_completes {i : Instr} (hw : i.wellFormed s.cfg.params.maxPktBytes = true)
    (hp : Packer.Inv s.cfg s.bp) (hj : Jpeg.Inv s.cfg s.jpeg) : ∃ t, exec i s = .next t := by
  cases i with
  | nop | srst | encBegin => exact ⟨_, rfl⟩
  | bpPut n v => exact bpPut_completes (by simpa [Instr.wellFormed] using hw) v hp
  | bpFlush m =>
    obtain ⟨_, _, _, _, -, -, hexec, -⟩ := bpFlushSendsPacket m s hp
    exact ⟨_, hexec⟩
  | encGob gn gq => exact encGob_completes gn gq hp
  | encMb nbits data => exact encMb_completes (by simpa [Instr.wellFormed] using hw) hp
  | jpegFrag m seq ts off len data => exact jpegFrag_completes m seq len ts off data hj
  | h261Pkt m seq len data =>
    show ∃ t, execH261Pkt m seq len data s = .next t
    unfold execH261Pkt
    split <;> exact ⟨_, rfl⟩

/-- Settles O27, by the action the step takes: only a word that completes a command could stop, and the decoder answers
well-formed commands alone. -/
theorem soundMachineNeverStops : Obligations.SoundMachineNeverStops := by
  rintro s ⟨hp, hj, -⟩
  obtain ⟨-, e⟩ | ⟨a, rest, -, e⟩ | ⟨a, v, rest, -, e⟩ | ⟨w, rest, -, ⟨-, e⟩ | ⟨-, e⟩⟩ := step_cases s
  · exact ⟨_, e⟩
  · exact ⟨_, e⟩
  · exact ⟨_, e⟩
  · rw [e]
    obtain ⟨-, e⟩ | ⟨-, e⟩ := discardNext_cases w { s with input := rest } <;> exact ⟨_, e⟩
  · rw [e]
    obtain ⟨-, e⟩ | ⟨c, -, e⟩ | ⟨i, after, hd, e⟩ := decodeNext_cases w { s with input := rest }
    · exact ⟨_, e⟩
    · exact ⟨_, e⟩
    · rw [e]
      exact exec_completes (s := { s with input := rest, cp := s.cp + 1, pend := [] }) (decode_wellFormed hd) hp hj

end Sys2Proof.Machine
end

section
/-! The framer's commands on a sound packer, and the host's walk of a frame (41_framer.md R130 to R152). -/

namespace Sys2Proof.Machine

variable {s t u : State}

/-! ## One command -/

/-- Settles O32, as ENC.BEGIN is one state update and a result word. -/
theorem encBeginDropsPacket : Obligations.EncBeginDropsPacket := by
  intro s
  have hresult : resultWord .ok 0 = 0x00000000 := by decide
  show execEncBegin s = _
  rw [execEncBegin, emitResult, hresult]
  rfl

/-- Settles O36: both limit tests of R137 fire. -/
theorem encMbTooLarge : Obligations.EncMbTooLarge := by
  intro n d s hover hfresh
  have hlarge : exceedsLimit s.cfg (reemitBits s.enc) n.toNat = true := exceedsLimit_eq_true.2 hfresh
  show execEncMb n d s = _
  rw [execEncMb, if_pos (exceedsLimit_eq_true.2 hover), if_pos hlarge, emitCount, BitVec.ofNat_toNat]
  rfl

/-- Settles O33: the GOB registers are set, and the header they make fits. -/
theorem encGobAppendsHeader : Obligations.EncGobAppendsHeader := by
  intro gn gq s hp hroom
  obtain ⟨q, hgob, hcount, hbits, hframe⟩ := gobHdr_of_fits
    (s := { s with enc := { s.enc with gobGn := gn, gobGq := gq, gobValid := true } }) hp hroom
  refine ⟨q, ?_, hcount, hbits, hframe⟩
  show execEncGob gn gq s = _
  simp only [execEncGob, exceedsLimit_of_fits (n := gobHdrBits) hroom, Bool.false_eq_true, if_false, openGob, hgob,
    hcount]
  rfl

/-! ## What ENC.GOB and ENC.MB can do -/

/-- ENC.GOB opens the GOB in this packet, or sends the packet first (41_framer.md R133). -/
theorem execEncGob_cases {gn : BitVec 4} {gq : BitVec 5} (h : execEncGob gn gq s = .next t) :
    (s.bp.bitCount + gobHdrBits ≤ s.cfg.limitBits ∧
      ∃ u, openGob gn gq s = .ok u ∧ t = emitCount .gobOk u.bp.bitCount u) ∨
    (s.cfg.limitBits < s.bp.bitCount + gobHdrBits ∧
      ∃ nb u v, send false s = .ok (nb, u) ∧ openGob gn gq u = .ok v ∧ t = emitCount .gobSplit nb v) := by
  unfold execEncGob at h
  split at h
  · next hover =>
    split at h
    · cases h
    · next hsend =>
      split at h
      · cases h
      · next hopen => cases h; exact .inr ⟨exceedsLimit_eq_true.1 hover, _, _, _, hsend, hopen, rfl⟩
  · next hfits =>
    split at h
    · cases h
    · next hopen => cases h; exact .inl ⟨fits_of_not_exceedsLimit hfits, _, hopen, rfl⟩

/-- ENC.MB appends the macroblock, finds it too large, or sends the packet and asks for a retry (41_framer.md R137). -/
theorem execEncMb_cases {n : BitVec 16} {d : List Word} (h : execEncMb n d s = .next t) :
    (s.bp.bitCount + n.toNat ≤ s.cfg.limitBits ∧
      ∃ q, putCodes s.cfg (mbCodes n.toNat d) s.bp = .ok q ∧ t = emitCount .mbOk q.bitCount { s with bp := q }) ∨
    (s.cfg.limitBits < s.bp.bitCount + n.toNat ∧
      (t = emitCount .mbTooLarge n.toNat s ∨
        reemitBits s.enc + n.toNat ≤ s.cfg.limitBits ∧
          ∃ nb u v, send false s = .ok (nb, u) ∧ (if u.enc.gobValid then gobHdr u else .ok u) = .ok v ∧
            t = emitCount .mbRetry nb v)) := by
  unfold execEncMb at h
  split at h
  · next hover =>
    refine .inr ⟨exceedsLimit_eq_true.1 hover, ?_⟩
    split at h
    · cases h; exact .inl rfl
    · next hfresh =>
      split at h
      · cases h
      · next hsend =>
        split at h
        · cases h
        · next hre => cases h; exact .inr ⟨fits_of_not_exceedsLimit hfresh, _, _, _, hsend, hre, rfl⟩
  · next hfits =>
    split at h
    · cases h
    · next hput => cases h; exact .inl ⟨fits_of_not_exceedsLimit hfits, _, hput, rfl⟩

/-! ## The packer they leave -/

/-- `send` records the packet anew, so a sound packer alone makes the encoder sound after it (40_bitpacker.md R115). -/
theorem send_sound_of_packer {m : Bool} {nb : Nat} (hp : Packer.Inv s.cfg s.bp) (h : send m s = .ok (nb, t)) :
    EncoderSound t ∧ t.bp.bitCount = 0 :=
  send_sound (s := { s with enc := { s.enc with lastBytes := 0 } }) ⟨hp, Nat.zero_le _⟩ h

/-- A packet sent, and the next one started as R132 says, leave a sound packer. -/
theorem retry_packer_inv {m : Bool} {nb : Nat} {v : State} (hp : Packer.Inv s.cfg s.bp)
    (hsend : send m s = .ok (nb, u)) (hre : (if u.enc.gobValid then gobHdr u else .ok u) = .ok v) :
    Packer.Inv v.cfg v.bp := by
  obtain ⟨hu, hempty⟩ := send_sound_of_packer hp hsend
  exact (reemit_sound hu hempty hre).1

/-- Opening a GOB whose header fits leaves a sound packer (41_framer.md R130). -/
theorem openGob_packer_inv {gn : BitVec 4} {gq : BitVec 5} (hp : Packer.Inv s.cfg s.bp)
    (hroom : s.bp.bitCount + gobHdrBits ≤ s.cfg.limitBits) (h : openGob gn gq s = .ok t) : Packer.Inv t.cfg t.bp := by
  obtain ⟨q, hput, hq, -⟩ := putGobHdr_spec (epoch := s.epoch) gn gq hp hroom
  simp only [openGob, gobHdr, hput] at h
  cases h
  exact hq

/-! ## The last result -/

/-- What the last result is, of a trace that ends with a result word (10_state.md R31). -/
theorem lastResultIs_iff_of_trace {c c' : ResultCode} {v : BitVec 24} {evs : List Event}
    (h : t.trace = evs ++ [.result (resultWord c v)]) : lastResultIs c' t = true ↔ c.code = c'.code := by
  simp [lastResultIs, h]

/-- ENC.MB answered by MB_RETRY found room in a fresh packet only, and left a sound packer (41_framer.md R137). -/
theorem exec_encMb_retried {n : BitVec 16} {d : List Word} (hp : Packer.Inv s.cfg s.bp)
    (h : exec (.encMb n d) s = .next t) (hretry : lastResultIs .mbRetry t = true) :
    s.cfg.limitBits < s.bp.bitCount + n.toNat ∧ reemitBits s.enc + n.toNat ≤ s.cfg.limitBits ∧
      Packer.Inv t.cfg t.bp := by
  obtain ⟨-, q, -, ht⟩ | ⟨hover, ht | ⟨hfresh, nb, u, v, hsend, hre, ht⟩⟩ := execEncMb_cases h <;> rw [ht] at hretry ⊢
  · exact absurd ((lastResultIs_iff_of_trace rfl).1 hretry) (by decide)
  · exact absurd ((lastResultIs_iff_of_trace rfl).1 hretry) (by decide)
  · exact ⟨hover, hfresh, retry_packer_inv (v := v) hp hsend hre⟩

/-- After MB_RETRY the packet is what R132 says of a fresh one: the open GOB's header, or nothing. -/
theorem bits_of_encMb_retried {n : BitVec 16} {d : List Word} (hp : Packer.Inv s.cfg s.bp)
    (h : exec (.encMb n d) s = .next t) (hretry : lastResultIs .mbRetry t = true) :
    t.bp.bits t.cfg t.epoch = (if t.enc.gobValid then gobHdrBitString t.enc.gobGn t.enc.gobGq else []) := by
  obtain ⟨hover, hfresh, -⟩ := exec_encMb_retried hp h hretry
  obtain ⟨_, _, _, q, -, -, hexec, -, -, hbits, -⟩ := encMbRetries n d s hp hover hfresh
  cases h.symm.trans hexec
  exact hbits

/-- A packet that holds the re-emitted GOB header or nothing has `g` bits (41_framer.md R132). -/
theorem bitCount_of_bits_reemitted
    (h : t.bp.bits t.cfg t.epoch = (if t.enc.gobValid then gobHdrBitString t.enc.gobGn t.enc.gobGq else [])) :
    t.bp.bitCount = reemitBits t.enc := by
  rw [← length_bits t.cfg t.epoch, h, reemitBits]
  split
  · simp [gobHdrBitString, gobHdrBits]
  · rfl

/-- ENC.MB delivered where the macroblock fits answers MB_OK. -/
theorem deliver_encMb_of_fits {n : BitVec 16} {d : List Word} (hd : d.length = wordsFor 32 n.toNat)
    (hp : Packer.Inv s.cfg s.bp) (hroom : s.bp.bitCount + n.toNat ≤ s.cfg.limitBits) :
    ∃ t, deliver (.encMb n d) s = .next t ∧ lastResultIs .mbOk t = true := by
  obtain ⟨q, hexec, -⟩ := encMbAppendsMacroblock n d
    { s with cp := s.cp + BitVec.ofNat 32 (encode (.encMb n d)).length } hd hp hroom
  exact ⟨_, hexec, (lastResultIs_iff_of_trace rfl).2 rfl⟩

/-- ENC.MB delivered where the packet holds what a fresh one would, and the macroblock does not fit it, answers
MB_TOO_LARGE: to send the packet would gain nothing (41_framer.md R138). -/
theorem deliver_encMb_tooLarge (n : BitVec 16) (d : List Word) (hcount : s.bp.bitCount = reemitBits s.enc)
    (hover : s.cfg.limitBits < s.bp.bitCount + n.toNat) :
    ∃ t, deliver (.encMb n d) s = .next t ∧ lastResultIs .mbTooLarge t = true := by
  have hfresh : s.cfg.limitBits < reemitBits s.enc + n.toNat := hcount ▸ hover
  exact ⟨_, encMbTooLarge n d { s with cp := s.cp + BitVec.ofNat 32 (encode (.encMb n d)).length } hover hfresh,
    (lastResultIs_iff_of_trace rfl).2 rfl⟩

/-- Settles O38: the bit count after MB_RETRY is the `g` of R132, so a macroblock that fits it is appended, and one that
does not is past the limit in a fresh packet too. -/
theorem noSecondRetry : Obligations.NoSecondRetry := by
  intro n n' d d' s t hp hd' h hretry
  obtain ⟨-, -, ht⟩ := exec_encMb_retried hp h hretry
  have hbits := bits_of_encMb_retried hp h hretry
  have hcount := bitCount_of_bits_reemitted hbits
  refine ⟨hbits, hcount, ?_⟩
  rw [← (exec_keepsHistory h).cfg]
  by_cases hroom : t.bp.bitCount + n'.toNat ≤ t.cfg.limitBits
  · obtain ⟨u, hu, hok⟩ := deliver_encMb_of_fits hd' ht hroom
    exact ⟨u, hu, fun _ => hok, fun hlt => absurd hroom (Nat.not_le.2 hlt)⟩
  · obtain ⟨u, hu, hlarge⟩ := deliver_encMb_tooLarge n' d' hcount (Nat.not_le.1 hroom)
    exact ⟨u, hu, fun hle => absurd hle hroom, fun _ => hlarge⟩

end Sys2Proof.Machine
end

section
/-! The host's walk of a frame (41_framer.md R150, R152; log entry 20), command by command: each leaves the packer sound
and the trace without a marked packet, so the walk never stops and the packet BP.FLUSH sends at its end is the only one
marked. -/

namespace Sys2Proof.Machine

variable {s t u : State} {n m : Nat}

/-! ## What a walk has done so far -/

/-- From `s` to `t` the walk goes on: the packer is sound in `t`, and the trace gained events of which none is a marked
packet and `n` are GOB_OK or GOB_SPLIT. -/
structure Walked (n : Nat) (s t : State) : Prop where
  sound : Packer.Inv t.cfg t.bp
  trace : ∃ evs, t.trace = s.trace ++ evs ∧ (∀ e ∈ evs, e.isMarkerPacket = false) ∧
    (evs.filter Event.isGobResult).length = n

/-- Nothing added to the trace is no event. -/
theorem walked_of_trace_eq (hp : Packer.Inv t.cfg t.bp) (h : t.trace = s.trace) : Walked 0 s t :=
  ⟨hp, [], by rw [h, List.append_nil], nofun, rfl⟩

/-- One unmarked event added to the trace. -/
theorem walked_of_event {e : Event} (hp : Packer.Inv t.cfg t.bp) (h : t.trace = s.trace ++ [e])
    (he : e.isMarkerPacket = false) : Walked ([e].filter Event.isGobResult).length s t :=
  ⟨hp, [e], h, by simpa using he, rfl⟩

theorem Walked.trans (h : Walked n s t) (k : Walked m t u) : Walked (n + m) s u := by
  obtain ⟨-, evs, ht, hmark, hgobs⟩ := h
  obtain ⟨hu, evs', ht', hmark', hgobs'⟩ := k
  refine ⟨hu, evs ++ evs', by rw [ht', ht, List.append_assoc],
    fun e he => (List.mem_append.1 he).elim (hmark e) (hmark' e), ?_⟩
  rw [List.filter_append, List.length_append, hgobs, hgobs']

/-- The GOB results among the result words of one code (10_state.md R34). -/
def ResultCode.gobResults : ResultCode → Nat
  | .gobOk | .gobSplit => 1
  | _ => 0

theorem length_filter_resultWord (c : ResultCode) (v : BitVec 24) :
    ([Event.result (resultWord c v)].filter Event.isGobResult).length = c.gobResults := by
  have hcode : Event.isGobResult (.result (resultWord c v)) = (c.code == 0x0D || c.code == 0x0E) := by
    rw [Event.isGobResult, resultWord_code]
  rw [List.filter_singleton, hcode]
  cases c <;> rfl

/-- A result word ends a command of the walk. -/
theorem Walked.emitCount (h : Walked 0 s t) (c : ResultCode) (k : Nat) :
    Walked c.gobResults s (Machine.emitCount c k t) := by
  have hresult := walked_of_event (t := Machine.emitCount c k t) h.sound (emitCount_trace t c k) rfl
  rw [length_filter_resultWord] at hresult
  exact Nat.zero_add c.gobResults ▸ h.trans hresult

/-! ## The parts of the framer's commands -/

/-- A packet sent without the marker bit walks on, and leaves an empty packet. -/
theorem send_walked {nb : Nat} (hp : Packer.Inv s.cfg s.bp) (h : send false s = .ok (nb, t)) :
    Walked 0 s t ∧ t.bp.bitCount = 0 := by
  obtain ⟨⟨ht, -⟩, hempty⟩ := send_sound_of_packer hp h
  obtain ⟨e, bytes, htrace⟩ := send_trace h
  exact ⟨walked_of_event ht htrace rfl, hempty⟩

/-- A GOB opened where its header fits walks on. -/
theorem openGob_walked {gn : BitVec 4} {gq : BitVec 5} (hp : Packer.Inv s.cfg s.bp)
    (hroom : s.bp.bitCount + gobHdrBits ≤ s.cfg.limitBits) (h : openGob gn gq s = .ok t) : Walked 0 s t := by
  have ht := openGob_packer_inv hp hroom h
  obtain ⟨q, enc, rfl⟩ := openGob_eq_ok h
  exact walked_of_trace_eq ht rfl

/-! ## The commands of the walk -/

/-- ENC.GOB gives one GOB result (41_framer.md R133). -/
theorem execEncGob_walked {gn : BitVec 4} {gq : BitVec 5} (hp : Packer.Inv s.cfg s.bp)
    (h : execEncGob gn gq s = .next t) : Walked 1 s t := by
  obtain ⟨hroom, u, hopen, rfl⟩ | ⟨-, nb, u, v, hsend, hopen, rfl⟩ := execEncGob_cases h
  · exact (openGob_walked hp hroom hopen).emitCount .gobOk _
  · obtain ⟨hu, hempty⟩ := send_walked hp hsend
    exact (hu.trans (openGob_walked hu.sound (gobHdr_fits_empty hempty) hopen)).emitCount .gobSplit _

/-- ENC.MB gives none (41_framer.md R137). -/
theorem execEncMb_walked {nbits : BitVec 16} {d : List Word} (hd : d.length = wordsFor 32 nbits.toNat)
    (hp : Packer.Inv s.cfg s.bp) (h : execEncMb nbits d s = .next t) : Walked 0 s t := by
  obtain ⟨hroom, q, hput, rfl⟩ | ⟨-, rfl | ⟨-, nb, u, v, hsend, hre, rfl⟩⟩ := execEncMb_cases h
  · obtain ⟨-, hlen, hcodes⟩ := codesBits_mb hd
    obtain ⟨q', hput', hq, -⟩ := putCodes_spec (epoch := s.epoch) hcodes hp (by rwa [hlen])
    cases hput.symm.trans hput'
    exact (walked_of_trace_eq (s := s) (t := { s with bp := q }) hq rfl).emitCount .mbOk _
  · exact (walked_of_trace_eq hp rfl).emitCount .mbTooLarge _
  · obtain ⟨hu, -⟩ := send_walked hp hsend
    have hv := retry_packer_inv hp hsend hre
    obtain ⟨q, rfl⟩ := reemit_eq_ok hre
    exact (hu.trans (walked_of_trace_eq hv rfl)).emitCount .mbRetry _

/-! ## The walk -/

/-- From `s` the walk completes, with `n` GOB results. -/
def WalksOn (n : Nat) (s : State) (o : Host.Outcome State Fault Refusal) : Prop := ∃ t, o = .next t ∧ Walked n s t

theorem walksOn_next (hp : Packer.Inv s.cfg s.bp) : WalksOn 0 s (.next s) := ⟨s, rfl, walked_of_trace_eq hp rfl⟩

/-- One part of the walk after another. -/
theorem WalksOn.andThen {o : Host.Outcome State Fault Refusal} {k : State → Host.Outcome State Fault Refusal}
    (h : WalksOn n s o) (hk : ∀ t, Packer.Inv t.cfg t.bp → WalksOn m t (k t)) : WalksOn (n + m) s (andThen o k) := by
  obtain ⟨t, rfl, ht⟩ := h
  obtain ⟨u, hu, htu⟩ := hk t ht.sound
  exact ⟨u, hu, ht.trans htu⟩

/-- A command walks on when it is delivered as it does when it executes: its words move `cp` alone. -/
theorem deliver_walksOn {i : Instr} (h : ∀ r : State, Packer.Inv r.cfg r.bp → WalksOn n r (exec i r))
    (hp : Packer.Inv s.cfg s.bp) : WalksOn n s (deliver i s) := by
  obtain ⟨t, ht, hsound, htrace⟩ := h { s with cp := s.cp + BitVec.ofNat 32 (encode i).length } hp
  exact ⟨t, ht, hsound, htrace⟩

/-- ENC.BEGIN starts the frame on an empty packet (41_framer.md R131). -/
theorem encBegin_walksOn (hp : Packer.Inv s.cfg s.bp) : WalksOn 0 s (exec .encBegin s) := by
  obtain ⟨-, -, -, -, -, -, hwf, hin, -⟩ := hp
  exact ⟨_, rfl, walked_of_event (e := .result (resultWord .ok 0)) (fresh_inv hwf hin) rfl rfl⟩

theorem encGob_walksOn (gn : BitVec 4) (gq : BitVec 5) (hp : Packer.Inv s.cfg s.bp) :
    WalksOn 1 s (exec (.encGob gn gq) s) := by
  obtain ⟨t, ht⟩ := encGob_completes gn gq hp
  exact ⟨t, ht, execEncGob_walked hp ht⟩

/-- The data words of a macroblock's bit string are as many as its bits need (30_encoding.md R85). -/
def MbString.Whole (x : MbString) : Prop := x.data.length = wordsFor 32 x.nbits.toNat

/-- So are those of both attempts. -/
def MbToSend.Whole (mb : MbToSend) : Prop := mb.once.Whole ∧ mb.again.Whole

theorem encMb_walksOn {x : MbString} (hx : x.Whole) (hp : Packer.Inv s.cfg s.bp) :
    WalksOn 0 s (exec (.encMb x.nbits x.data) s) := by
  obtain ⟨t, ht⟩ := encMb_completes hx hp
  exact ⟨t, ht, execEncMb_walked hx hp ht⟩

/-- A macroblock, and its retry where the host is asked for one (41_framer.md R150). -/
theorem walkMb_walksOn {mb : MbToSend} (hmb : mb.Whole) (hp : Packer.Inv s.cfg s.bp) : WalksOn 0 s (walkMb mb s) := by
  obtain ⟨honce, hagain⟩ := hmb
  refine (deliver_walksOn (fun _ => encMb_walksOn honce) hp).andThen (m := 0) fun t ht => ?_
  split
  · exact deliver_walksOn (fun _ => encMb_walksOn hagain) ht
  · exact walksOn_next ht

/-- The macroblocks of a GOB give no GOB result. -/
theorem walkMbs_walksOn {mbs : List (Option MbToSend)} (hmbs : ∀ mb, some mb ∈ mbs → mb.Whole)
    (hp : Packer.Inv s.cfg s.bp) : WalksOn 0 s (walkMbs mbs s) := by
  induction mbs generalizing s with
  | nil => exact walksOn_next hp
  | cons mb mbs ih =>
    have hrest : ∀ x, some x ∈ mbs → x.Whole := fun x hx => hmbs x (List.mem_cons_of_mem _ hx)
    cases mb with
    | none => exact ih hrest hp
    | some mb => exact (walkMb_walksOn (hmbs mb List.mem_cons_self) hp).andThen fun t ht => ih hrest ht

/-- Each GOB of the walk gives one GOB result. -/
theorem walkGobs_walksOn {gobs : List GobToSend} (hgobs : ∀ g ∈ gobs, ∀ mb, some mb ∈ g.mbs → mb.Whole)
    (hp : Packer.Inv s.cfg s.bp) : WalksOn gobs.length s (walkGobs gobs s) := by
  induction gobs generalizing s with
  | nil => exact walksOn_next hp
  | cons g gobs ih =>
    obtain ⟨hg, hrest⟩ := List.forall_mem_cons.1 hgobs
    have hone : WalksOn (1 + (0 + gobs.length)) s (walkGobs (g :: gobs) s) :=
      (deliver_walksOn (fun _ => encGob_walksOn g.gn g.gq) hp).andThen fun t ht =>
        (walkMbs_walksOn hg ht).andThen fun u hu => ih hrest hu
    rwa [Nat.zero_add, Nat.add_comm] at hone

/-! ## The frame -/

/-- A frame has a GOB for each 33 macroblocks begun (41_framer.md R150). -/
theorem length_gobsOf (gn : Nat → BitVec 4) (gq : Nat → BitVec 5) (mbs : List (Option MbToSend)) :
    (gobsOf gn gq mbs).length = wordsFor 33 mbs.length := by
  simp [gobsOf]

/-- The macroblocks of the GOBs are those of the frame. -/
theorem mem_of_mem_gobsOf {gn : Nat → BitVec 4} {gq : Nat → BitVec 5} {mbs : List (Option MbToSend)} {g : GobToSend}
    (hg : g ∈ gobsOf gn gq mbs) {mb : Option MbToSend} (hmb : mb ∈ g.mbs) : mb ∈ mbs := by
  obtain ⟨k, -, rfl⟩ := List.mem_map.1 hg
  exact List.mem_of_mem_drop (List.mem_of_mem_take hmb)

/-- Settles O42: up to `enc.end` the walk leaves a sound packer and sends no marked packet, and `enc.end` sends one. -/
theorem frameWalkEndsWithMarker : Obligations.FrameWalkEndsWithMarker := by
  intro gn gq mbs s hp hmbs
  obtain ⟨t, hbegin, ht⟩ := deliver_walksOn (fun _ => encBegin_walksOn) hp
  obtain ⟨u, hgobs, hu⟩ := walkGobs_walksOn (gobs := gobsOf gn gq mbs)
    (fun g hg mb hmb => hmbs mb (mem_of_mem_gobsOf hg hmb)) ht.sound
  obtain ⟨husound, pre, hutrace, hmark, hcount⟩ := ht.trans hu
  obtain ⟨nbytes, ebit, bytes, q, -, -, hflush, hlen, -⟩ := bpFlushSendsPacket true { u with cp := u.cp + 1 } husound
  have hwalk : walkFrame (gobsOf gn gq mbs) s = deliver (.bpFlush true) u := by
    simp only [walkFrame, hbegin, andThen, hgobs]
  refine ⟨_, pre, BitVec.ofNat 3 ebit, bytes, hwalk.trans hflush, ?_, hmark, ?_, Bool.and_false u.enc.gobValid⟩
  · rw [hlen, ← hutrace]
  · rw [hcount, length_gobsOf, Nat.zero_add]
    rfl

end Sys2Proof.Machine
end

section
/-! What a JPEG fragment that steps 1 and 2 let through does, as one equation for each of its three ends: discarded,
waiting, handing out its frame (42_jpeg_reassembler.md R161 to R173). -/

namespace Sys2Proof.Machine

variable {s : State} {m : Bool} {seq len : BitVec 16} {ts off : Word} {d : List Word}

/-! ## Buffers -/

/-- A buffer replaced by itself. -/
theorem Jpeg.setRb_rb (j : Jpeg) (b : BufIx) : j.setRb b (j.rb b) = j := by cases b <;> rfl

theorem Jpeg.setRb_setRb (j : Jpeg) (b : BufIx) (x y : JpegBuf) : (j.setRb b x).setRb b y = j.setRb b y := by
  cases b <;> rfl

@[simp] theorem Jpeg.rb_setRb_of_other (j : Jpeg) (b : BufIx) (x : JpegBuf) :
    (j.setRb b x).rb b.other = j.rb b.other := by cases b <;> rfl

/-- The buffers do not depend on the frame count. -/
@[simp] theorem Jpeg.rb_with_jframeCnt (j : Jpeg) (n : Word) (b : BufIx) :
    Jpeg.rb { j with jframeCnt := n } b = j.rb b := by cases b <;> rfl

theorem BufIx.eq_or_eq_other (b c : BufIx) : c = b ∨ c = b.other := by
  cases b <;> cases c <;> simp [BufIx.other]

/-- Growth writes the capacity alone (42_jpeg_reassembler.md R163). -/
theorem growFor_frame (fin : Nat) (j : Jpeg) : growFor fin j = { j with jcap := (growFor fin j).jcap } := by
  unfold growFor
  split <;> rfl

/-- An end inside the capacity grows nothing (42_jpeg_reassembler.md R163). -/
theorem growFor_of_le {fin : Nat} {j : Jpeg} (h : fin ≤ j.jcap.toNat) : growFor fin j = j :=
  if_neg (Nat.not_lt.2 h)

/-! ## Step 4 (R165, R166) -/

/-- `dec_cnt` after step 4: a buffer taken while decimation is on counts it down, from 1 or less back to `n`. -/
def decCntAfter (n : Nat) (ts : Word) (j : Jpeg) : Word :=
  if takesBuffer j ts then
    if n = 0 then j.decCnt else if j.decCnt.toInt ≤ 1 then BitVec.ofNat 32 n else j.decCnt - 1
  else j.decCnt

/-- The drop flag of the selected buffer after step 4. -/
def dropAfter (n : Nat) (ts : Word) (j : Jpeg) : Bool :=
  if takesBuffer j ts then decide (n ≠ 0 ∧ 1 < j.decCnt.toInt) else (j.rb (selectedBuffer j ts)).drop

theorem dropAfter_eq_true : dropAfter s.cfg.params.decimate ts s.jpeg = true ↔ fragmentDiscarded s ts := by
  unfold dropAfter fragmentDiscarded
  split
  · simp [keptByDecimation]
  · rfl

theorem dropAfter_eq_false : dropAfter s.cfg.params.decimate ts s.jpeg = false ↔ ¬ fragmentDiscarded s ts := by
  rw [← dropAfter_eq_true, Bool.not_eq_true]

/-- Where no buffer is taken, the selected one already holds the frame. -/
theorem holdsFrame_selectedBuffer {j : Jpeg} (h : ¬ takesBuffer j ts) :
    holdsFrame (j.rb (selectedBuffer j ts)) ts := by
  unfold selectedBuffer
  split
  · assumption
  · next h0 =>
    split
    · assumption
    · next h1 => exact absurd ⟨h0, h1⟩ h

/-- A buffer that holds a frame, written out. -/
theorem holdsFrame.eta {x : JpegBuf} (h : holdsFrame x ts) : (⟨true, ts, x.drop, x.data⟩ : JpegBuf) = x := by
  obtain ⟨v, t, drop, data⟩ := x
  obtain ⟨rfl, rfl⟩ := h
  rfl

/-- Where a buffer is taken, it is the one `evictee` names. -/
theorem selectedBuffer_of_takesBuffer {j : Jpeg} (h : takesBuffer j ts) : selectedBuffer j ts = evictee j := by
  simp only [selectedBuffer, evictee, circularlyOlder, if_neg h.1, if_neg h.2, Bool.not_eq_true', decide_eq_true_eq]

/-- The buffer of a sound reassembler that holds a frame is the one selected for it (42_jpeg_reassembler.md R165). -/
theorem selectedBuffer_of_holdsFrame {cfg : Config} {j : Jpeg} {b : BufIx} (hj : Jpeg.Inv cfg j)
    (h : holdsFrame (j.rb b) ts) : selectedBuffer j ts = b ∧ ¬ takesBuffer j ts := by
  cases b with
  | rb0 => exact ⟨if_pos h, fun ht => ht.1 h⟩
  | rb1 =>
    have h0 : ¬ holdsFrame j.rb0 ts := fun h0 => rb_ts_ne hj .rb1 h.1 h0.1 (h0.2.trans h.2.symm)
    exact ⟨by rw [selectedBuffer, if_neg h0, if_pos (show holdsFrame j.rb1 ts from h)], fun ht => ht.2 h⟩

/-- A buffer newly taken goes through decimation (42_jpeg_reassembler.md R166). -/
theorem decimate_claim {n : Nat} {j : Jpeg} (h : takesBuffer j ts) :
    decimate n (selectedBuffer j ts) (claim (selectedBuffer j ts) ts j) =
      { j with decCnt := decCntAfter n ts j }.setRb (selectedBuffer j ts)
        ⟨true, ts, dropAfter n ts j, (j.rb (selectedBuffer j ts)).data⟩ := by
  have hcnt (b : BufIx) : (claim b ts j).decCnt = j.decCnt := Jpeg.setRb_decCnt ..
  rw [decCntAfter, dropAfter, if_pos h, if_pos h]
  generalize selectedBuffer j ts = b
  obtain ⟨hn, e⟩ | ⟨hn, hle, e⟩ | ⟨hn, hle, e⟩ := decimate_spec n b (claim b ts j) <;> rw [e]
  · simp [hn, claim]
  · rw [hcnt] at hle
    have hle' : j.decCnt.toInt ≤ 1 := by omega
    cases b <;> simp [hn, hle', Int.not_lt.2 hle', claim, Jpeg.setRb, Jpeg.rb]
  · rw [hcnt] at hle
    have hgt : 1 < j.decCnt.toInt := by omega
    cases b <;> simp [hn, hgt, Int.not_le.2 hgt, claim, Jpeg.setRb, Jpeg.rb]

/-- Where a buffer already holds the frame, step 4 changes nothing. -/
theorem select_of_not_takesBuffer {n : Nat} {j : Jpeg} (h : ¬ takesBuffer j ts) :
    select n ts j = (selectedBuffer j ts, j) := by
  obtain ⟨h0, e⟩ | ⟨h0, h1, e⟩ | ⟨h0, h1, -⟩ := select_spec n ts j
  · rw [e, selectedBuffer, if_pos h0]
  · rw [e, selectedBuffer, if_neg h0, if_pos h1]
  · exact absurd ⟨h0, h1⟩ h

/-- Step 4 as one equation: the selected buffer is valid with the timestamp, its bytes stay (42_jpeg_reassembler.md
R165, R166). -/
theorem select_eq (n : Nat) (ts : Word) (j : Jpeg) :
    select n ts j = (selectedBuffer j ts,
      { j with decCnt := decCntAfter n ts j }.setRb (selectedBuffer j ts)
        ⟨true, ts, dropAfter n ts j, (j.rb (selectedBuffer j ts)).data⟩) := by
  by_cases h : takesBuffer j ts
  · obtain ⟨h0, -⟩ | ⟨-, h1, -⟩ | ⟨-, -, e⟩ := select_spec n ts j
    · exact absurd h0 h.1
    · exact absurd h1 h.2
    · rw [e, ← selectedBuffer_of_takesBuffer h, decimate_claim h]
  · rw [select_of_not_takesBuffer h, dropAfter, if_neg h, (holdsFrame_selectedBuffer h).eta, decCntAfter, if_neg h]
    exact congrArg _ (Jpeg.setRb_rb ..).symm

/-! ## The fragment in its slot and its buffer -/

/-- The reassembler with capacity for `fin` bytes, `sl` in the slot of its sequence number and `x` in the buffer selected
for its timestamp: what steps 2 to 7 make of it. -/
def fragmentStored (n fin : Nat) (sl : Slot) (x : JpegBuf) (j : Jpeg) : Jpeg :=
  { growFor fin j with
    slots := putSlot j.slots (slotOf sl.seq) sl
    decCnt := decCntAfter n sl.ts j }.setRb (selectedBuffer j sl.ts) x

section Stored

variable (n fin : Nat) (sl : Slot) (x : JpegBuf) (j : Jpeg)

@[simp] theorem fragmentStored_slots :
    (fragmentStored n fin sl x j).slots = putSlot j.slots (slotOf sl.seq) sl := Jpeg.setRb_slots ..
@[simp] theorem fragmentStored_jcap : (fragmentStored n fin sl x j).jcap = (growFor fin j).jcap := Jpeg.setRb_jcap ..
@[simp] theorem fragmentStored_decCnt : (fragmentStored n fin sl x j).decCnt = decCntAfter n sl.ts j :=
  Jpeg.setRb_decCnt ..
@[simp] theorem fragmentStored_badoffCnt : (fragmentStored n fin sl x j).badoffCnt = j.badoffCnt := by
  rw [fragmentStored, growFor_frame]; exact Jpeg.setRb_badoffCnt ..
@[simp] theorem fragmentStored_hugeCnt : (fragmentStored n fin sl x j).hugeCnt = j.hugeCnt := by
  rw [fragmentStored, growFor_frame]; exact Jpeg.setRb_hugeCnt ..
@[simp] theorem fragmentStored_jframeCnt : (fragmentStored n fin sl x j).jframeCnt = j.jframeCnt := by
  rw [fragmentStored, growFor_frame]; exact Jpeg.setRb_jframeCnt ..
@[simp] theorem fragmentStored_rb : (fragmentStored n fin sl x j).rb (selectedBuffer j sl.ts) = x :=
  Jpeg.rb_setRb_same ..
@[simp] theorem fragmentStored_rb_other :
    (fragmentStored n fin sl x j).rb (selectedBuffer j sl.ts).other = j.rb (selectedBuffer j sl.ts).other := by
  rw [fragmentStored, growFor_frame, Jpeg.rb_setRb_of_other]
  cases selectedBuffer j sl.ts <;> rfl

end Stored

/-- Steps 2 to 4 put the fragment in its slot, whose `eof` stays, and take its buffer. -/
theorem select_recordSlot_growFor (n fin : Nat) (seq : BitVec 16) (ts off : Word) (j : Jpeg) :
    select n ts (recordSlot seq off ts (growFor fin j)) = (selectedBuffer j ts,
      fragmentStored n fin ⟨true, seq, off, ts, (slotAt j.slots (slotOf seq)).eof⟩
        ⟨true, ts, dropAfter n ts j, (j.rb (selectedBuffer j ts)).data⟩ j) := by
  rw [select_eq, fragmentStored, growFor_frame]
  rfl

/-- Storing a fragment again where only its `eof` or its buffer's content is new. -/
theorem setEof_setRb_fragmentStored (n fin : Nat) (sl : Slot) (x y : JpegBuf) (j : Jpeg) (eof : BitVec 16) :
    setEof (slotOf sl.seq) eof ((fragmentStored n fin sl x j).setRb (selectedBuffer j sl.ts) y) =
      fragmentStored n fin { sl with eof := eof } y j := by
  have hput : putSlot (putSlot j.slots (slotOf sl.seq) sl) (slotOf sl.seq) { sl with eof := eof } =
      putSlot j.slots (slotOf sl.seq) { sl with eof := eof } := Vector.set_set ..
  rw [fragmentStored, Jpeg.setRb_setRb, setEof, Jpeg.setRb_slots, slotAt_putSlot_same, hput, fragmentStored]
  cases selectedBuffer j sl.ts <;> rfl

/-! ## The three ends of a fragment let through -/

theorem exec_jpegFrag_of_taken (h : FragmentTaken s off len) :
    exec (.jpegFrag m seq ts off len d) s = acceptFragment m seq ts off len (payloadBytes len d)
      { s with jpeg := growFor (off.toNat + len.toNat) s.jpeg } := by
  obtain ⟨hoff, -, hend⟩ := h
  show execJpegFrag m seq ts off len d s = _
  rw [execJpegFrag, if_neg (show ¬ offsetOf off < 0 from Int.not_lt.2 hoff), if_neg (by omega)]

/-- Step 5 discards the fragment (42_jpeg_reassembler.md R167). -/
theorem exec_jpegFrag_discarded (h : FragmentTaken s off len) (hd : fragmentDiscarded s ts) :
    exec (.jpegFrag m seq ts off len d) s = .next (emitResult .dropDecimated 0 { s with
      jpeg := fragmentStored s.cfg.params.decimate (off.toNat + len.toNat)
        ⟨true, seq, off, ts, (slotAt s.jpeg.slots (slotOf seq)).eof⟩
        ⟨true, ts, true, (s.jpeg.rb (selectedBuffer s.jpeg ts)).data⟩ s.jpeg }) := by
  rw [exec_jpegFrag_of_taken h, acceptFragment, select_recordSlot_growFor, dropAfter_eq_true.2 hd]
  exact if_pos (congrArg JpegBuf.drop (fragmentStored_rb ..))

/-- The reassembler with a fragment that is not discarded in its slot and its bytes in its buffer
(42_jpeg_reassembler.md R164, R168, R169). -/
def fragmentKept (m : Bool) (seq : BitVec 16) (ts off : Word) (len : BitVec 16) (d : List Word) (s : State) : Jpeg :=
  fragmentStored s.cfg.params.decimate (off.toNat + len.toNat) ⟨true, seq, off, ts, if m then len else 0⟩
    ⟨true, ts, false, (s.jpeg.rb (selectedBuffer s.jpeg ts)).data.writeBytes off.toNat (payloadBytes len d)⟩ s.jpeg

/-- The forward scan of step 7 knows exactly the total an end-of-frame slot ahead gives (42_jpeg_reassembler.md R169). -/
theorem scanForward_eq_some_iff_eofAhead {slots : Vector Slot 64} {k : Fin 64} {total : Nat} :
    scanForward slots ts (k.1 + 1) 63 = some total ↔ EofAhead slots k ts total := by
  have hslot (i : Nat) : slotAt slots (slotIx (k.1 + 1 + i)) = slotAfter slots k (i + 1) := by
    rw [slotAfter, show k.1 + 1 + i = k.1 + (i + 1) by omega]
  simp only [scanForward_eq_some, hslot]
  constructor
  · rintro ⟨n, hn, hv, hz, he, ht⟩
    refine ⟨n + 1, by omega, by omega, fun j h1 h2 => ?_, fun j h1 h2 => ?_, he, ht⟩
    · obtain ⟨i, rfl⟩ := Nat.exists_eq_add_of_le' h1
      exact hv i (by omega)
    · obtain ⟨i, rfl⟩ := Nat.exists_eq_add_of_le' h1
      exact hz i (by omega)
  · rintro ⟨n, h1, hn, hv, hz, he, ht⟩
    obtain ⟨n, rfl⟩ := Nat.exists_eq_add_of_le' h1
    exact ⟨n, by omega, fun j hj => hv (j + 1) (by omega) (by omega), fun j hj => hz (j + 1) (by omega) (by omega),
      he, ht⟩

/-- Step 8 succeeds exactly on a chain (42_jpeg_reassembler.md R170). -/
theorem complete_eq_true_iff {j : Jpeg} : complete seq ts j = true ↔ FragmentChain j.slots seq ts :=
  scanBackward_eq_true

/-- The copied fragment goes on to steps 7 to 9, which find it in its slot and its buffer. -/
theorem exec_jpegFrag_kept (h : FragmentTaken s off len) (hd : ¬ fragmentDiscarded s ts) :
    ∃ j, setEof (slotOf seq) (if m then len else 0) j = fragmentKept m seq ts off len d s ∧
      exec (.jpegFrag m seq ts off len d) s =
        .next (assembleFrame (selectedBuffer s.jpeg ts) m seq ts off.toNat len { s with jpeg := j }) := by
  obtain ⟨hend, -⟩ := growFor_spec h
  have hpayload := length_payloadBytes_le len d
  have hfit : off.toNat + (payloadBytes len d).length ≤ (growFor (off.toNat + len.toNat) s.jpeg).jcap.toNat := by omega
  refine ⟨_, setEof_setRb_fragmentStored s.cfg.params.decimate (off.toNat + len.toNat)
    ⟨true, seq, off, ts, (slotAt s.jpeg.slots (slotOf seq)).eof⟩
    ⟨true, ts, false, (s.jpeg.rb (selectedBuffer s.jpeg ts)).data⟩ _ s.jpeg _, ?_⟩
  rw [exec_jpegFrag_of_taken h, acceptFragment, select_recordSlot_growFor, dropAfter_eq_false.2 hd]
  simp only [copyFragment, fragmentStored_jcap, if_pos hfit]
  generalize hj : fragmentStored _ _ _ _ s.jpeg = j
  have hrb : j.rb (selectedBuffer s.jpeg ts) = ⟨true, ts, false, (s.jpeg.rb (selectedBuffer s.jpeg ts)).data⟩ := by
    rw [← hj]; exact fragmentStored_rb ..
  rw [hrb]
  rfl

/-- The fragment hands out its frame (42_jpeg_reassembler.md R171). -/
theorem exec_jpegFrag_handsOut (h : FragmentTaken s off len) (hd : ¬ fragmentDiscarded s ts) {total : Nat}
    (htotal : FrameTotal (fragmentKept m seq ts off len d s).slots m seq ts off len total)
    (hchain : FragmentChain (fragmentKept m seq ts off len d s).slots seq ts) :
    exec (.jpegFrag m seq ts off len d) s = .next (emitFrame (.frameJpeg ts (frameBytes s.epoch s.draws
        (selectedBuffer s.jpeg ts) total (fragmentKept m seq ts off len d s))) total
      { s with jpeg := { fragmentKept m seq ts off len d s with jframeCnt := s.jpeg.jframeCnt + 1 } }) := by
  obtain ⟨j, hj, e⟩ := exec_jpegFrag_kept (m := m) (seq := seq) (d := d) h hd
  have hcnt : (fragmentKept m seq ts off len d s).jframeCnt = s.jpeg.jframeCnt := fragmentStored_jframeCnt ..
  obtain ⟨_, rfl, ⟨total', htotal', -, e'⟩ | ⟨hnot, -⟩⟩ :=
    assembleFrame_cases (selectedBuffer s.jpeg ts) m seq ts off.toNat len { s with jpeg := j }
  · simp only [hj] at htotal' e'
    have hsame : total' = total := by
      unfold FrameTotal at htotal
      split at htotal
      · next hm => rw [if_pos hm] at htotal'; omega
      · next hm =>
        rw [if_neg hm] at htotal'
        exact Option.some.inj (htotal'.symm.trans (scanForward_eq_some_iff_eofAhead.2 htotal))
    rw [e, e', hsame, hcnt]
  · simp only [hj] at hnot
    obtain hnot | ⟨rfl, hnot⟩ := hnot
    · exact nomatch hnot.symm.trans (complete_eq_true_iff.2 hchain)
    · exact nomatch hnot.symm.trans (scanForward_eq_some_iff_eofAhead.2 htotal)

/-- The fragment waits for the rest of its frame (42_jpeg_reassembler.md R169, R170). -/
theorem exec_jpegFrag_waits (h : FragmentTaken s off len) (hd : ¬ fragmentDiscarded s ts)
    (hmissing : (∀ total, ¬ FrameTotal (fragmentKept m seq ts off len d s).slots m seq ts off len total) ∨
      ¬ FragmentChain (fragmentKept m seq ts off len d s).slots seq ts) :
    exec (.jpegFrag m seq ts off len d) s =
      .next (emitResult .notReady 0 { s with jpeg := fragmentKept m seq ts off len d s }) := by
  obtain ⟨j, hj, e⟩ := exec_jpegFrag_kept (m := m) (seq := seq) (d := d) h hd
  obtain ⟨_, rfl, ⟨total, htotal, hcomplete, -⟩ | ⟨-, e'⟩⟩ :=
    assembleFrame_cases (selectedBuffer s.jpeg ts) m seq ts off.toNat len { s with jpeg := j }
  · simp only [hj] at htotal hcomplete
    obtain hnone | hnot := hmissing
    · refine absurd ?_ (hnone total)
      unfold FrameTotal
      split
      · next hm => rwa [if_pos hm] at htotal
      · next hm => rw [if_neg hm] at htotal; exact scanForward_eq_some_iff_eofAhead.1 htotal
    · exact absurd (complete_eq_true_iff.1 hcomplete) hnot
  · rw [e, e']
    simp only [hj]

/-- Whether it hands out its frame or waits, the fragment kept is in its slot and its buffer. -/
theorem exec_jpegFrag_keeps (m : Bool) (seq : BitVec 16) (d : List Word) (h : FragmentTaken s off len)
    (hd : ¬ fragmentDiscarded s ts) :
    ∃ t, exec (.jpegFrag m seq ts off len d) s = .next t ∧
      t.jpeg = { fragmentKept m seq ts off len d s with jframeCnt := t.jpeg.jframeCnt } := by
  by_cases hout : ∃ total, FrameTotal (fragmentKept m seq ts off len d s).slots m seq ts off len total ∧
      FragmentChain (fragmentKept m seq ts off len d s).slots seq ts
  · obtain ⟨total, htotal, hchain⟩ := hout
    exact ⟨_, exec_jpegFrag_handsOut h hd htotal hchain, rfl⟩
  · refine ⟨_, exec_jpegFrag_waits h hd ?_, rfl⟩
    by_contra hc
    obtain ⟨htotal, hchain⟩ := not_or.1 hc
    obtain ⟨total, htotal⟩ := not_forall_not.1 htotal
    exact hout ⟨total, htotal, not_not.1 hchain⟩

/-- What every fragment let through leaves, whichever its end: its slot, its buffer, and the rest as `fragmentStored`
gives it. -/
theorem exec_jpegFrag_taken (m : Bool) (seq : BitVec 16) (ts : Word) (d : List Word) (h : FragmentTaken s off len) :
    ∃ t eof data, exec (.jpegFrag m seq ts off len d) s = .next t ∧
      t.jpeg = { fragmentStored s.cfg.params.decimate (off.toNat + len.toNat) ⟨true, seq, off, ts, eof⟩
        ⟨true, ts, dropAfter s.cfg.params.decimate ts s.jpeg, data⟩ s.jpeg with jframeCnt := t.jpeg.jframeCnt } ∧
      (fragmentDiscarded s ts → eof = (slotAt s.jpeg.slots (slotOf seq)).eof) ∧
      (¬ fragmentDiscarded s ts → eof = if m then len else 0) := by
  by_cases hd : fragmentDiscarded s ts
  · exact ⟨_, _, _, exec_jpegFrag_discarded h hd, by rw [dropAfter_eq_true.2 hd]; rfl, fun _ => rfl,
      fun hn => absurd hd hn⟩
  · obtain ⟨t, e, hj⟩ := exec_jpegFrag_keeps m seq d h hd
    exact ⟨t, _, _, e, by rw [dropAfter_eq_false.2 hd]; exact hj, fun hn => absurd hn hd, fun _ => rfl⟩

end Sys2Proof.Machine
end

section
/-! The JPEG reassembler's statements about one fragment (42_jpeg_reassembler.md R161 to R173), each read off the equations
of its three ends. -/

namespace Sys2Proof.Machine

variable {s : State} {m : Bool} {seq len : BitVec 16} {ts off : Word} {d : List Word}

/-- Settles O43: steps 1 and 2 by their two tests. -/
theorem jpegUnusableFragmentsDropped : Obligations.JpegUnusableFragmentsDropped := by
  intro m seq len ts off d s
  refine ⟨fun hneg => if_pos hneg, fun hoff hmax hcap => ?_⟩
  show execJpegFrag m seq ts off len d s = _
  rw [execJpegFrag, if_neg (show ¬ offsetOf off < 0 from Int.not_lt.2 hoff), if_pos ⟨hcap, hmax⟩]
  rfl

/-- Settles O44: step 2 alone writes the capacity, and growth is `grow_spec`. -/
theorem jpegCapacityGrows : Obligations.JpegCapacityGrows := by
  intro m seq len ts off d s h _
  obtain ⟨t, eof, data, e, hj, -⟩ := exec_jpegFrag_taken m seq ts d h
  have hcap : t.jpeg.jcap = (growFor (off.toNat + len.toNat) s.jpeg).jcap := by rw [hj]; exact fragmentStored_jcap ..
  have hbad : t.jpeg.badoffCnt = s.jpeg.badoffCnt := by rw [hj]; exact fragmentStored_badoffCnt ..
  have hhuge : t.jpeg.hugeCnt = s.jpeg.hugeCnt := by rw [hj]; exact fragmentStored_hugeCnt ..
  refine ⟨t, e, fun hle => by rw [hcap, growFor_of_le hle], fun hlt => ?_, hbad, hhuge, (execJpegFrag_outcome e).1⟩
  obtain ⟨-, hpos, hend⟩ := h
  obtain ⟨-, -, -, -, ⟨-, hmax⟩, -⟩ := s.cfg.legal
  obtain ⟨-, k, hk, hpow, hreach, -, hleast⟩ := grow_spec hpos hlt (by omega)
  exact ⟨k, hk, by rw [hcap, growFor, if_pos hlt, hpow], hreach, hleast⟩

/-- Settles O45: the fragment's slot is the one `fragmentStored` puts. -/
theorem jpegSlotRecorded : Obligations.JpegSlotRecorded := by
  intro m seq len ts off d s h _
  obtain ⟨t, eof, data, e, hj, hdropped, hkept⟩ := exec_jpegFrag_taken m seq ts d h
  have hslots : t.jpeg.slots = putSlot s.jpeg.slots (slotOf seq) ⟨true, seq, off, ts, eof⟩ := by
    rw [hj]; exact fragmentStored_slots ..
  have hself : slotAt t.jpeg.slots (slotOf seq) = ⟨true, seq, off, ts, eof⟩ := by rw [hslots, slotAt_putSlot_same]
  exact ⟨t, e, by rw [hself], by rw [hself], by rw [hself], by rw [hself], fun hd => by rw [hself, hdropped hd],
    fun hd => by rw [hself, hkept hd], fun k hk => by rw [hslots, slotAt_putSlot_other hk]⟩

/-- Settles O46: the buffers are those `fragmentStored` puts, the drop flag and `dec_cnt` those of step 4. -/
theorem jpegBufferSelected : Obligations.JpegBufferSelected := by
  intro m seq len ts off d s h _
  obtain ⟨t, eof, data, e, hj, -⟩ := exec_jpegFrag_taken m seq ts d h
  have hother : t.jpeg.rb (selectedBuffer s.jpeg ts).other = s.jpeg.rb (selectedBuffer s.jpeg ts).other := by
    rw [hj]; exact (Jpeg.rb_with_jframeCnt ..).trans (fragmentStored_rb_other ..)
  have hrb : t.jpeg.rb (selectedBuffer s.jpeg ts) =
      ⟨true, ts, dropAfter s.cfg.params.decimate ts s.jpeg, data⟩ := by
    rw [hj]; exact (Jpeg.rb_with_jframeCnt ..).trans (fragmentStored_rb ..)
  have hcnt : t.jpeg.decCnt = decCntAfter s.cfg.params.decimate ts s.jpeg := by rw [hj]; exact fragmentStored_decCnt ..
  refine ⟨t, e, hother, by rw [hrb], by rw [hrb], fun hnot => ⟨?_, ?_⟩, fun htake => ⟨?_, ?_⟩⟩
  · rw [hrb, dropAfter, if_neg hnot]
  · rw [hcnt, decCntAfter, if_neg hnot]
  · rw [hrb, dropAfter_eq_true, fragmentDiscarded, if_pos htake]
  · rw [hcnt, decCntAfter, if_pos htake]

/-- Settles O47: `exec_jpegFrag_discarded`, its slot's `eof` and its buffer's bytes the old ones. -/
theorem jpegDecimatedDiscarded : Obligations.JpegDecimatedDiscarded := by
  intro m seq len ts off d s h hd
  have e := exec_jpegFrag_discarded (m := m) (seq := seq) (d := d) h hd
  generalize hj : fragmentStored _ _ _ _ s.jpeg = j at e
  have hrb : j.rb (selectedBuffer s.jpeg ts) = ⟨true, ts, true, (s.jpeg.rb (selectedBuffer s.jpeg ts)).data⟩ := by
    rw [← hj]; exact fragmentStored_rb ..
  have hother : j.rb (selectedBuffer s.jpeg ts).other = s.jpeg.rb (selectedBuffer s.jpeg ts).other := by
    rw [← hj]; exact fragmentStored_rb_other ..
  have hdata (b : BufIx) : (j.rb b).data = (s.jpeg.rb b).data := by
    obtain rfl | rfl := (selectedBuffer s.jpeg ts).eq_or_eq_other b
    · rw [hrb]
    · rw [hother]
  refine ⟨_, e, rfl, hdata .rb0, hdata .rb1, hj ▸ fragmentStored_jframeCnt .., fun k => ?_⟩
  show (slotAt j.slots k).eof = _
  rw [← hj, fragmentStored_slots]
  by_cases hk : k = slotOf seq
  · rw [hk, slotAt_putSlot_same]
  · rw [slotAt_putSlot_other hk]

/-! ## A fragment that is kept -/

/-- The buffer of a fragment kept (42_jpeg_reassembler.md R168). -/
theorem fragmentKept_rb : (fragmentKept m seq ts off len d s).rb (selectedBuffer s.jpeg ts) = ⟨true, ts, false,
    (s.jpeg.rb (selectedBuffer s.jpeg ts)).data.writeBytes off.toNat (payloadBytes len d)⟩ := fragmentStored_rb ..

theorem fragmentKept_rb_other : (fragmentKept m seq ts off len d s).rb (selectedBuffer s.jpeg ts).other =
    s.jpeg.rb (selectedBuffer s.jpeg ts).other := fragmentStored_rb_other ..

/-- The slots of a fragment kept (42_jpeg_reassembler.md R164, R169). -/
theorem fragmentKept_slots : (fragmentKept m seq ts off len d s).slots =
    putSlot s.jpeg.slots (slotOf seq) ⟨true, seq, off, ts, if m then len else 0⟩ := fragmentStored_slots ..

/-- A byte of the payload, by the layout of the data words (30_encoding.md R84). -/
theorem getElem?_payloadBytes (hd : d.length = wordsFor 4 len.toNat) {k : Nat} (hk : k < len.toNat) :
    (payloadBytes len d)[k]? = some ((d.getD (k / 4) 0).extractLsb' (24 - 8 * (k % 4)) 8) := by
  rw [payloadBytes, List.getElem?_take_of_lt hk, getElem?_flatMap_wordBytes]
  rw [hd, wordsFor_four]
  omega

/-- Settles O48: the copy of step 6 is `Memory.read_writeBytes`. -/
theorem jpegPayloadCopied : Obligations.JpegPayloadCopied := by
  intro m seq len ts off d s h hlen hwf hd
  obtain ⟨t, e, hj⟩ := exec_jpegFrag_keeps m seq d h hd
  obtain ⟨hend, -⟩ := growFor_spec h
  have hrb (b : BufIx) : t.jpeg.rb b = (fragmentKept m seq ts off len d s).rb b := by
    rw [hj]; exact Jpeg.rb_with_jframeCnt ..
  refine ⟨t, e, by rw [hj]; exact hend.trans_eq (congrArg BitVec.toNat (fragmentStored_jcap ..).symm), fun a => ?_, ?_⟩
  · rw [hrb, fragmentKept_rb, Memory.read_writeBytes (hwf _), length_payloadBytes hlen]
    split
    · exact getElem?_payloadBytes hlen (by omega)
    · rfl
  · rw [hrb, fragmentKept_rb_other]

/-- Settles O49: `exec_jpegFrag_handsOut` and `exec_jpegFrag_waits`, the state each leaves having the slots of the
fragment kept. -/
theorem jpegFrameHandedOut : Obligations.JpegFrameHandedOut := by
  intro m seq len ts off d s h _ hd
  obtain ⟨t, e, hj⟩ := exec_jpegFrag_keeps m seq d h hd
  have hslots : t.jpeg.slots = (fragmentKept m seq ts off len d s).slots := by rw [hj]
  refine ⟨t, e, ?_⟩
  rw [hslots]
  refine ⟨fun total htotal hchain => ?_, fun hmissing => ?_⟩
  · cases e.symm.trans (exec_jpegFrag_handsOut h hd htotal hchain)
    refine ⟨_, _, List.append_assoc .., rfl, Memory.length_readFront .., fun hlt => ?_, fun a ha x hx => ?_⟩
    · rw [lengthField, if_pos hlt, BitVec.toNat_ofNat, Nat.mod_eq_of_lt hlt]
    · rw [emitFrame_jpeg, Jpeg.rb_with_jframeCnt] at hx
      rw [frameBytes, Memory.getElem?_readFront, if_pos ha, hx, Option.getD_some]
  · cases e.symm.trans (exec_jpegFrag_waits h hd hmissing)
    exact ⟨rfl, fragmentStored_jframeCnt ..⟩

/-! ## A duplicate of the completing fragment (R173) -/

/-- A fragment that hands out a frame was let through and kept, and the frame is the front of its buffer. -/
theorem exec_jpegFrag_of_frame {t : State} {bytes : List Byte} {w : Word} (hinv : Jpeg.Inv s.cfg s.jpeg)
    (e : exec (.jpegFrag m seq ts off len d) s = .next t)
    (htrace : t.trace = s.trace ++ [.frameJpeg ts bytes, .result w]) :
    FragmentTaken s off len ∧ ¬ fragmentDiscarded s ts ∧
      FrameTotal (fragmentKept m seq ts off len d s).slots m seq ts off len bytes.length ∧
      FragmentChain (fragmentKept m seq ts off len d s).slots seq ts ∧
      bytes = frameBytes s.epoch s.draws (selectedBuffer s.jpeg ts) bytes.length (fragmentKept m seq ts off len d s) ∧
      w = resultWord .frameReady (lengthField s.draws bytes.length) := by
  have hnotOne (v : Word) : t.trace ≠ s.trace ++ [.result v] := fun hv => by
    simpa using List.append_cancel_left (htrace.symm.trans hv)
  have htaken : FragmentTaken s off len := by
    obtain rfl | rfl | ⟨hoff, hend, -⟩ := execJpegFrag_cases e
    · exact absurd rfl (hnotOne _)
    · exact absurd rfl (hnotOne _)
    · obtain ⟨hinit, -⟩ := hinv
      obtain ⟨-, -, -, -, -, hpos, -⟩ := s.cfg.legal
      exact ⟨hoff, by omega, hend⟩
  have hkept : ¬ fragmentDiscarded s ts := fun hd => by
    cases e.symm.trans (exec_jpegFrag_discarded htaken hd)
    exact hnotOne _ rfl
  by_cases hmissing : (∀ total, ¬ FrameTotal (fragmentKept m seq ts off len d s).slots m seq ts off len total) ∨
      ¬ FragmentChain (fragmentKept m seq ts off len d s).slots seq ts
  · cases e.symm.trans (exec_jpegFrag_waits htaken hkept hmissing)
    exact absurd rfl (hnotOne _)
  · obtain ⟨htotal, hchain⟩ := not_or.1 hmissing
    obtain ⟨total, htotal⟩ := not_forall_not.1 htotal
    have hchain := not_not.1 hchain
    cases e.symm.trans (exec_jpegFrag_handsOut htaken hkept htotal hchain)
    rw [emitFrame_trace, List.append_assoc] at htrace
    have hevents := List.append_cancel_left htrace
    injection hevents with hframe hresult
    injection hframe with _ hbytes
    injection hresult with hresult _
    injection hresult with hword
    have hlen : bytes.length = total := hbytes ▸ Memory.length_readFront ..
    rw [hlen]
    exact ⟨htaken, hkept, htotal, hchain, hbytes.symm, hword.symm⟩

/-- The fragment kept, kept again: the slot, the buffer and the capacity are already so (42_jpeg_reassembler.md R173). -/
theorem fragmentKept_again {t : State} (hinv : Jpeg.Inv s.cfg s.jpeg) (h : FragmentTaken s off len)
    (htinv : Jpeg.Inv s.cfg t.jpeg)
    (ht : t.jpeg = { fragmentKept m seq ts off len d s with jframeCnt := t.jpeg.jframeCnt }) :
    FragmentTaken t off len ∧ ¬ fragmentDiscarded t ts ∧ selectedBuffer t.jpeg ts = selectedBuffer s.jpeg ts ∧
      fragmentKept m seq ts off len d t = t.jpeg := by
  obtain ⟨hend, hle, -⟩ := growFor_spec h
  have hcap : t.jpeg.jcap = (growFor (off.toNat + len.toNat) s.jpeg).jcap := by rw [ht]; exact fragmentStored_jcap ..
  rw [← hcap] at hend hle
  have hrb : t.jpeg.rb (selectedBuffer s.jpeg ts) = ⟨true, ts, false,
      (s.jpeg.rb (selectedBuffer s.jpeg ts)).data.writeBytes off.toNat (payloadBytes len d)⟩ := by
    rw [ht]; exact (Jpeg.rb_with_jframeCnt ..).trans fragmentKept_rb
  have hslots : t.jpeg.slots = putSlot s.jpeg.slots (slotOf seq) ⟨true, seq, off, ts, if m then len else 0⟩ := by
    rw [ht]; exact fragmentKept_slots
  obtain ⟨hsel, hnot⟩ := selectedBuffer_of_holdsFrame (b := selectedBuffer s.jpeg ts) (ts := ts) htinv
    (by rw [hrb]; exact ⟨rfl, rfl⟩)
  have hput : putSlot t.jpeg.slots (slotOf seq) ⟨true, seq, off, ts, if m then len else 0⟩ = t.jpeg.slots := by
    rw [hslots]; exact Vector.set_set ..
  have hsame : (⟨true, ts, false, (t.jpeg.rb (selectedBuffer s.jpeg ts)).data.writeBytes off.toNat
      (payloadBytes len d)⟩ : JpegBuf) = t.jpeg.rb (selectedBuffer s.jpeg ts) := by
    obtain ⟨hwf, -⟩ := rb_inv hinv (selectedBuffer s.jpeg ts)
    rw [hrb, Memory.writeBytes_again hwf]
  refine ⟨⟨h.1, by omega, .inl hend⟩, ?_, hsel, ?_⟩
  · rw [fragmentDiscarded, if_neg hnot, hsel, hrb]
    exact Bool.false_ne_true
  · rw [fragmentKept, fragmentStored, growFor_of_le hend, decCntAfter, if_neg hnot, hput, hsel, hsame]
    exact Jpeg.setRb_rb ..

/-- The front of a buffer inside the capacity does not depend on the frames already handed out (log entry 5). -/
theorem frameBytes_of_le_jcap {total : Nat} {b : BufIx} {j j' : Jpeg} (hrb : j'.rb b = j.rb b) (hcap : j'.jcap = j.jcap)
    (hle : total ≤ j.jcap.toNat) (epoch draw draw' : Nat) :
    frameBytes epoch draw' b total j' = frameBytes epoch draw b total j := by
  unfold frameBytes
  rw [hrb, hcap]
  exact Memory.readFront_congr fun a ha => by rw [if_pos (by omega), if_pos (by omega)]

/-- Settles O50: the second delivery finds its slot, its buffer and its capacity as it would leave them. -/
theorem jpegDuplicateHandsOutAgain : Obligations.JpegDuplicateHandsOutAgain := by
  intro m seq len ts off d s t bytes w hinv _ e htrace hcap hwide
  obtain ⟨htaken, hkept, htotal, hchain, hbytes, hw⟩ := exec_jpegFrag_of_frame hinv e htrace
  have htinv := execJpegFrag_inv hinv e
  have hepoch : t.epoch = s.epoch := (execJpegFrag_keepsPacker e).epoch
  obtain ⟨t', e', hj⟩ := exec_jpegFrag_keeps m seq d htaken hkept
  cases e.symm.trans e'
  obtain ⟨htaken', hkept', hsel, hagain⟩ := fragmentKept_again hinv htaken htinv hj
  have hstate : fragmentKept m seq ts off len d t =
      { fragmentKept m seq ts off len d s with jframeCnt := t.jpeg.jframeCnt } := hagain.trans hj
  have hslots : (fragmentKept m seq ts off len d t).slots = (fragmentKept m seq ts off len d s).slots := by rw [hstate]
  have hrb (b : BufIx) : (fragmentKept m seq ts off len d t).rb b = (fragmentKept m seq ts off len d s).rb b := by
    rw [hstate]; exact Jpeg.rb_with_jframeCnt ..
  have hsamecap : (fragmentKept m seq ts off len d t).jcap = (fragmentKept m seq ts off len d s).jcap := by rw [hstate]
  rw [← hagain, hsamecap] at hcap
  have hframe : frameBytes t.epoch t.draws (selectedBuffer t.jpeg ts) bytes.length
      (fragmentKept m seq ts off len d t) = bytes := by
    rw [hepoch, hsel]
    exact (frameBytes_of_le_jcap (hrb _) hsamecap hcap ..).trans hbytes.symm
  have hword : resultWord .frameReady (lengthField t.draws bytes.length) = w := by
    rw [hw, lengthField, lengthField, if_pos hwide, if_pos hwide]
  rw [← hslots] at htotal hchain
  refine ⟨_, exec_jpegFrag_handsOut htaken' hkept' htotal hchain, ?_, by rw [emitFrame_jpeg, hagain]⟩
  rw [emitFrame_trace, hframe, hword, List.append_assoc]
  rfl

end Sys2Proof.Machine
end

section
/-! The fragments of one frame in any order (42_jpeg_reassembler.md R175): where they lie in the frame and in the slot
ring, what the reassembler keeps of those that arrived, and the frame it hands out with the last missing one. -/

namespace Sys2Proof.Machine

variable {parts : List JpegPart} {seq : BitVec 16} {ts : Word} {done : List Nat} {k : Nat}

/-! ## Where a fragment lies in its frame -/

/-- Fragment `k` of a frame, as `partCommand` reads it. -/
def partAt (parts : List JpegPart) (k : Nat) : JpegPart := parts.getD k ⟨0, []⟩

/-- The bytes of the whole frame. -/
def wholeFrame (parts : List JpegPart) : List Byte := parts.flatMap fun p => payloadBytes p.len p.data

/-- A frame the reassembler can rebuild: at most 64 fragments, none empty, inside `JPEG_MAX`, and no decimation. -/
structure Rebuildable (cfg : Config) (parts : List JpegPart) : Prop where
  count : parts.length ≤ 64
  whole : ∀ p ∈ parts, 0 < p.len.toNat ∧ p.data.length = wordsFor 4 p.len.toNat
  fits : partOffset parts parts.length ≤ cfg.params.jpegMax
  keepsAll : cfg.params.decimate = 0

@[simp] theorem partOffset_zero (parts : List JpegPart) : partOffset parts 0 = 0 := rfl

@[simp] theorem partOffset_cons (p : JpegPart) (ps : List JpegPart) (k : Nat) :
    partOffset (p :: ps) (k + 1) = p.len.toNat + partOffset ps k := by simp [partOffset]

theorem partAt_mem (hk : k < parts.length) : partAt parts k ∈ parts := by
  rw [partAt, List.getD_eq_getElem _ _ hk]
  exact List.getElem_mem hk

/-- A fragment ends where the next one begins. -/
theorem partOffset_succ (hk : k < parts.length) :
    partOffset parts (k + 1) = partOffset parts k + (partAt parts k).len.toNat := by
  rw [partAt, List.getD_eq_getElem _ _ hk, partOffset, partOffset, List.map_take, List.map_take,
    List.sum_take_succ _ _ (by simpa using hk), List.getElem_map]

theorem partOffset_mono (parts : List JpegPart) : Monotone (partOffset parts) := by
  refine monotone_nat_of_le_succ fun k => ?_
  by_cases hk : k < parts.length
  · rw [partOffset_succ hk]; omega
  · have hle := Nat.not_lt.1 hk
    simp [partOffset, List.take_of_length_le hle, List.take_of_length_le (Nat.le_succ_of_le hle)]

/-- Of a frame with no empty fragment, the first alone is at offset 0. -/
theorem partOffset_eq_zero_iff (hw : ∀ p ∈ parts, 0 < p.len.toNat) (hk : k < parts.length) :
    partOffset parts k = 0 ↔ k = 0 := by
  refine ⟨fun h => ?_, fun h => by rw [h, partOffset_zero]⟩
  by_contra hne
  obtain ⟨i, rfl⟩ := Nat.exists_eq_succ_of_ne_zero hne
  have := hw _ (partAt_mem (Nat.lt_of_succ_lt hk))
  rw [Nat.succ_eq_add_one, partOffset_succ (Nat.lt_of_succ_lt hk)] at h
  omega

/-- Every byte of a frame lies in one of its fragments. -/
theorem exists_part_of_lt {a : Nat} (h : a < partOffset parts k) (hk : k ≤ parts.length) :
    ∃ i < k, partOffset parts i ≤ a ∧ a < partOffset parts (i + 1) := by
  induction k with
  | zero => exact absurd h (Nat.not_lt_zero a)
  | succ k ih =>
    by_cases hlast : partOffset parts k ≤ a
    · exact ⟨k, Nat.lt_succ_self k, hlast, h⟩
    · obtain ⟨i, hi, hin⟩ := ih (Nat.not_le.1 hlast) (Nat.le_of_succ_le hk)
      exact ⟨i, Nat.lt_succ_of_lt hi, hin⟩

/-- The frame is as long as its fragments together. -/
theorem length_wholeFrame (hw : ∀ p ∈ parts, p.data.length = wordsFor 4 p.len.toNat) :
    (wholeFrame parts).length = partOffset parts parts.length := by
  induction parts with
  | nil => rfl
  | cons p ps ih =>
    obtain ⟨hp, hps⟩ := List.forall_mem_cons.1 hw
    rw [wholeFrame, List.flatMap_cons, List.length_append, length_payloadBytes hp, List.length_cons, partOffset_cons,
      ← ih hps]
    rfl

/-- A fragment's payload is the frame's bytes from its offset on. -/
theorem getElem?_payload_part (hw : ∀ p ∈ parts, p.data.length = wordsFor 4 p.len.toNat) {a : Nat}
    (hk : k < parts.length) (hlo : partOffset parts k ≤ a) (hhi : a < partOffset parts (k + 1)) :
    (payloadBytes (partAt parts k).len (partAt parts k).data)[a - partOffset parts k]? = (wholeFrame parts)[a]? := by
  induction parts generalizing k a with
  | nil => exact absurd hk (Nat.not_lt_zero k)
  | cons p ps ih =>
    obtain ⟨hp, hps⟩ := List.forall_mem_cons.1 hw
    have hlen := length_payloadBytes hp
    rw [wholeFrame, List.flatMap_cons]
    cases k with
    | zero =>
      rw [partOffset_cons, partOffset_zero] at hhi
      rw [partOffset_zero, Nat.sub_zero, List.getElem?_append_left (by omega)]
      rfl
    | succ k =>
      rw [partOffset_cons] at hlo hhi ⊢
      rw [List.getElem?_append_right (by omega), hlen, Nat.sub_add_eq]
      exact ih hps (Nat.lt_of_succ_lt_succ hk) (by omega) (by omega)

section Rebuildable

variable {cfg : Config}

theorem Rebuildable.nonempty (h : Rebuildable cfg parts) : ∀ p ∈ parts, 0 < p.len.toNat := fun p hp => (h.whole p hp).1

theorem Rebuildable.words (h : Rebuildable cfg parts) : ∀ p ∈ parts, p.data.length = wordsFor 4 p.len.toNat :=
  fun p hp => (h.whole p hp).2

/-- No fragment ends past the frame, nor does the frame need more than 24 bits. -/
theorem Rebuildable.offset_lt (h : Rebuildable cfg parts) (hk : k ≤ parts.length) :
    partOffset parts k ≤ cfg.params.jpegMax ∧ partOffset parts k < 2 ^ 24 := by
  obtain ⟨-, -, -, -, ⟨-, hmax⟩, -⟩ := cfg.legal
  have hle := partOffset_mono parts hk
  have hfits := h.fits
  omega

/-- The offset operand of a fragment is its offset. -/
theorem Rebuildable.toNat_offset (h : Rebuildable cfg parts) (hk : k ≤ parts.length) :
    (BitVec.ofNat 32 (partOffset parts k)).toNat = partOffset parts k :=
  Nat.mod_eq_of_lt (by have := (h.offset_lt hk).2; omega)

end Rebuildable

/-! ## Where it lies in the slot ring (R164, R169, R170) -/

theorem val_slotOf_add (seq : BitVec 16) (k : Nat) : (slotOf (seq + BitVec.ofNat 16 k)).1 = (seq.toNat + k) % 64 := by
  show (seq + BitVec.ofNat 16 k).toNat % 64 = _
  rw [BitVec.toNat_add, BitVec.toNat_ofNat]
  omega

/-- Sequence numbers have one slot exactly where they agree modulo 64. -/
theorem slotOf_add_eq_iff {p q : Nat} :
    slotOf (seq + BitVec.ofNat 16 p) = slotOf (seq + BitVec.ofNat 16 q) ↔ p % 64 = q % 64 := by
  rw [Fin.ext_iff, val_slotOf_add, val_slotOf_add]
  omega

theorem slotAfter_slotOf_add (slots : Vector Slot 64) (seq : BitVec 16) (k n : Nat) :
    slotAfter slots (slotOf (seq + BitVec.ofNat 16 k)) n = slotAt slots (slotOf (seq + BitVec.ofNat 16 (k + n))) := by
  have : slotIx ((slotOf (seq + BitVec.ofNat 16 k)).1 + n) = slotOf (seq + BitVec.ofNat 16 (k + n)) := by
    rw [Fin.ext_iff, val_slotOf_add, slotIx, val_slotOf_add]
    show ((seq.toNat + k) % 64 + n) % 64 = _
    omega
  rw [slotAfter, this]

/-- The sequence number `j` before that of fragment `k`. -/
theorem seq_add_sub {j : Nat} (h : j ≤ k) :
    seq + BitVec.ofNat 16 k - BitVec.ofNat 16 j = seq + BitVec.ofNat 16 (k - j) := by
  rw [← Nat.sub_add_cancel h, BitVec.ofNat_add, ← BitVec.add_assoc, BitVec.add_sub_cancel, Nat.add_sub_cancel]

/-- The slot of fragment `k` once it arrived. -/
def partSlot (parts : List JpegPart) (seq : BitVec 16) (ts : Word) (k : Nat) : Slot :=
  ⟨true, seq + BitVec.ofNat 16 k, BitVec.ofNat 32 (partOffset parts k), ts,
    if decide (k + 1 = parts.length) then (partAt parts k).len else 0⟩

/-- Of the frame of `ts` the slots hold exactly the fragments `done`. -/
structure SlotsHold (parts : List JpegPart) (seq : BitVec 16) (ts : Word) (done : List Nat) (slots : Vector Slot 64) :
    Prop where
  lt : ∀ k ∈ done, k < parts.length
  part : ∀ k ∈ done, slotAt slots (slotOf (seq + BitVec.ofNat 16 k)) = partSlot parts seq ts k
  only : ∀ i, (slotAt slots i).valid = true → (slotAt slots i).ts = ts →
    ∃ k ∈ done, i = slotOf (seq + BitVec.ofNat 16 k)

section Slots

variable {cfg : Config} {slots : Vector Slot 64}

/-- A fragment more is recorded (42_jpeg_reassembler.md R164). -/
theorem SlotsHold.record (hr : Rebuildable cfg parts) (h : SlotsHold parts seq ts done slots) (hk : k < parts.length) :
    SlotsHold parts seq ts (k :: done)
      (putSlot slots (slotOf (seq + BitVec.ofNat 16 k)) (partSlot parts seq ts k)) := by
  have hcount := hr.count
  refine ⟨List.forall_mem_cons.2 ⟨hk, h.lt⟩, List.forall_mem_cons.2 ⟨slotAt_putSlot_same .., fun q hq => ?_⟩,
    fun i hv hts => ?_⟩
  · by_cases hqk : q = k
    · rw [hqk, slotAt_putSlot_same]
    · have := h.lt q hq
      rw [slotAt_putSlot_other (mt slotOf_add_eq_iff.1 (by omega)), h.part q hq]
  · by_cases hi : i = slotOf (seq + BitVec.ofNat 16 k)
    · exact ⟨k, List.mem_cons_self, hi⟩
    · rw [slotAt_putSlot_other hi] at hv hts
      obtain ⟨q, hq, hiq⟩ := h.only i hv hts
      exact ⟨q, List.mem_cons_of_mem _ hq, hiq⟩

/-- The chain of step 8 reaches back from fragment `k` exactly where every fragment up to it arrived
(42_jpeg_reassembler.md R170). -/
theorem SlotsHold.chain_iff (hr : Rebuildable cfg parts) (h : SlotsHold parts seq ts done slots)
    (hk : k < parts.length) :
    FragmentChain slots (seq + BitVec.ofNat 16 k) ts ↔ ∀ q ≤ k, q ∈ done := by
  have hcount := hr.count
  constructor
  · rintro ⟨j, hj, hv, hoff⟩
    have hback (i : Nat) (hi : i ≤ j) : i ≤ k ∧ k - i ∈ done := by
      obtain ⟨hvalid, hts, hseq⟩ := hv i hi
      obtain ⟨p, hp, hslot⟩ := h.only _ hvalid hts
      have hplt := h.lt p hp
      rw [hslot, h.part p hp] at hseq
      replace hseq : seq + BitVec.ofNat 16 p = seq + BitVec.ofNat 16 k - BitVec.ofNat 16 i := hseq
      have hsum : BitVec.ofNat 16 (p + i) = BitVec.ofNat 16 k := by
        rw [BitVec.ofNat_add, ← BitVec.add_right_inj seq, ← BitVec.add_assoc, hseq, BitVec.sub_add_cancel]
      have hnat := congrArg BitVec.toNat hsum
      rw [BitVec.toNat_ofNat, BitVec.toNat_ofNat] at hnat
      obtain rfl : p = k - i := by omega
      exact ⟨by omega, hp⟩
    obtain ⟨hjk, hjdone⟩ := hback j (Nat.le_refl j)
    have hstart : k - j = 0 := by
      rw [seq_add_sub hjk, h.part _ hjdone] at hoff
      have hzero := congrArg BitVec.toNat (show BitVec.ofNat 32 (partOffset parts (k - j)) = 0 from hoff)
      rw [hr.toNat_offset (by omega)] at hzero
      exact (partOffset_eq_zero_iff hr.nonempty (by omega)).1 hzero
    intro q hq
    obtain ⟨-, hdone⟩ := hback (k - q) (by omega)
    rwa [show k - (k - q) = q by omega] at hdone
  · intro hall
    refine ⟨k, by omega, fun j hj => ?_, ?_⟩
    · rw [seq_add_sub hj, h.part _ (hall _ (Nat.sub_le k j))]
      exact ⟨rfl, rfl, rfl⟩
    · rw [seq_add_sub (Nat.le_refl k), Nat.sub_self, h.part 0 (hall 0 (Nat.zero_le k))]
      rfl

/-- The last fragment's slot gives the frame's length. -/
theorem partSlot_last_end (hr : Rebuildable cfg parts) (hk : k + 1 = parts.length) :
    (partSlot parts seq ts k).off.toNat + (partSlot parts seq ts k).eof.toNat = partOffset parts parts.length := by
  have hlast : (partSlot parts seq ts k).eof = (partAt parts k).len := if_pos (decide_eq_true hk)
  rw [hlast, ← hk, partOffset_succ (by omega), ← hr.toNat_offset (k := k) (by omega)]
  rfl

/-- The last fragment's slot alone is an end of frame. -/
theorem partSlot_eof_ne_zero_iff (hr : Rebuildable cfg parts) (hk : k < parts.length) :
    (partSlot parts seq ts k).eof ≠ 0 ↔ k + 1 = parts.length := by
  have hpos := hr.nonempty _ (partAt_mem hk)
  by_cases hlast : k + 1 = parts.length
  · have hne : (partAt parts k).len ≠ 0 := fun hz => by rw [hz] at hpos; exact absurd hpos (by decide)
    simpa [partSlot, hlast] using hne
  · simp [partSlot, hlast]

/-- Going forward from fragment `k`, step 7 finds the end of the frame exactly where every fragment after it arrived
(42_jpeg_reassembler.md R169). -/
theorem SlotsHold.eofAhead_iff (hr : Rebuildable cfg parts) (h : SlotsHold parts seq ts done slots)
    (hk : k + 1 < parts.length) {total : Nat} :
    EofAhead slots (slotOf (seq + BitVec.ofNat 16 k)) ts total ↔
      total = partOffset parts parts.length ∧ ∀ q, k < q → q < parts.length → q ∈ done := by
  have hcount := hr.count
  simp only [EofAhead, slotAfter_slotOf_add]
  constructor
  · rintro ⟨n, h1, hn, hv, -, he, rfl⟩
    have hahead (j : Nat) (h1 : 1 ≤ j) (hj : j ≤ n) : ∃ p ∈ done, (k + j) % 64 = p % 64 := by
      obtain ⟨hvalid, hts⟩ := hv j h1 hj
      obtain ⟨p, hp, hslot⟩ := h.only _ hvalid hts
      exact ⟨p, hp, slotOf_add_eq_iff.1 hslot⟩
    obtain ⟨p, hp, hmod⟩ := hahead n h1 (Nat.le_refl n)
    have hplt := h.lt p hp
    rw [slotOf_add_eq_iff.2 hmod, h.part p hp] at he ⊢
    have hlast := (partSlot_eof_ne_zero_iff hr hplt).1 he
    refine ⟨partSlot_last_end hr hlast, fun q hkq hq => ?_⟩
    obtain ⟨r, hrdone, hmodr⟩ := hahead (q - k) (by omega) (by omega)
    have hrlt := h.lt r hrdone
    rwa [show r = q by omega] at hrdone
  · rintro ⟨rfl, hall⟩
    obtain ⟨n, hn⟩ : ∃ n, k + n + 1 = parts.length := ⟨parts.length - 1 - k, by omega⟩
    have hpart (j : Nat) (h1 : 1 ≤ j) (hj : j ≤ n) :
        slotAt slots (slotOf (seq + BitVec.ofNat 16 (k + j))) = partSlot parts seq ts (k + j) :=
      h.part _ (hall _ (by omega) (by omega))
    refine ⟨n, by omega, by omega, fun j h1 hj => ?_, fun j h1 hj => ?_, ?_, ?_⟩
    · rw [hpart j h1 hj]; exact ⟨rfl, rfl⟩
    · rw [hpart j h1 (by omega)]
      exact not_not.1 (mt (partSlot_eof_ne_zero_iff hr (by omega)).1 (by omega))
    · rw [hpart n (by omega) (Nat.le_refl n)]
      exact (partSlot_eof_ne_zero_iff hr (by omega)).2 hn
    · rw [hpart n (by omega) (Nat.le_refl n), partSlot_last_end hr hn]

/-- The total length is known at fragment `k` exactly where every fragment after it arrived. -/
theorem SlotsHold.frameTotal_iff (hr : Rebuildable cfg parts) (h : SlotsHold parts seq ts done slots)
    (hk : k < parts.length) {total : Nat} :
    FrameTotal slots (decide (k + 1 = parts.length)) (seq + BitVec.ofNat 16 k) ts
        (BitVec.ofNat 32 (partOffset parts k)) (partAt parts k).len total ↔
      total = partOffset parts parts.length ∧ ∀ q, k < q → q < parts.length → q ∈ done := by
  by_cases hlast : k + 1 = parts.length
  · rw [FrameTotal, if_pos (decide_eq_true hlast), hr.toNat_offset (Nat.le_of_lt hk), ← partOffset_succ hk, hlast]
    exact ⟨fun ht => ⟨ht, fun q hkq hq => by omega⟩, fun ht => ht.1⟩
  · rw [FrameTotal, if_neg (by simpa using hlast)]
    exact h.eofAhead_iff hr (by omega)

end Slots

/-! ## What the reassembler keeps of a frame in progress -/

/-- The reassembler is sound, drops no byte of the frame of `ts`, and of it holds exactly the fragments `done`, their
slots and their bytes. -/
structure Reassembling (parts : List JpegPart) (seq : BitVec 16) (ts : Word) (done : List Nat) (cfg : Config)
    (j : Jpeg) : Prop where
  inv : Jpeg.Inv cfg j
  undropped : ∀ b, holdsFrame (j.rb b) ts → (j.rb b).drop = false
  slots : SlotsHold parts seq ts done j.slots
  bytes : ∀ k ∈ done, ∀ a, partOffset parts k ≤ a → a < partOffset parts (k + 1) →
    (j.rb (selectedBuffer j ts)).data.read a = (wholeFrame parts)[a]?

/-- The reassembler once fragment `k` is kept. -/
def partKept (parts : List JpegPart) (seq : BitVec 16) (ts : Word) (k : Nat) (s : State) : Jpeg :=
  fragmentKept (decide (k + 1 = parts.length)) (seq + BitVec.ofNat 16 k) ts (BitVec.ofNat 32 (partOffset parts k))
    (partAt parts k).len (partAt parts k).data s

section Delivery

variable {s : State}

/-- The state in which a delivered command executes: its words are counted. -/
def State.consumed (i : Instr) (s : State) : State := { s with cp := s.cp + BitVec.ofNat 32 (encode i).length }

/-- A fragment of the frame is let through and not discarded (42_jpeg_reassembler.md R162, R163, R166, R167). -/
theorem Reassembling.taken (hr : Rebuildable s.cfg parts) (h : Reassembling parts seq ts done s.cfg s.jpeg)
    (hk : k < parts.length) :
    FragmentTaken s (BitVec.ofNat 32 (partOffset parts k)) (partAt parts k).len ∧ ¬ fragmentDiscarded s ts := by
  have hoff := hr.toNat_offset (Nat.le_of_lt hk)
  have hlt := (hr.offset_lt (Nat.le_of_lt hk)).2
  have hend := (hr.offset_lt hk).1
  rw [Nat.succ_eq_add_one, partOffset_succ hk] at hend
  obtain ⟨hinit, -⟩ := h.inv
  obtain ⟨-, -, -, -, -, hpos, -⟩ := s.cfg.legal
  refine ⟨⟨?_, by omega, .inr (by rwa [hoff])⟩, ?_⟩
  · rw [BitVec.toInt_eq_toNat_of_lt (by omega)]
    exact Int.natCast_nonneg _
  · unfold fragmentDiscarded
    split
    · exact fun hn => hn (.inl hr.keepsAll)
    · next hnot =>
      rw [h.undropped _ (holdsFrame_selectedBuffer hnot)]
      exact Bool.false_ne_true

/-- The reassembler stays in progress, one fragment further. -/
theorem Reassembling.kept (hr : Rebuildable s.cfg parts) (h : Reassembling parts seq ts done s.cfg s.jpeg)
    (hk : k < parts.length) : Reassembling parts seq ts (k :: done) s.cfg (partKept parts seq ts k s) := by
  obtain ⟨htaken, hkept⟩ := h.taken hr hk
  have hinv : Jpeg.Inv s.cfg (partKept parts seq ts k s) := by
    obtain ⟨t, e, ht⟩ := exec_jpegFrag_keeps (decide (k + 1 = parts.length)) (seq + BitVec.ofNat 16 k)
      (partAt parts k).data htaken hkept
    have htinv := execJpegFrag_inv h.inv e
    rw [ht] at htinv
    exact htinv
  have hrb : (partKept parts seq ts k s).rb (selectedBuffer s.jpeg ts) = _ := fragmentKept_rb
  have hother : (partKept parts seq ts k s).rb (selectedBuffer s.jpeg ts).other = _ := fragmentKept_rb_other
  obtain ⟨hsel, -⟩ := selectedBuffer_of_holdsFrame (b := selectedBuffer s.jpeg ts) (ts := ts) hinv
    (by rw [hrb]; exact ⟨rfl, rfl⟩)
  obtain ⟨hwf, -⟩ := rb_inv h.inv (selectedBuffer s.jpeg ts)
  have hread (a : Nat) : ((partKept parts seq ts k s).rb (selectedBuffer (partKept parts seq ts k s) ts)).data.read a =
      if partOffset parts k ≤ a ∧ a < partOffset parts (k + 1) then (wholeFrame parts)[a]?
      else (s.jpeg.rb (selectedBuffer s.jpeg ts)).data.read a := by
    rw [hsel, hrb, Memory.read_writeBytes hwf, length_payloadBytes (hr.words _ (partAt_mem hk)),
      hr.toNat_offset (Nat.le_of_lt hk), ← partOffset_succ hk]
    split
    · next hin => exact getElem?_payload_part hr.words hk hin.1 hin.2
    · rfl
  refine ⟨hinv, fun b hb => ?_, ?_, List.forall_mem_cons.2 ⟨fun a hlo hhi => ?_, fun q hq a hlo hhi => ?_⟩⟩
  · obtain rfl | rfl := (selectedBuffer s.jpeg ts).eq_or_eq_other b
    · rw [hrb]
    · rw [hother] at hb ⊢
      exact h.undropped _ hb
  · rw [partKept, fragmentKept_slots]
    exact h.slots.record hr hk
  · rw [hread, if_pos ⟨hlo, hhi⟩]
  · rw [hread, h.bytes q hq a hlo hhi, ite_self]

/-- While a fragment is missing, each one delivered answers NOT_READY (42_jpeg_reassembler.md R169, R170). -/
theorem Reassembling.deliver_waits (hr : Rebuildable s.cfg parts) (h : Reassembling parts seq ts done s.cfg s.jpeg)
    (hk : k < parts.length) {q : Nat} (hq : q < parts.length) (hmissing : q ∉ k :: done) :
    ∃ t, deliver (partCommand parts seq ts k) s = .next t ∧ t.cfg = s.cfg ∧ t.jpeg = partKept parts seq ts k s ∧
      t.trace = s.trace ++ [.result 0x01000000] := by
  obtain ⟨htaken, hkept⟩ := h.taken hr hk
  have hslots := (h.kept hr hk).slots
  refine ⟨_, exec_jpegFrag_waits (s := s.consumed (partCommand parts seq ts k)) htaken hkept ?_, rfl, rfl, rfl⟩
  obtain hkq | hqk := Nat.lt_or_ge k q
  · exact .inl fun total htotal => hmissing (((hslots.frameTotal_iff hr hk).1 htotal).2 q hkq hq)
  · exact .inr fun hchain => hmissing ((hslots.chain_iff hr hk).1 hchain q hqk)

/-- The whole frame is in the buffer once every fragment arrived. -/
theorem Reassembling.frameBytes_eq {cfg : Config} {j : Jpeg} (hr : Rebuildable cfg parts)
    (h : Reassembling parts seq ts done cfg j) (hall : ∀ q < parts.length, q ∈ done) (epoch draw : Nat) :
    frameBytes epoch draw (selectedBuffer j ts) (partOffset parts parts.length) j = wholeFrame parts := by
  have hlen := length_wholeFrame hr.words
  refine List.ext_getElem? fun a => ?_
  rw [frameBytes, Memory.getElem?_readFront]
  split
  · next ha =>
    obtain ⟨i, hi, hlo, hhi⟩ := exists_part_of_lt ha (Nat.le_refl _)
    rw [h.bytes i (hall i hi) a hlo hhi, List.getElem?_eq_getElem (hlen ▸ ha), Option.getD_some]
  · next ha => exact (List.getElem?_eq_none (by omega)).symm

/-- The last missing fragment hands out the whole frame (42_jpeg_reassembler.md R171, R175). -/
theorem Reassembling.deliver_completes (hr : Rebuildable s.cfg parts)
    (h : Reassembling parts seq ts done s.cfg s.jpeg) (hk : k < parts.length)
    (hall : ∀ q < parts.length, q ∈ k :: done) :
    ∃ t, deliver (partCommand parts seq ts k) s = .next t ∧
      t.trace = s.trace ++ [.frameJpeg ts (wholeFrame parts),
        .result (resultWord .frameReady (BitVec.ofNat 24 (partOffset parts parts.length)))] := by
  obtain ⟨htaken, hkept⟩ := h.taken hr hk
  have hnext := h.kept hr hk
  have hchain := (hnext.slots.chain_iff hr hk).2 fun q hq => hall q (by omega)
  have htotal := (hnext.slots.frameTotal_iff hr hk).2 ⟨rfl, fun q _ hq => hall q hq⟩
  have hheld : holdsFrame ((partKept parts seq ts k s).rb (selectedBuffer s.jpeg ts)) ts := by
    rw [partKept, fragmentKept_rb]
    exact ⟨rfl, rfl⟩
  have hframe := hnext.frameBytes_eq hr hall s.epoch s.draws
  rw [(selectedBuffer_of_holdsFrame hnext.inv hheld).1] at hframe
  refine ⟨_, exec_jpegFrag_handsOut (s := s.consumed (partCommand parts seq ts k)) htaken hkept htotal hchain, ?_⟩
  rw [emitFrame_trace, List.append_assoc, lengthField, if_pos (hr.offset_lt (Nat.le_refl _)).2]
  exact congrArg (fun bytes => s.trace ++ ([.frameJpeg ts bytes] ++ _)) hframe

/-- The fragments still missing, in whatever order they arrive, complete the frame: by induction on them. -/
theorem Reassembling.completes {rest : List Nat} (hr : Rebuildable s.cfg parts)
    (h : Reassembling parts seq ts done s.cfg s.jpeg) (hperm : (done ++ rest).Perm (List.range parts.length))
    (hrest : rest ≠ []) :
    ∃ t, deliverAll (rest.map (partCommand parts seq ts)) s = .next t ∧
      t.trace = s.trace ++ List.replicate (rest.length - 1) (.result 0x01000000) ++
        [.frameJpeg ts (wholeFrame parts),
          .result (resultWord .frameReady (BitVec.ofNat 24 (partOffset parts parts.length)))] := by
  induction rest generalizing done s with
  | nil => exact absurd rfl hrest
  | cons k rest ih =>
    have hperm' : (k :: done ++ rest).Perm (List.range parts.length) := List.perm_middle.symm.trans hperm
    have hmem (q : Nat) : q ∈ k :: done ++ rest ↔ q < parts.length := hperm'.mem_iff.trans List.mem_range
    have hk : k < parts.length := (hmem k).1 List.mem_cons_self
    cases rest with
    | nil =>
      rw [List.append_nil] at hmem
      obtain ⟨t, e, ht⟩ := h.deliver_completes hr hk fun q hq => (hmem q).2 hq
      exact ⟨t, deliverAll_cons e, by rw [ht]; simp⟩
    | cons q rest =>
      have hnodup := (hperm'.nodup_iff.2 List.nodup_range)
      have hmissing : q ∉ k :: done := fun hq => (List.nodup_append.1 hnodup).2.2 q hq q List.mem_cons_self rfl
      obtain ⟨t, e, hcfg, hjpeg, ht⟩ :=
        h.deliver_waits hr hk ((hmem q).1 (List.mem_append_right _ List.mem_cons_self)) hmissing
      have hnext := h.kept hr hk
      rw [← hcfg, ← hjpeg] at hnext
      obtain ⟨u, e', hu⟩ := ih (s := t) (hcfg ▸ hr) hnext hperm' (List.cons_ne_nil _ _)
      refine ⟨u, (deliverAll_cons e).trans e', ?_⟩
      rw [hu, ht]
      simp [List.replicate_succ]

end Delivery

/-- Settles O51: with none of its slots there the frame is in progress with no fragment, and `Reassembling.completes` goes
on from there. -/
theorem jpegAnyOrderRebuildsFrame : Obligations.JpegAnyOrderRebuildsFrame := by
  intro parts order seq ts s hinv hdec hdrop hslots hpos hcount hwhole hfits hperm
  have hr : Rebuildable s.cfg parts := ⟨hcount, hwhole, hfits, hdec⟩
  have hstart : Reassembling parts seq ts [] s.cfg s.jpeg :=
    ⟨hinv, hdrop, ⟨nofun, nofun, fun i hv hts => absurd hts (hslots i hv)⟩, nofun⟩
  have hlen : order.length = parts.length := by rw [hperm.length_eq, List.length_range]
  have hne : order ≠ [] := List.ne_nil_of_length_pos (by omega)
  have hall := hstart.completes hr hperm hne
  rwa [hlen] at hall

end Sys2Proof.Machine
end

section
/-! The H.261 reassembler's statements about one packet (43_h261_reassembler.md R190 to R200, R203): what H261.PKT does
with a runt, past the ring's end, inside the ring, and as a marker packet behind a gap. -/

namespace Sys2Proof.Machine

variable {s : State} {seq len : BitVec 16} {d : List Word}

/-! ## The header and the frame it finds -/

/-- Settles O53: the toggle is `parseHeader_snd`, and it names the layout used. -/
theorem h261HeaderParsed : Obligations.H261HeaderParsed := by
  intro bug hdr
  refine ⟨parseHeader_snd bug hdr, ?_⟩
  rw [parseHeader_toggle, parseHeader_snd]
  cases toggleAfter bug hdr <;> rfl

/-- A packet within the gap threshold goes on with the open frame (43_h261_reassembler.md R195). -/
theorem frameAfter_continues (hr : ¬ frameRestarts s seq) (hopen : s.h261.first ≠ 0xFFFFFFFF) :
    ringAfter s seq = s.h261.ring ∧ firstAfter s seq = s.h261.first :=
  ⟨if_neg hr, if_neg (not_or.2 ⟨hr, hopen⟩)⟩

/-- A packet after a gap, or with no frame open, opens one with an empty ring (43_h261_reassembler.md R195). -/
theorem frameAfter_opens (h : H261.Inv s.cfg s.h261) (ho : frameRestarts s seq ∨ s.h261.first = 0xFFFFFFFF) :
    ringAfter s seq = [] ∧ firstAfter s seq = firstOf seq := by
  obtain ⟨-, -, hclosed, -⟩ := h
  refine ⟨?_, if_pos ho⟩
  by_cases hr : frameRestarts s seq
  · exact if_pos hr
  · exact (if_neg hr).trans (hclosed (ho.resolve_left hr))

/-! ## H261.PKT -/

/-- Settles O52: three bytes make no payload header. -/
theorem h261RuntDropped : Obligations.H261RuntDropped := by
  intro m seq len d s hlen
  have hnone : splitHeader (payloadBytes len d) = none := by
    refine Option.not_isSome_iff_eq_none.1 (mt splitHeader_isSome.1 ?_)
    have := length_payloadBytes_le len d
    omega
  show execH261Pkt m seq len d s = _
  rw [execH261Pkt, hnone]
  rfl

section Whole

variable (h4 : 4 ≤ len.toNat) (hd : d.length = (len.toNat + 3) / 4)

include h4 hd

/-- A packet with a whole header goes on to frame start (43_h261_reassembler.md R190). -/
theorem exec_h261Pkt_accepts (m : Bool) (seq : BitVec 16) (s : State) :
    exec (.h261Pkt m seq len d) s = .next (acceptPacket m seq (d.getD 0 0) ((payloadBytes len d).drop 4) s) := by
  show execH261Pkt m seq len d s = _
  rw [execH261Pkt, splitHeader_payloadBytes h4 (List.ne_nil_of_length_pos (by omega))]

/-- Past the ring's end a packet overflows (43_h261_reassembler.md R198). -/
theorem exec_h261Pkt_overflows (m : Bool) (hidx : s.cfg.params.ringSize ≤ ringIndex seq (firstAfter s seq)) :
    exec (.h261Pkt m seq len d) s =
      .next (overflowRing m { s with h261 := openedRing s seq (d.getD 0 0) }) := by
  rw [exec_h261Pkt_accepts h4 hd, acceptPacket_eq, if_pos hidx]

/-- Inside the ring it is stored (43_h261_reassembler.md R199). -/
theorem exec_h261Pkt_stores (m : Bool) (hidx : ringIndex seq (firstAfter s seq) < s.cfg.params.ringSize) :
    exec (.h261Pkt m seq len d) s =
      .next (storePacket m (ringIndex seq (firstAfter s seq))
        (ringPacket s seq (d.getD 0 0) ((payloadBytes len d).drop 4))
        { s with h261 := openedRing s seq (d.getD 0 0) }) := by
  rw [exec_h261Pkt_accepts h4 hd, acceptPacket_eq, if_neg (Nat.not_le.2 hidx)]

end Whole

/-- Settles O54: the packet is stored and nothing is completed. -/
theorem h261PacketStored : Obligations.H261PacketStored := by
  intro seq len d s hinv h4 hd hidx
  obtain ⟨hrise, -, -⟩ := ringAfter_spec seq hinv
  exact ⟨_, exec_h261Pkt_stores h4 hd false hidx, tableGet_tableSet_same ..,
    fun k hk => tableGet_tableSet_other hrise hk⟩

/-- Settles O55: the marker bit alone says whether the frame is closed. -/
theorem h261RingOverflows : Obligations.H261RingOverflows := by
  intro m seq len d s h4 hd hidx
  rw [exec_h261Pkt_overflows h4 hd m hidx]
  cases m <;> rfl

/-- Settles O56: the index empty before the packet is stored is empty after, so completion collects no frame. -/
theorem h261GapVoidsFrame : Obligations.H261GapVoidsFrame := by
  intro seq len d s hinv h4 hd hidx ⟨j, hj, hempty⟩
  obtain ⟨hrise, -, -⟩ := ringAfter_spec seq hinv
  rw [exec_h261Pkt_stores h4 hd true hidx]
  generalize ringPacket s seq (d.getD 0 0) ((payloadBytes len d).drop 4) = p
  have hnone : collect (tableSet (ringAfter s seq) (ringIndex seq (firstAfter s seq)) p)
      (ringIndex seq (firstAfter s seq) + 1) = none :=
    collect_eq_none.2 ⟨j, by omega, (tableGet_tableSet_other hrise (Nat.ne_of_lt hj)).trans hempty⟩
  obtain ⟨p0, ps, hsome, -⟩ | ⟨-, hvoid⟩ := completeFrame_cases (ringIndex seq (firstAfter s seq)) p
    { s with h261 := { openedRing s seq (d.getD 0 0) with
      ring := tableSet (ringAfter s seq) (ringIndex seq (firstAfter s seq)) p } }
  · exact absurd (hsome.symm.trans hnone) nofun
  · exact congrArg Host.Outcome.next hvoid

/-- Settles O60: an open frame's `first` is a 16-bit number, so the index is the one of the first part; past the ring's
end the packet overflows into the frame as it was. -/
theorem h261IndexAndOlderPackets : Obligations.H261IndexAndOlderPackets := by
  refine ⟨ringIndex_firstOf, fun seq len d s ⟨_, _, _, hopen⟩ hr hf holder h4 hd => ?_⟩
  obtain ⟨hfirst, -, -⟩ := hopen hf
  obtain ⟨first, hof⟩ : ∃ first : BitVec 16, s.h261.first = firstOf first :=
    ⟨BitVec.ofNat 16 s.h261.first.toNat, BitVec.eq_of_toNat_eq (by simp [firstOf]; omega)⟩
  have hnat : s.h261.first.toNat = first.toNat := by
    have := first.isLt
    rw [hof, firstOf, BitVec.toNat_setWidth]
    omega
  have hindex : ringIndex seq s.h261.first = 65535 - (s.h261.first.toNat - seq.toNat) := by
    have := first.isLt
    rw [hnat] at holder ⊢
    rw [hof, ringIndex_firstOf, if_neg (Nat.not_le.2 holder)]
    omega
  obtain ⟨hring, hfirst'⟩ := frameAfter_continues hr hf
  exact ⟨hindex, fun hpast =>
    ⟨_, exec_h261Pkt_overflows h4 hd false (by rwa [hfirst', hindex]), rfl, hring, hfirst', rfl⟩⟩

end Sys2Proof.Machine
end

section
/-! The packets of one H.261 frame, each within the gap threshold of the one before (43_h261_reassembler.md R201, R202):
what the ring holds of those that arrived, and the frame the marker packet hands out. -/

namespace Sys2Proof.Machine

variable {parts : List H261Part} {seq : BitVec 16} {done : List Nat} {k : Nat}

/-! ## A packet of the frame -/

/-- Packet `k` of a frame, as `packetCommand` reads it. -/
def packetAt (parts : List H261Part) (k : Nat) : H261Part := parts.getD k ⟨0, []⟩

/-- A frame the ring can take: at most `RING_SIZE` packets, all whole, their sequence numbers without a wrap. -/
structure RingSized (cfg : Config) (parts : List H261Part) (seq : BitVec 16) : Prop where
  count : parts.length ≤ cfg.params.ringSize
  noWrap : seq.toNat + parts.length ≤ 65536
  whole : ∀ p ∈ parts, H261Part.Whole cfg.params.maxPktBytes p

theorem getElem?_packetAt (hk : k < parts.length) : parts[k]? = some (packetAt parts k) := by
  rw [packetAt, List.getD_eq_getElem _ _ hk, List.getElem?_eq_getElem hk]

/-- The command of packet `k`, its marker bit given. -/
theorem packetCommand_eq {marked m : Bool} (h : (marked && decide (k + 1 = parts.length)) = m) :
    packetCommand parts marked seq k =
      .h261Pkt m (seq + BitVec.ofNat 16 k) (packetAt parts k).len (packetAt parts k).data :=
  h ▸ rfl

/-- A whole packet's header is its first data word (20_memory.md R64). -/
theorem H261Part.Whole.hdr_eq {maxPkt : Nat} {p : H261Part} (h : H261Part.Whole maxPkt p) :
    p.hdr = p.data.getD 0 0 := by
  obtain ⟨h4, -, hd⟩ := h
  rw [wordsFor_four] at hd
  rw [H261Part.hdr, splitHeader_payloadBytes h4 (List.ne_nil_of_length_pos (by omega))]
  rfl

section RingSized

variable {cfg : Config}

theorem RingSized.packet (h : RingSized cfg parts seq) (hk : k < parts.length) :
    H261Part.Whole cfg.params.maxPktBytes (packetAt parts k) :=
  h.whole _ (List.mem_of_getElem? (getElem?_packetAt hk))

theorem RingSized.toNat_seq (h : RingSized cfg parts seq) (hk : k < parts.length) :
    (seq + BitVec.ofNat 16 k).toNat = seq.toNat + k := by
  have := h.noWrap
  rw [BitVec.toNat_add, BitVec.toNat_ofNat]
  omega

/-- Packet `k` belongs at index `k` (43_h261_reassembler.md R196). -/
theorem RingSized.index (h : RingSized cfg parts seq) (hk : k < parts.length) :
    ringIndex (seq + BitVec.ofNat 16 k) (firstOf seq) = k := by
  rw [ringIndex_firstOf, h.toNat_seq hk, if_pos (Nat.le_add_right _ _), Nat.add_sub_cancel_left]

end RingSized

/-- What R199 stores of a packet, but for the fields parsed from its header. -/
def RingPkt.contents (p : RingPkt) : BitVec 16 × Word × List Byte := (p.seq, p.hdr, p.payload)

/-- What the ring is to store of packet `k`. -/
def H261Part.contents (seq : BitVec 16) (k : Nat) (p : H261Part) : BitVec 16 × Word × List Byte :=
  (seq + BitVec.ofNat 16 k, p.hdr, p.bytes)

/-- SBIT and EBIT stand at the same bits in both layouts (43_h261_reassembler.md R192, R193). -/
theorem sbit_ebit_of_layout {f : H261Fields} {hdr : Word} (h : f = stdFields hdr ∨ f = swpFields hdr) :
    f.sbit = hdr.extractLsb' 29 3 ∧ f.ebit = hdr.extractLsb' 26 3 := by
  obtain rfl | rfl := h <;> exact ⟨rfl, rfl⟩

/-! ## The ring of a frame in progress -/

/-- The ring holds exactly the packets `done` of the frame, each at its index. -/
structure RingHolds (parts : List H261Part) (seq : BitVec 16) (done : List Nat) (ring : List (Nat × RingPkt)) :
    Prop where
  rising : Rising ring
  held : ∀ i, (tableGet ring i).map RingPkt.contents =
    (if i ∈ done then parts[i]? else none).map (H261Part.contents seq i)

section Ring

variable {ring : List (Nat × RingPkt)} {p : RingPkt}

theorem ringHolds_nil : RingHolds parts seq [] [] := ⟨List.Pairwise.nil, fun _ => rfl⟩

/-- A packet more is stored (43_h261_reassembler.md R199). -/
theorem RingHolds.store (h : RingHolds parts seq done ring) (hk : k < parts.length)
    (hp : p.contents = (packetAt parts k).contents seq k) : RingHolds parts seq (k :: done) (tableSet ring k p) := by
  refine ⟨rising_tableSet h.rising, fun i => ?_⟩
  by_cases hi : i = k
  · rw [hi, tableGet_tableSet_same, if_pos List.mem_cons_self, getElem?_packetAt hk]
    exact congrArg some hp
  · rw [tableGet_tableSet_other h.rising hi, h.held]
    simp [hi]

/-- A front of the ring all of whose packets arrived can be collected. -/
theorem RingHolds.exists_collect (h : RingHolds parts seq done ring) {n : Nat} (hn : n ≤ parts.length)
    (hall : ∀ i < n, i ∈ done) : ∃ ps, collect ring n = some ps := by
  refine Option.ne_none_iff_exists'.1 fun hnone => ?_
  obtain ⟨i, hi, hempty⟩ := collect_eq_none.1 hnone
  have hheld := h.held i
  rw [hempty, if_pos (hall i hi), getElem?_packetAt (by omega)] at hheld
  cases hheld

/-- The packets collected from a full ring have the headers and the bytes of the frame's, in order. -/
theorem RingHolds.hdrs_payloads_of_collect (h : RingHolds parts seq done ring) (hall : ∀ i < parts.length, i ∈ done)
    {ps : List RingPkt} (hc : collect ring parts.length = some ps) :
    ps.map (·.hdr) = parts.map H261Part.hdr ∧ ps.map (·.payload) = parts.map H261Part.bytes := by
  obtain ⟨hlen, hget⟩ := collect_eq_some.1 hc
  have hcontents (i : Nat) : (ps[i]?).map RingPkt.contents = (parts[i]?).map (H261Part.contents seq i) := by
    by_cases hi : i < parts.length
    · rw [← hget i hi, h.held, if_pos (hall i hi)]
    · rw [List.getElem?_eq_none (by omega), List.getElem?_eq_none (by omega)]
      rfl
  constructor <;> refine List.ext_getElem? fun i => ?_ <;> rw [List.getElem?_map, List.getElem?_map]
  · have := congrArg (Option.map (·.2.1)) (hcontents i)
    rwa [Option.map_map, Option.map_map] at this
  · have := congrArg (Option.map (·.2.2)) (hcontents i)
    rwa [Option.map_map, Option.map_map] at this

end Ring

/-! ## Delivery -/

/-- The reassembler is sound and ready for packet `k`: its frame start gives the frame of `seq` and a ring that holds
exactly the packets `done`. -/
structure ReadyFor (parts : List H261Part) (seq : BitVec 16) (done : List Nat) (k : Nat) (s : State) : Prop where
  inv : H261.Inv s.cfg s.h261
  first : firstAfter s (seq + BitVec.ofNat 16 k) = firstOf seq
  ring : RingHolds parts seq done (ringAfter s (seq + BitVec.ofNat 16 k))

/-- The frame of `seq` is open and sound, holds exactly the packets `done`, and `k` is the latest. -/
structure InProgress (parts : List H261Part) (seq : BitVec 16) (done : List Nat) (k : Nat) (s : State) : Prop where
  inv : H261.Inv s.cfg s.h261
  first : s.h261.first = firstOf seq
  valid : s.h261.lastValid = true
  latest : s.h261.lastSeq = seq + BitVec.ofNat 16 k
  ring : RingHolds parts seq done s.h261.ring

/-- The frame `f` is the one of `parts`, whole and in order (10_state.md R33). -/
structure WholeH261Frame (parts : List H261Part) (seq : BitVec 16) (f : H261Frame) : Prop where
  first : f.first = firstOf seq
  npkt : f.npkt = parts.length
  bytes : f.bytes = parts.flatMap H261Part.bytes
  hdrs : f.hdrs = parts.map H261Part.hdr
  sbit : some f.sbit = parts.head?.map (·.hdr.extractLsb' 29 3)
  ebit : some f.ebit = parts.getLast?.map (·.hdr.extractLsb' 26 3)

variable {s : State} {marked : Bool}

/-- The packet that opens the frame (43_h261_reassembler.md R195). -/
theorem readyFor_opening (h : H261.Inv s.cfg s.h261) (ho : frameRestarts s seq ∨ s.h261.first = 0xFFFFFFFF) :
    ReadyFor parts seq [] 0 s := by
  obtain ⟨hring, hfirst⟩ := frameAfter_opens h ho
  have hseq : seq + BitVec.ofNat 16 0 = seq := BitVec.add_zero seq
  refine ⟨h, ?_, ?_⟩ <;> rw [hseq]
  · exact hfirst
  · rw [hring]
    exact ringHolds_nil

/-- A packet within the gap threshold of the latest one goes on with the frame (43_h261_reassembler.md R195, R202). -/
theorem InProgress.readyFor {q : Nat} (hr : RingSized s.cfg parts seq) (h : InProgress parts seq done k s)
    (hk : k < parts.length) (hq : q < parts.length) (hgap : withinGap s.cfg.params.gap k q) :
    ReadyFor parts seq done q s := by
  have hgoes : ¬ frameRestarts s (seq + BitVec.ofNat 16 q) := by
    simp only [frameRestarts, h.valid, h.latest, hr.toNat_seq hk, hr.toNat_seq hq, Bool.true_eq_false, false_or]
    unfold withinGap at hgap
    omega
  obtain ⟨hring, hfirst⟩ := frameAfter_continues hgoes (h.first ▸ firstOf_ne seq)
  exact ⟨h.inv, hfirst.trans h.first, hring ▸ h.ring⟩

/-- Packet `k` as the ring stores it (43_h261_reassembler.md R199). -/
def packetStored (parts : List H261Part) (seq : BitVec 16) (k : Nat) (s : State) : RingPkt :=
  ringPacket s (seq + BitVec.ofNat 16 k) ((packetAt parts k).data.getD 0 0) (packetAt parts k).bytes

theorem packetStored_contents {cfg : Config} (hr : RingSized cfg parts seq) (hk : k < parts.length) (s : State) :
    (packetStored parts seq k s).contents = (packetAt parts k).contents seq k := by
  rw [H261Part.contents, (hr.packet hk).hdr_eq]
  rfl

/-- Frame start puts packet `k` at index `k`, inside the ring (43_h261_reassembler.md R196). -/
theorem ReadyFor.index (hr : RingSized s.cfg parts seq) (h : ReadyFor parts seq done k s) (hk : k < parts.length) :
    ringIndex (seq + BitVec.ofNat 16 k) (firstAfter s (seq + BitVec.ofNat 16 k)) = k := by
  rw [h.first, hr.index hk]

theorem ReadyFor.index_lt (hr : RingSized s.cfg parts seq) (h : ReadyFor parts seq done k s) (hk : k < parts.length) :
    ringIndex (seq + BitVec.ofNat 16 k) (firstAfter s (seq + BitVec.ofNat 16 k)) < s.cfg.params.ringSize := by
  rw [h.index hr hk]
  exact Nat.lt_of_lt_of_le hk hr.count

/-- A packet that does not carry the marker bit is stored (43_h261_reassembler.md R199). -/
theorem ReadyFor.deliver_stores (hr : RingSized s.cfg parts seq) (h : ReadyFor parts seq done k s)
    (hk : k < parts.length) (hunmarked : (marked && decide (k + 1 = parts.length)) = false) :
    ∃ t, deliver (packetCommand parts marked seq k) s = .next t ∧ t.cfg = s.cfg ∧
      t.trace = s.trace ++ [.result 0x01000000] ∧ InProgress parts seq (k :: done) k t := by
  obtain ⟨h4, hmax, hd⟩ := hr.packet hk
  have hin := h.index_lt hr hk
  have hexec := exec_h261Pkt_stores (s := s.consumed (packetCommand parts marked seq k)) h4 hd false hin
  have hinv := execH261Pkt_inv (s := s.consumed (packetCommand parts marked seq k)) hmax h.inv hexec
  have hring : RingHolds parts seq (k :: done) (tableSet (ringAfter s (seq + BitVec.ofNat 16 k))
      (ringIndex (seq + BitVec.ofNat 16 k) (firstAfter s (seq + BitVec.ofNat 16 k)))
      (packetStored parts seq k s)) := by
    rw [h.index hr hk]
    exact h.ring.store hk (packetStored_contents hr hk s)
  exact ⟨_, (congrArg (exec · _) (packetCommand_eq hunmarked)).trans hexec, rfl, rfl, hinv, h.first, rfl, rfl, hring⟩

/-- The marker packet finds every packet before it in the ring, and with it the headers and bytes are the frame's
(43_h261_reassembler.md R197). -/
theorem ReadyFor.exists_before (hr : RingSized s.cfg parts seq) (h : ReadyFor parts seq done k s)
    (hk : k + 1 = parts.length) (hall : ∀ i < k, i ∈ done) :
    ∃ before, collect (ringAfter s (seq + BitVec.ofNat 16 k)) k = some before ∧
      (before ++ [packetStored parts seq k s]).map (·.hdr) = parts.map H261Part.hdr ∧
      (before ++ [packetStored parts seq k s]).map (·.payload) = parts.map H261Part.bytes := by
  obtain ⟨before, hbefore⟩ := h.ring.exists_collect (n := k) (by omega) hall
  obtain ⟨hlen, hget⟩ := collect_eq_some.1 hbefore
  have hstored := h.ring.store (by omega) (packetStored_contents (k := k) hr (by omega) s)
  have hcollect := collect_tableSet (p := packetStored parts seq k s) h.ring.rising fun i hi => hget i (hlen ▸ hi)
  rw [hlen, hk] at hcollect
  have hall' (i : Nat) (hi : i < parts.length) : i ∈ k :: done := by
    obtain rfl | hik := Nat.eq_or_lt_of_le (show i ≤ k by omega)
    · exact List.mem_cons_self
    · exact List.mem_cons_of_mem _ (hall i hik)
  exact ⟨before, hbefore, hstored.hdrs_payloads_of_collect hall' hcollect⟩

/-- Every packet collected before the marker packet, and that packet too, has its fields by one of the two layouts
(43_h261_reassembler.md R191). -/
theorem ReadyFor.layout (h : ReadyFor parts seq done k s) {before : List RingPkt}
    (hbefore : collect (ringAfter s (seq + BitVec.ofNat 16 k)) k = some before) :
    ∀ p ∈ before ++ [packetStored parts seq k s], p.f = stdFields p.hdr ∨ p.f = swpFields p.hdr := by
  obtain ⟨hlen, hget⟩ := collect_eq_some.1 hbefore
  intro p hp
  obtain hp | hp := List.mem_append.1 hp
  · obtain ⟨i, hi, rfl⟩ := List.mem_iff_getElem.1 hp
    have hmem : (i, before[i]) ∈ ringAfter s (seq + BitVec.ofNat 16 k) := by
      rw [← tableGet_eq_some_iff h.ring.rising, hget i (hlen ▸ hi), List.getElem?_eq_getElem hi]
    obtain ⟨-, hpkts, -⟩ := ringAfter_spec (seq + BitVec.ofNat 16 k) h.inv
    obtain ⟨-, -, hlayout, -⟩ := hpkts _ hmem
    exact hlayout
  · rw [List.mem_singleton.1 hp]
    exact parseHeader_fields _ _

/-- The marker packet, with every packet before it there, hands out the whole frame (43_h261_reassembler.md R197). -/
theorem ReadyFor.deliver_completes (hr : RingSized s.cfg parts seq) (h : ReadyFor parts seq done k s)
    (hk : k + 1 = parts.length) (hall : ∀ i < k, i ∈ done) :
    ∃ t f, deliver (packetCommand parts true seq k) s = .next t ∧
      t.trace = s.trace ++ [.frameH261 f, .result (resultWord .frameReady (BitVec.ofNat 24 f.bytes.length))] ∧
      WholeH261Frame parts seq f ∧ t.h261.first = 0xFFFFFFFF ∧ t.h261.ring = [] := by
  have hklt : k < parts.length := by omega
  obtain ⟨h4, hmax, hd⟩ := hr.packet hklt
  have hidx := h.index hr hklt
  have hin := h.index_lt hr hklt
  obtain ⟨before, hbefore, hhdrs, hpayloads⟩ := h.exists_before hr hk hall
  have hlayout := h.layout hbefore
  obtain ⟨hlen, hget⟩ := collect_eq_some.1 hbefore
  obtain ⟨last, p0, all, f, hlast, happ, hhead, hf, hexec⟩ :=
    h261MarkerHandsOutFrame _ _ _ before (s.consumed (packetCommand parts true seq k)) h.inv h4 hmax hd hin
      (hlen.trans hidx.symm) (hlen ▸ hget)
  obtain rfl : last = packetStored parts seq k s := hlast
  rw [← happ] at hhdrs hpayloads hlayout
  obtain ⟨hsbit, -⟩ := sbit_ebit_of_layout (hlayout p0 (List.mem_of_head? hhead))
  obtain ⟨-, hebit⟩ := sbit_ebit_of_layout (hlayout _ (happ ▸ List.mem_concat_self))
  have hheadHdr : some p0.hdr = parts.head?.map H261Part.hdr := by
    rw [← List.head?_map, ← hhdrs, List.head?_map, hhead]
    rfl
  have hlastHdr : some (packetStored parts seq k s).hdr = parts.getLast?.map H261Part.hdr := by
    rw [← List.getLast?_map, ← hhdrs, happ, List.map_append]
    exact List.getLast?_concat.symm
  have hcmd := packetCommand_eq (seq := seq) (marked := true) (decide_eq_true hk)
  refine ⟨_, f, (congrArg (exec · _) hcmd).trans hexec, rfl, ?_, rfl, rfl⟩
  rw [hf]
  refine ⟨h.first, (congrArg (· + 1) hidx).trans hk, ?_, hhdrs, ?_, ?_⟩
  · show all.flatMap (·.payload) = _
    rw [List.flatMap_def, hpayloads, List.flatMap_def]
  · have := congrArg (Option.map (·.extractLsb' 29 3)) hheadHdr
    rwa [Option.map_map, Option.map_some, ← hsbit] at this
  · have := congrArg (Option.map (·.extractLsb' 26 3)) hlastHdr
    rwa [Option.map_map, Option.map_some, ← hebit] at this

/-! ## The packets in order of arrival -/

/-- Of commands delivered, those after the ones done go on from the state these left. -/
theorem deliverAll_append {is js : List Instr} {t : State} (h : deliverAll is s = .next t) :
    deliverAll (is ++ js) s = deliverAll js t := by
  induction is generalizing s with
  | nil => cases h; rfl
  | cons i is ih =>
    cases e : deliver i s with
    | next u =>
      rw [deliverAll_cons e] at h
      exact (deliverAll_cons e).trans (ih h)
    | fault f => rw [deliverAll, e] at h; cases h
    | refused r => rw [deliverAll, e] at h; cases h

/-- Packets without the marker bit, each within the gap threshold of the one before, are all stored, and leave the
reassembler ready for packet `k` after them: by induction on them. -/
theorem ReadyFor.deliverAll_stores {early : List Nat} {q : Nat} (hr : RingSized s.cfg parts seq)
    (h : ReadyFor parts seq done q s) (hq : (early ++ [k]).head? = some q) (hlt : ∀ i ∈ early ++ [k], i < parts.length)
    (hunmarked : ∀ i ∈ early, (marked && decide (i + 1 = parts.length)) = false)
    (hchain : (early ++ [k]).IsChain (withinGap s.cfg.params.gap)) :
    ∃ t, deliverAll (early.map (packetCommand parts marked seq)) s = .next t ∧ t.cfg = s.cfg ∧
      t.trace = s.trace ++ List.replicate early.length (.result 0x01000000) ∧
      ReadyFor parts seq (early.reverse ++ done) k t := by
  induction early generalizing done q s with
  | nil =>
    obtain rfl : k = q := Option.some.inj hq
    exact ⟨s, rfl, rfl, (List.append_nil _).symm, h⟩
  | cons i early ih =>
    obtain rfl : i = q := Option.some.inj hq
    obtain ⟨hi, hrest⟩ := List.forall_mem_cons.1 hlt
    obtain ⟨hmark, hmarks⟩ := List.forall_mem_cons.1 hunmarked
    obtain ⟨t, e, hcfg, htrace, hprogress⟩ := h.deliver_stores hr hi hmark
    obtain ⟨j, hj⟩ : ∃ j, (early ++ [k]).head? = some j := ⟨_, List.head?_eq_some_head (by simp)⟩
    obtain ⟨hgap, hchain'⟩ := List.isChain_cons.1 hchain
    rw [← hcfg] at hr hgap hchain'
    have hnext := hprogress.readyFor hr hi (hrest j (List.mem_of_head? hj)) (hgap j hj)
    obtain ⟨u, e', hcfg', htrace', hready⟩ := ih hr hnext hj hrest hmarks hchain'
    refine ⟨u, (deliverAll_cons e).trans e', hcfg'.trans hcfg, ?_, ?_⟩
    · rw [htrace', htrace]
      simp [List.replicate_succ]
    · simpa using hready

/-- Settles O59: the packets before the marker packet are stored in whatever order they come, and it completes them. -/
theorem h261ReorderedFrameHandedOut : Obligations.H261ReorderedFrameHandedOut := by
  intro parts order seq s hinv hopen hwhole hpos hcount hwrap hperm hhead hlast hchain
  have hr : RingSized s.cfg parts seq := ⟨hcount, hwrap, hwhole⟩
  obtain ⟨k, hk⟩ : ∃ k, k + 1 = parts.length := ⟨parts.length - 1, by omega⟩
  rw [← hk, Nat.add_sub_cancel] at hlast
  obtain ⟨early, rfl⟩ := List.getLast?_eq_some_iff.1 hlast
  have hlt (i : Nat) (hi : i ∈ early ++ [k]) : i < parts.length := List.mem_range.1 (hperm.mem_iff.1 hi)
  rw [← hk, List.range_succ] at hperm
  have hearly : early.Perm (List.range k) := (List.perm_append_right_iff [k]).1 hperm
  have hmem (i : Nat) : i ∈ early ↔ i < k := hearly.mem_iff.trans List.mem_range
  have hunmarked (i : Nat) (hi : i ∈ early) : (true && decide (i + 1 = parts.length)) = false := by
    have := (hmem i).1 hi
    exact decide_eq_false (by omega)
  obtain ⟨t, e, hcfg, htrace, hready⟩ := (readyFor_opening hinv hopen).deliverAll_stores hr hhead hlt hunmarked hchain
  obtain ⟨u, f, e', htrace', hframe, hclosed⟩ := hready.deliver_completes (hcfg ▸ hr) hk fun i hi => by
    simpa using (hmem i).2 hi
  refine ⟨u, f, ?_, ?_, hframe.first, hframe.npkt, hframe.bytes, hframe.hdrs, hframe.sbit, hframe.ebit, hclosed⟩
  · rw [List.map_append, deliverAll_append e]
    exact deliverAll_cons e'
  · rw [htrace', htrace, hearly.length_eq, List.length_range, ← hk]
    rfl

/-! ## After a gap -/

/-- The state with its frame closed. -/
def State.closed (s : State) : State := { s with h261 := closeFrame s.h261 }

/-- A packet that restarts the ring does not read the frame it finds (43_h261_reassembler.md R195, R201). -/
theorem acceptPacket_closed {hdr : Word} {payload : List Byte} (m : Bool) (h : frameRestarts s seq) :
    acceptPacket m seq hdr payload s.closed = acceptPacket m seq hdr payload s := by
  have hring : ringAfter s.closed seq = ringAfter s seq := (if_pos h).trans (if_pos h).symm
  have hfirst : firstAfter s.closed seq = firstAfter s seq := (if_pos (.inl h)).trans (if_pos (.inl h)).symm
  have hopened : openedRing s.closed seq hdr = openedRing s seq hdr := by
    rw [openedRing, openedRing, hring, hfirst]
    rfl
  rw [acceptPacket_eq, acceptPacket_eq, hopened, hfirst]
  rfl

/-- Settles O58: the first packet finds a frame that might as well be closed, and the rest follow one after another. -/
theorem h261GapRestartsRing : Obligations.H261GapRestartsRing := by
  intro parts seq s hrestart hgap hwhole hpos hcount hwrap
  obtain ⟨k, hk⟩ : ∃ k, parts.length = k + 1 := ⟨parts.length - 1, by omega⟩
  have hr : RingSized s.closed.cfg parts seq := ⟨hcount, hwrap, hwhole⟩
  have hfirst : deliver (packetCommand parts false seq 0) s.closed = deliver (packetCommand parts false seq 0) s := by
    obtain ⟨h4, -, hd⟩ := hr.packet hpos
    have hseq : seq + BitVec.ofNat 16 0 = seq := BitVec.add_zero seq
    rw [packetCommand_eq (m := false) rfl, hseq, deliver, deliver, exec_h261Pkt_accepts h4 hd,
      exec_h261Pkt_accepts h4 hd]
    exact congrArg Host.Outcome.next (acceptPacket_closed (s := s.consumed _) false hrestart)
  have hsame : deliverAll ((List.range parts.length).map (packetCommand parts false seq)) s.closed =
      deliverAll ((List.range parts.length).map (packetCommand parts false seq)) s := by
    rw [hk, List.range_succ_eq_map, List.map_cons, deliverAll, deliverAll, hfirst]
  have hready : ReadyFor parts seq [] 0 s.closed := readyFor_opening (h261_inv_of_closed rfl rfl) (.inr rfl)
  have hhead : (List.range k ++ [k]).head? = some 0 := by
    rw [← List.range_succ, List.range_succ_eq_map]
    rfl
  have hchain : (List.range k ++ [k]).IsChain (withinGap s.closed.cfg.params.gap) := by
    rw [← List.range_succ, List.isChain_range_succ]
    intro i _
    show ((i : Int) - (i.succ : Int)).natAbs ≤ s.cfg.params.gap
    omega
  obtain ⟨t, e, hcfg, htrace, hready'⟩ := hready.deliverAll_stores (marked := false) hr hhead
    (by simp [← List.range_succ, hk]) (fun _ _ => rfl) hchain
  obtain ⟨u, e', -, htrace', hprogress⟩ := hready'.deliver_stores (marked := false) (hcfg ▸ hr) (by omega) rfl
  refine ⟨u, ?_, hprogress.first, ?_, fun i => ?_⟩
  · rw [← hsame, hk, List.range_succ, List.map_append, deliverAll_append e]
    exact deliverAll_cons e'
  · rw [htrace', htrace, hk, List.replicate_succ', List.length_range, List.append_assoc]
    rfl
  · have hin : (if i ∈ k :: ((List.range k).reverse ++ []) then parts[i]? else none) = parts[i]? := by
      by_cases hi : i < parts.length
      · exact if_pos (by simp; omega)
      · rw [List.getElem?_eq_none (by omega), ite_self]
    exact (hprogress.ring.held i).trans (congrArg (Option.map _) hin)

end Sys2Proof.Machine
end

section
/-! The control commands NOP and SRST (44_control.md R220, R221; 70_reset_and_hazards.md R270). -/

namespace Sys2Proof.Machine

/-- The result word OK with value 0 is the zero word (10_state.md R31, R34; 44_control.md R220). -/
theorem resultWord_ok_zero : resultWord .ok 0 = 0x00000000 := by decide

/-- Answering OK with value 0 appends the zero word to the trace and changes nothing else (10_state.md R31). -/
theorem emitResult_ok_zero (s : State) :
    emitResult .ok 0 s = { s with trace := s.trace ++ [.result 0x00000000] } := by
  rw [emitResult, resultWord_ok_zero]
  rfl

/-- NOP answers OK, by its arm of `exec` (44_control.md R220). -/
theorem exec_nop (s : State) : exec .nop s = .next (emitResult .ok 0 s) := rfl

/-- SRST resets, counts its own word and answers OK, by its arm of `exec` (44_control.md R221). -/
theorem exec_srst (s : State) : exec .srst s = .next (emitResult .ok 0 { performReset s with cp := 1 }) := rfl

/-- Settles O23: NOP is its answer alone. -/
theorem nopOnlyAnswers : Obligations.NopOnlyAnswers := by
  intro s
  rw [exec_nop, emitResult_ok_zero]

/-- Settles O24: what is left of the reset and the answer is the table of reset values, where `first`, the all-ones word
in the model, is written -1 (10_state.md R30). -/
theorem srstResetsEveryElement : Obligations.SrstResetsEveryElement := by
  intro s
  rw [exec_srst, emitResult_ok_zero, performReset]
  rfl

end Sys2Proof.Machine
end

section
/-! The machine right after reset is sound (70_reset_and_hazards.md R270, R271). -/

namespace Sys2Proof.Machine

/-- A reset of the machine just powered on moves its `epoch` alone: all else has its reset value (log entry 5). -/
theorem performReset_powerOn (cfg : Config) :
    performReset (State.powerOn cfg) = { State.powerOn cfg with epoch := 1 } := rfl

/-- Power-on is sound: it is what a reset leaves, and soundness does not look at `epoch`. -/
theorem powerOn_inv (cfg : Config) : State.Inv (State.powerOn cfg) := by
  have hreset : State.Inv { State.powerOn cfg with epoch := 1 } :=
    performReset_powerOn cfg ▸ performReset_inv (State.powerOn cfg)
  exact hreset

/-- Settles O25: `State.reset` is the power-on state of the default configuration. -/
theorem resetIsSound : Obligations.ResetIsSound := ⟨powerOn_inv Config.default, powerOn_inv⟩

end Sys2Proof.Machine
end
